-- ==== Sys2Proof/Word.lean ====
section
/-! DEFINITION. The word types of FSTE (spec/00_scope.md R10). Bits are numbered from 0 at the least
significant end; every value is unsigned. -/

namespace Sys2Proof

/-- `u8` of spec/00_scope.md R10. -/
abbrev Byte := BitVec 8
/-- `u16`; also an offset of the flash window (spec/20_memory.md R51). -/
abbrev U16 := BitVec 16
/-- `u32`. -/
abbrev U32 := BitVec 32
/-- `u64`. -/
abbrev U64 := BitVec 64

/-- A sector index 0..31 (spec/00_scope.md R17). -/
abbrev Sector := BitVec 5
/-- A sector-in-bank number 0..15 (spec/10_state.md R37). -/
abbrev BankSector := BitVec 4
/-- A byte position 0..4095 in a sector (spec/20_memory.md R51). -/
abbrev Offset := BitVec 12

end Sys2Proof
end

