-- ==== Sys2Proof/Machine/Params.lean ====
section
/-! DEFINITION. The literals the spec fixes (spec/00_scope.md R8) and the parameters it decides
(R9), each defined once under the spec's own name, as spec/93_implementation_defined.md part 4 asks. -/

namespace Sys2Proof.Params

/-! Geometry (R8). -/

/-- NUM_BANKS. -/
abbrev numBanks : Nat := 2
/-- SECTORS_PER_BANK. -/
abbrev sectorsPerBank : Nat := 16
/-- NUM_SECTORS. -/
abbrev numSectors : Nat := 32
/-- SECTOR_SIZE. -/
abbrev sectorSize : Nat := 4096
/-- WINDOW_SIZE. -/
abbrev windowSize : Nat := 65536

/-! Batteries and samples (R8). -/

/-- NUM_BATTERIES. -/
abbrev numBatteries : Nat := 6
/-- ERASE_TRIALS. -/
abbrev eraseTrials : Nat := 10
/-- PROGRAM_TRIALS. -/
abbrev programTrials : Nat := 10
/-- PROGRAM_SAMPLES_MAX = PROGRAM_TRIALS × SECTOR_SIZE. -/
abbrev programSamplesMax : Nat := 40960
/-- SAMPLE_CAP = max(ERASE_TRIALS, PROGRAM_SAMPLES_MAX). -/
abbrev sampleCap : Nat := 40960
/-- MAX_RETRIES (R9, D30): no cap. No rule uses it; every retry loop is unbounded. -/
def maxRetries : Option Nat := none

/-! Flash protocol (R8; roles of the command bytes R9, D3, D4, D6; UNVERIFIED, log 21). -/

/-- Offset of UNLOCK1, of every command byte but the erase confirm, and RESET_OFF. -/
abbrev unlock1Off : U16 := 0x5555
abbrev unlock1Data : Byte := 0xAA
abbrev unlock2Off : U16 := 0x2AAA
abbrev unlock2Data : Byte := 0x55
/-- Where each command byte is written (D3). -/
abbrev commandOff : U16 := 0x5555
abbrev idEntryByte : Byte := 0x90
abbrev idExitByte : Byte := 0xF0
abbrev bankByte : Byte := 0xB0
abbrev eraseSetupByte : Byte := 0x80
abbrev eraseConfirmByte : Byte := 0x30
abbrev programByte : Byte := 0xA0
/-- The reset (abort) write (D6). -/
abbrev abortByte : Byte := 0xF0
/-- RESET_OFF (D6). -/
abbrev resetOff : U16 := 0x5555
/-- Where the bank number is written (D3). -/
abbrev bankOff : U16 := 0x0000
/-- ID_OFF_MANUF (D4). -/
abbrev idOffManuf : U16 := 0x0000
/-- ID_OFF_DEVICE (D4). -/
abbrev idOffDevice : U16 := 0x0001
/-- STATUS_FAIL_MASK, status bit 5. -/
abbrev statusFailMask : Byte := 0x20
/-- ERASED, the value of an erased byte. -/
abbrev erased : Byte := 0xFF

/-! PRNG constants (R9, D15, D16; UNVERIFIED, log 20). -/

abbrev scrInc : U64 := 0x9E3779B97F4A7C15
abbrev scrM1 : U64 := 0xBF58476D1CE4E5B9
abbrev scrM2 : U64 := 0x94D049BB133111EB
abbrev scrS1 : Nat := 30
abbrev scrS2 : Nat := 27
abbrev scrS3 : Nat := 31
abbrev genR1 : Nat := 7
abbrev genSh : Nat := 9
abbrev genR2 : Nat := 11

end Sys2Proof.Params
end

