-- ==== Sys2Proof/Config.lean ====
section
/-! DEFINITION. What the spec leaves open: the open parameters of spec/00_scope.md R9, the reset
values spec/10_state.md R42 leaves unspecified, and the draws of the environment (R14). Each is an
opaque constant, so nothing can be proved of its value: a claim that holds here holds for every
value. The argument `draw` is the number of the draw (`State.draws`), `epoch` the number of
external resets so far (`State.epoch`). -/

namespace Sys2Proof.Config

/-- SCR_SEED (R9, R24, D18): the value of SCR at reset. DESIGN CHOICE, log 8. -/
opaque scrSeed : U64

/-- ID_KNOWN_A (R9, R150, D5). No rule depends on it. DESIGN CHOICE, log 22. -/
opaque idKnownA : U16
/-- ID_KNOWN_B (R9, R150, D5). No rule depends on it. DESIGN CHOICE, log 22. -/
opaque idKnownB : U16
/-- FLASH_BASE (R9, R53, D2). No rule depends on it. DESIGN CHOICE, log 22. -/
opaque flashBase : Nat
/-- TMR_LO_ADDR (R9, R53, D10). No rule depends on it. DESIGN CHOICE, log 22. -/
opaque tmrLoAddr : Nat
/-- TMR_HI_ADDR (R9, R53, D10). No rule depends on it. DESIGN CHOICE, log 22. -/
opaque tmrHiAddr : Nat
/-- IME_ADDR (R9, R53, D10). No rule depends on it. DESIGN CHOICE, log 22. -/
opaque imeAddr : Nat

/-- `draw u8` of spec/20_memory.md R60: what the unconstrained chip answers to a read. DESIGN CHOICE, log 4. -/
opaque chipByte (draw : Nat) : Byte
/-- CycleCost (R15, D13): clock cycles a Tick consumes. DESIGN CHOICE, log 3. -/
opaque cycleCost (draw : Nat) : Nat
/-- `draw u32` of spec/41_timer.md R123: GetTimerResult outside Stopped. DESIGN CHOICE, log 11. -/
opaque meaninglessSample (draw : Nat) : U32
/-- RES after an operation with no result (spec/10_state.md R21). DESIGN CHOICE, log 10. -/
opaque unspecifiedRes (draw : Nat) : U64

/-- BusyLen of the reference device (spec/20_memory.md R61). DESIGN CHOICE, log 5. -/
opaque busyLen (draw : Nat) : Nat
/-- Fails of the reference device (spec/20_memory.md R61). DESIGN CHOICE, log 5. -/
opaque fails (draw : Nat) : Bool
/-- FreeBits of the reference device (spec/20_memory.md R61); the low five bits are used. DESIGN CHOICE, log 5. -/
opaque freeBits (draw : Nat) : Byte
/-- The reference device's answer in ID mode at an offset above 1 (spec/20_memory.md R73). DESIGN CHOICE, log 5. -/
opaque idModeByte (draw : Nat) : Byte

/-! Unspecified reset values of spec/10_state.md R42. DESIGN CHOICE, log 7. -/

opaque genReset (epoch i : Nat) : U32
opaque tloCntReset (epoch : Nat) : U16
opaque thiCntReset (epoch : Nat) : U16
opaque imeReset (epoch : Nat) : Bool
opaque flashIdReset (epoch : Nat) : U16
opaque opselReset (epoch : Nat) : Byte
opaque argReset (epoch i : Nat) : U32
opaque resReset (epoch : Nat) : U64
opaque pbufReset (epoch i : Nat) : Byte
opaque sampReset (epoch i : Nat) : U32
/-- `field` is 0 for Min, 1 for Max, 2 for Mean, 3 for Fail. -/
opaque resultReset (epoch i field : Nat) : U32

end Sys2Proof.Config
end

