-- ==== Sys2Proof/Syntax.lean ====
section
/-! DEFINITION. The instructions: one constructor per row of spec/opcode_table.json, the seventeen
operations of the port (spec/30_encoding.md R92) and the fifteen bus cycles (R94); the raw request
of the port (R90) and the names of the operands. -/

namespace Sys2Proof

/-- One row of the opcode table with its operands, each as wide as R92 or R94 gives it. -/
inductive Instr where
  -- PRNG
  | scramblerNext
  | generatorNext
  -- TMR
  | setupTimer
  | startTimer
  | endTimer
  | getTimerResult
  -- FCP
  | readFlashID
  | switchFlashBank (bank : BitVec 1)
  | eraseSector (sector : Sector)
  | eraseSectorTimed (sector : Sector)
  | programByte (sector : Sector) (offset : Offset) (value : Byte)
  | programByteTimed (sector : Sector) (offset : Offset) (value : Byte)
  -- COND
  | zeroSector (sector : Sector)
  | randomizeSector (sector : Sector)
  -- STAT: `timing` of R93 is `{battery, sector}`
  | saveResults (battery : BitVec 3) (sector : Sector) (numSuccessful maxPossible : U16)
  -- ORCH: `battery` is the battery number minus one
  | runBattery (battery : BitVec 3)
  | runFullTest
  -- bus writes (format BUSW)
  | unlock1
  | unlock2
  | cmdIdEntry
  | cmdIdExit
  | cmdBank
  | bankData (bank : BitVec 1)
  | cmdEraseSetup
  | sectorErase (sec : BankSector)
  | cmdProgram
  | programData (sec : BankSector) (offset : Offset) (value : Byte)
  | abort
  -- bus reads (format BUSR): FSTE drives the offset, the chip answers the data byte
  | rdId0
  | rdId1
  | rdPoll (sec : BankSector) (offset : Offset)
  | rdVerify (sec : BankSector) (offset : Offset)
  deriving DecidableEq, Repr

/-- The tuple the host presents on the port (R90). -/
structure Request where
  opsel : Byte
  arg0 : U32
  arg1 : U32
  arg2 : U32
  deriving DecidableEq, Repr

/-- The operands R97 gives a legal range. -/
inductive Operand where
  | bank | sector | offset | value | timing | battery | numSuccessful | maxPossible
  deriving DecidableEq, Repr

/-- The direction of a bus cycle (R94): BUSW is `write`, BUSR is `read`. -/
inductive Direction where
  | write | read
  deriving DecidableEq, Repr

/-- The rows of the bus-cycle table (R94). A cycle is told apart by its place in the sequences of
R95, not by its pattern; a `BusRow` is that place. -/
inductive BusRow where
  | unlock1 | unlock2 | cmdIdEntry | cmdIdExit | cmdBank | bankData | cmdEraseSetup | sectorErase
  | cmdProgram | programData | abort | rdId0 | rdId1 | rdPoll | rdVerify
  deriving DecidableEq, Repr

end Sys2Proof
end

