-- ==== Sys2Proof/WellFormed.lean ====
section
/-! DEFINITION. The operand checks of spec/30_encoding.md R97 that a width alone does not make. The
other ranges of R97 are the widths of Instr's fields; the port's high bits are checked in Decode. -/

namespace Sys2Proof

/-- `battery` not in 0..5 is refused (R97). -/
def batteryInRange (battery : BitVec 3) : Bool := decide (battery.toNat < Params.numBatteries)

/-- `numSuccessful ≤ maxPossible ≤ SAMPLE_CAP` (R97, spec/44_statistics.md R174). -/
def countsInRange (numSuccessful maxPossible : U16) : Bool :=
  decide (numSuccessful.toNat ≤ maxPossible.toNat) && decide (maxPossible.toNat ≤ Params.sampleCap)

/-- Every operand is in the range R97 gives it. -/
def Instr.wf : Instr → Bool
  | .saveResults battery _ numSuccessful maxPossible =>
    batteryInRange battery && countsInRange numSuccessful maxPossible
  | .runBattery battery => batteryInRange battery
  | .scramblerNext | .generatorNext | .setupTimer | .startTimer | .endTimer | .getTimerResult
  | .readFlashID | .switchFlashBank _ | .eraseSector _ | .eraseSectorTimed _
  | .programByte _ _ _ | .programByteTimed _ _ _ | .zeroSector _ | .randomizeSector _
  | .runFullTest | .unlock1 | .unlock2 | .cmdIdEntry | .cmdIdExit | .cmdBank | .bankData _
  | .cmdEraseSetup | .sectorErase _ | .cmdProgram | .programData _ _ _ | .abort
  | .rdId0 | .rdId1 | .rdPoll _ _ | .rdVerify _ _ => true

end Sys2Proof
end

