-- ==== Sys2Proof/Decode.lean ====
section
/-! DEFINITION. Decoding of a request of the port (spec/30_encoding.md R90 to R93, R96, R97) and of a
bus cycle (R94), total and rejecting by name; then the encoder, written from the same tables. -/

namespace Sys2Proof

/-- Why a request or a cycle has no meaning. -/
inductive DecodeError where
  /-- The OPSEL value is in no row of R92 (R96). -/
  | unassignedOpsel (opsel : Byte)
  /-- An operand is outside its legal range or has a bit above its width (R97). -/
  | operandOutOfRange (operand : Operand)
  /-- The 24 bits do not match the row of R94 that the place in the sequence names. -/
  | notThisCycle (row : BusRow)
  deriving DecidableEq, Repr

/-! ## Format OP -/

/-- An operand of `w` bits sits in the low bits of its ARG; the other bits must be zero (R97). -/
def narrow (w : Nat) (operand : Operand) (arg : U32) : Except DecodeError (BitVec w) :=
  if arg.toNat < 2 ^ w then .ok (arg.setWidth w) else .error (.operandOutOfRange operand)

/-- ProgramByte and ProgramByteTimed share one operand form (R92). -/
def decodeProgram (build : Sector → Offset → Byte → Instr) (r : Request) :
    Except DecodeError Instr :=
  match narrow 5 .sector r.arg0 with
  | .error e => .error e
  | .ok sector =>
    match narrow 12 .offset r.arg1 with
    | .error e => .error e
    | .ok offset =>
      match narrow 8 .value r.arg2 with
      | .error e => .error e
      | .ok value => .ok (build sector offset value)

/-- An operation whose only operand is a sector (R92). -/
def decodeSector (build : Sector → Instr) (r : Request) : Except DecodeError Instr :=
  match narrow 5 .sector r.arg0 with
  | .error e => .error e
  | .ok sector => .ok (build sector)

/-- SwitchFlashBank: `bank[0]` in ARG[0] (R92). -/
def decodeBank (r : Request) : Except DecodeError Instr :=
  match narrow 1 .bank r.arg0 with
  | .error e => .error e
  | .ok bank => .ok (.switchFlashBank bank)

/-- RunBattery: `battery[2:0]` in ARG[0], in 0..5 (R92, R97). -/
def decodeBattery (r : Request) : Except DecodeError Instr :=
  match narrow 3 .battery r.arg0 with
  | .error e => .error e
  | .ok battery =>
    if batteryInRange battery then .ok (.runBattery battery)
    else .error (.operandOutOfRange .battery)

/-- SaveResults: `timing = {battery[2:0], sector[4:0]}`, `numSuccessful[15:0]`,
`maxPossible[15:0]`, with the ranges of R97. -/
def decodeSaveResults (r : Request) : Except DecodeError Instr :=
  match narrow 8 .timing r.arg0 with
  | .error e => .error e
  | .ok timing =>
    match narrow 16 .numSuccessful r.arg1 with
    | .error e => .error e
    | .ok numSuccessful =>
      match narrow 16 .maxPossible r.arg2 with
      | .error e => .error e
      | .ok maxPossible =>
        if batteryInRange (timing.extractLsb' 5 3) then
          if numSuccessful.toNat ≤ maxPossible.toNat then
            if maxPossible.toNat ≤ Params.sampleCap then
              .ok (.saveResults (timing.extractLsb' 5 3) (timing.extractLsb' 0 5)
                numSuccessful maxPossible)
            else .error (.operandOutOfRange .maxPossible)
          else .error (.operandOutOfRange .numSuccessful)
        else .error (.operandOutOfRange .timing)

/-- The operation a request selects, or why it selects none: the table of R92. An ARG with no
operand in its row is not looked at (DESIGN CHOICE, log 12). -/
def decodeRequest (r : Request) : Except DecodeError Instr :=
  if r.opsel = 0x10 then .ok .scramblerNext
  else if r.opsel = 0x11 then .ok .generatorNext
  else if r.opsel = 0x20 then .ok .setupTimer
  else if r.opsel = 0x21 then .ok .startTimer
  else if r.opsel = 0x22 then .ok .endTimer
  else if r.opsel = 0x23 then .ok .getTimerResult
  else if r.opsel = 0x30 then .ok .readFlashID
  else if r.opsel = 0x31 then decodeBank r
  else if r.opsel = 0x32 then decodeSector .eraseSector r
  else if r.opsel = 0x33 then decodeSector .eraseSectorTimed r
  else if r.opsel = 0x34 then decodeProgram .programByte r
  else if r.opsel = 0x35 then decodeProgram .programByteTimed r
  else if r.opsel = 0x40 then decodeSector .zeroSector r
  else if r.opsel = 0x41 then decodeSector .randomizeSector r
  else if r.opsel = 0x50 then decodeSaveResults r
  else if r.opsel = 0x60 then decodeBattery r
  else if r.opsel = 0x61 then .ok .runFullTest
  else .error (.unassignedOpsel r.opsel)

/-! ## Formats BUSW and BUSR -/

/-- The direction of a row's cycle (R94). -/
def BusRow.direction : BusRow → Direction
  | .unlock1 | .unlock2 | .cmdIdEntry | .cmdIdExit | .cmdBank | .bankData | .cmdEraseSetup
  | .sectorErase | .cmdProgram | .programData | .abort => .write
  | .rdId0 | .rdId1 | .rdPoll | .rdVerify => .read

/-- The bits of `{off, data}` a row fixes (R94: the pattern column). -/
def BusRow.mask : BusRow → BitVec 24
  | .unlock1 | .unlock2 | .cmdIdEntry | .cmdIdExit | .cmdBank | .cmdEraseSetup | .cmdProgram
  | .abort => 0xFFFFFF
  | .bankData => 0xFFFFFE
  | .sectorErase => 0x0FFFFF
  | .rdId0 | .rdId1 => 0xFFFF00
  | .programData | .rdPoll | .rdVerify => 0x000000

/-- What the fixed bits are (R94). -/
def BusRow.bits : BusRow → BitVec 24
  | .unlock1 => 0x5555AA
  | .unlock2 => 0x2AAA55
  | .cmdIdEntry => 0x555590
  | .cmdIdExit => 0x5555F0
  | .cmdBank => 0x5555B0
  | .bankData => 0x000000
  | .cmdEraseSetup => 0x555580
  | .sectorErase => 0x000030
  | .cmdProgram => 0x5555A0
  | .programData => 0x000000
  | .abort => 0x5555F0
  | .rdId0 => 0x000000
  | .rdId1 => 0x000100
  | .rdPoll => 0x000000
  | .rdVerify => 0x000000

/-- The instruction of a row with the fields of the word (R94): `s` is bits 23:20, `o` bits 19:8,
`v` bits 7:0, `b` bit 0. The data byte of a read is the chip's answer, no operand. -/
def BusRow.build (row : BusRow) (w : BitVec 24) : Instr :=
  match row with
  | .unlock1 => .unlock1
  | .unlock2 => .unlock2
  | .cmdIdEntry => .cmdIdEntry
  | .cmdIdExit => .cmdIdExit
  | .cmdBank => .cmdBank
  | .bankData => .bankData (w.extractLsb' 0 1)
  | .cmdEraseSetup => .cmdEraseSetup
  | .sectorErase => .sectorErase (w.extractLsb' 20 4)
  | .cmdProgram => .cmdProgram
  | .programData =>
    .programData (w.extractLsb' 20 4) (w.extractLsb' 8 12) (w.extractLsb' 0 8)
  | .abort => .abort
  | .rdId0 => .rdId0
  | .rdId1 => .rdId1
  | .rdPoll => .rdPoll (w.extractLsb' 20 4) (w.extractLsb' 8 12)
  | .rdVerify => .rdVerify (w.extractLsb' 20 4) (w.extractLsb' 8 12)

/-- The cycle `{off, data}` in direction `dir`, read at the place `row` of a sequence of R95. -/
def decodeCycle (row : BusRow) (dir : Direction) (w : BitVec 24) : Except DecodeError Instr :=
  if dir = row.direction ∧ w &&& row.mask = row.bits then .ok (row.build w)
  else .error (.notThisCycle row)

/-! ## Bare words, for a reader of the opcode table (DEDUCED, log 16) -/

/-- The rows in the order a bare word is tried against them: most fixed bits first. -/
def busRowsBySpecificity : List BusRow :=
  [.unlock1, .unlock2, .cmdIdEntry, .cmdIdExit, .cmdBank, .cmdEraseSetup, .cmdProgram, .abort,
   .bankData, .sectorErase, .rdId0, .rdId1, .programData, .rdPoll, .rdVerify]

/-- The first row whose fixed bits a bare word has. The last rows fix no bits, so there is one. -/
def decodeBareCycle (w : BitVec 24) : Option Instr :=
  (busRowsBySpecificity.find? fun row => w &&& row.mask == row.bits).map fun row => row.build w

/-- A request as one number: OPSEL in bits 7:0, then ARG[0], ARG[1], ARG[2]. -/
def Request.ofNat (w : Nat) : Request :=
  { opsel := BitVec.ofNat 8 w
    arg0 := BitVec.ofNat 32 (w / 2 ^ 8)
    arg1 := BitVec.ofNat 32 (w / 2 ^ 40)
    arg2 := BitVec.ofNat 32 (w / 2 ^ 72) }

/-- The instruction of a row of spec/opcode_table.json: 24-bit rows are bus cycles, all others
requests of the port; bits at or above `nbits` are zero. -/
def decodeTableWord (nbits w : Nat) : Option Instr :=
  if nbits = 24 then decodeBareCycle (BitVec.ofNat 24 w)
  else (decodeRequest (Request.ofNat (w % 2 ^ nbits))).toOption

/-! ## The encoder -/

/-- The request that selects an operation (R92); a bus cycle has none. ARGs with no operand are 0. -/
def encodeRequest : Instr → Option Request
  | .scramblerNext => some ⟨0x10, 0, 0, 0⟩
  | .generatorNext => some ⟨0x11, 0, 0, 0⟩
  | .setupTimer => some ⟨0x20, 0, 0, 0⟩
  | .startTimer => some ⟨0x21, 0, 0, 0⟩
  | .endTimer => some ⟨0x22, 0, 0, 0⟩
  | .getTimerResult => some ⟨0x23, 0, 0, 0⟩
  | .readFlashID => some ⟨0x30, 0, 0, 0⟩
  | .switchFlashBank bank => some ⟨0x31, bank.setWidth 32, 0, 0⟩
  | .eraseSector sector => some ⟨0x32, sector.setWidth 32, 0, 0⟩
  | .eraseSectorTimed sector => some ⟨0x33, sector.setWidth 32, 0, 0⟩
  | .programByte sector offset value =>
    some ⟨0x34, sector.setWidth 32, offset.setWidth 32, value.setWidth 32⟩
  | .programByteTimed sector offset value =>
    some ⟨0x35, sector.setWidth 32, offset.setWidth 32, value.setWidth 32⟩
  | .zeroSector sector => some ⟨0x40, sector.setWidth 32, 0, 0⟩
  | .randomizeSector sector => some ⟨0x41, sector.setWidth 32, 0, 0⟩
  | .saveResults battery sector numSuccessful maxPossible =>
    some ⟨0x50, (battery ++ sector).setWidth 32, numSuccessful.setWidth 32,
      maxPossible.setWidth 32⟩
  | .runBattery battery => some ⟨0x60, battery.setWidth 32, 0, 0⟩
  | .runFullTest => some ⟨0x61, 0, 0, 0⟩
  | .unlock1 | .unlock2 | .cmdIdEntry | .cmdIdExit | .cmdBank | .bankData _ | .cmdEraseSetup
  | .sectorErase _ | .cmdProgram | .programData _ _ _ | .abort | .rdId0 | .rdId1 | .rdPoll _ _
  | .rdVerify _ _ => none

/-- The row of a bus cycle (R94); an operation has none. -/
def Instr.busRow : Instr → Option BusRow
  | .unlock1 => some .unlock1
  | .unlock2 => some .unlock2
  | .cmdIdEntry => some .cmdIdEntry
  | .cmdIdExit => some .cmdIdExit
  | .cmdBank => some .cmdBank
  | .bankData _ => some .bankData
  | .cmdEraseSetup => some .cmdEraseSetup
  | .sectorErase _ => some .sectorErase
  | .cmdProgram => some .cmdProgram
  | .programData _ _ _ => some .programData
  | .abort => some .abort
  | .rdId0 => some .rdId0
  | .rdId1 => some .rdId1
  | .rdPoll _ _ => some .rdPoll
  | .rdVerify _ _ => some .rdVerify
  | .scramblerNext | .generatorNext | .setupTimer | .startTimer | .endTimer | .getTimerResult
  | .readFlashID | .switchFlashBank _ | .eraseSector _ | .eraseSectorTimed _
  | .programByte _ _ _ | .programByteTimed _ _ _ | .zeroSector _ | .randomizeSector _
  | .saveResults _ _ _ _ | .runBattery _ | .runFullTest => none

/-- The 24 bits `{off, data}` of a bus cycle (R94). The data byte of a read is `answer`, the byte
the chip answers; a write ignores `answer`. An operation has no such word. -/
def encodeCycle (answer : Byte) : Instr → Option (BitVec 24)
  | .unlock1 => some (Params.unlock1Off ++ Params.unlock1Data)
  | .unlock2 => some (Params.unlock2Off ++ Params.unlock2Data)
  | .cmdIdEntry => some (Params.commandOff ++ Params.idEntryByte)
  | .cmdIdExit => some (Params.commandOff ++ Params.idExitByte)
  | .cmdBank => some (Params.commandOff ++ Params.bankByte)
  | .bankData bank => some (Params.bankOff ++ bank.setWidth 8)
  | .cmdEraseSetup => some (Params.commandOff ++ Params.eraseSetupByte)
  | .sectorErase sec => some (sec ++ (0 : Offset) ++ Params.eraseConfirmByte)
  | .cmdProgram => some (Params.commandOff ++ Params.programByte)
  | .programData sec offset value => some (sec ++ offset ++ value)
  | .abort => some (Params.resetOff ++ Params.abortByte)
  | .rdId0 => some (Params.idOffManuf ++ answer)
  | .rdId1 => some (Params.idOffDevice ++ answer)
  | .rdPoll sec offset => some (sec ++ offset ++ answer)
  | .rdVerify sec offset => some (sec ++ offset ++ answer)
  | .scramblerNext | .generatorNext | .setupTimer | .startTimer | .endTimer | .getTimerResult
  | .readFlashID | .switchFlashBank _ | .eraseSector _ | .eraseSectorTimed _
  | .programByte _ _ _ | .programByteTimed _ _ _ | .zeroSector _ | .randomizeSector _
  | .saveResults _ _ _ _ | .runBattery _ | .runFullTest => none

end Sys2Proof
end

