-- ==== Sys2Proof/Machine/State.lean ====
section
/-! DEFINITION. The state of FSTE as plain data: the table of spec/10_state.md R20, the hidden
sequencer state of R38, the chip of R39 (the unconstrained oracle of spec/20_memory.md R60 or the
reference device of R61), the host's moves still to come, and the state after reset (R42). -/

namespace Sys2Proof.Machine

/-! ## Named values -/

/-- TMR_STATE (spec/10_state.md R30). -/
inductive TmrState where
  | idle | armed | running | stopped
  deriving DecidableEq, Repr

/-- GEN[0..3] (spec/10_state.md R25). -/
structure Gen where
  g0 : U32
  g1 : U32
  g2 : U32
  g3 : U32
  deriving DecidableEq, Repr

/-- A record of RESULT (spec/10_state.md R35). -/
structure Record where
  min : U32
  max : U32
  mean : U32
  fail : U32
  deriving DecidableEq, Repr

/-- The six batteries in the order of spec/10_state.md R35. -/
inductive Battery where
  | eraseAfterFF | eraseAfter00 | eraseAfterRandom | programFF | program00 | programRandom
  deriving DecidableEq, Repr

/-- What a conditioning pass puts into a sector: 0x00 (spec/43_conditioning.md R160) or PBUF (R162). -/
inductive Fill where
  | zero | random
  deriving DecidableEq, Repr

/-- What an operation leaves in RES when it returns (spec/10_state.md R21). -/
inductive RetKind where
  /-- no result: RES is unspecified -/
  | none
  /-- the boolean result `ok` -/
  | ok
  /-- the 16-bit FLASHID -/
  | flashId
  deriving DecidableEq, Repr

/-! ## The sequencer (spec/10_state.md R38) -/

/-- One pending step of a running operation, with the values of its rule's local variables. A loop
is one pending step that, when it runs, puts its body and its own successor back in front. -/
inductive Micro where
  /-- a bus cycle, run through `exec` -/
  | cycle (i : Instr)
  /-- `call SetupTimer()` inside a timed primitive -/
  | setupTimer
  | startTimer
  | endTimer
  /-- one turn of `Poll`: the read and the two tests on its byte (spec/42_flash_protocol.md R141) -/
  | poll (sec : BankSector) (offset : Offset) (expected : Byte)
  /-- `if not ok then ABORT` (spec/42_flash_protocol.md R144 to R147) -/
  | abortOnFailure
  /-- `FLASHID <- {d, m}` (spec/42_flash_protocol.md R142) -/
  | latchId
  /-- the loop test of RetryProgram (spec/43_conditioning.md R161) -/
  | retryProgram (sector : Sector) (offset : Offset) (value : Byte)
  /-- the program loop of a pass, at position `off` -/
  | fill (src : Fill) (sector : Sector) (off : Nat)
  /-- the readback loop of a pass, at position `off` -/
  | verify (src : Fill) (sector : Sector) (off : Nat)
  /-- the comparison of one byte read back -/
  | verifyTest (src : Fill) (off : Nat)
  /-- `PBUF[off] <- trunc_8(call GeneratorNext())` for `off` up to 4095 -/
  | drawPbuf (off : Nat)
  /-- the loop test of EraseGate (spec/45_orchestrator.md R184) -/
  | eraseGate (sector : Sector)
  /-- the sector loop of a battery (spec/45_orchestrator.md R181) -/
  | sectorLoop (battery : Battery) (s : Nat)
  /-- `n <- 0` and the sector body -/
  | sectorBody (battery : Battery) (sector : Sector)
  /-- the trial loop of a sector body, with `t` trials done -/
  | trial (battery : Battery) (sector : Sector) (t : Nat)
  /-- the timed program loop of batteries 4 to 6, at position `off` -/
  | programLoop (battery : Battery) (sector : Sector) (off : Nat)
  /-- sample collection after a timed primitive (spec/45_orchestrator.md R182) -/
  | collect
  /-- `call SaveResults(RESULT[battery][s], n, MaxPossible(battery))` -/
  | saveSector (battery : Battery) (sector : Sector)
  /-- the battery loop of RunFullTest (spec/45_orchestrator.md R191) -/
  | batteries (rest : List Battery)
  /-- GeneratorNext after a rejected seeding attempt (spec/40_prng.md R111) -/
  | seedRetry
  /-- the operation returns to the host (spec/30_encoding.md R90) -/
  | ret (kind : RetKind)
  deriving DecidableEq, Repr

/-- The hidden state of a running operation. -/
structure Sequencer where
  /-- the steps that come next, first first -/
  todo : List Micro
  /-- the byte last polled or verified -/
  last : Byte
  /-- the result of the last poll -/
  ok : Bool
  /-- `m`, the first ID byte read -/
  idManuf : Byte
  /-- `d`, the second ID byte read -/
  idDevice : Byte
  /-- `clean` of ZeroSector -/
  clean : Bool
  /-- `matches` of RandomizeSector -/
  matched : Nat
  /-- `n`, the samples of this sector so far -/
  n : Nat
  deriving DecidableEq, Repr

/-- No operation is running (R38, R42; DESIGN CHOICE, log 29). -/
def Sequencer.empty : Sequencer :=
  { todo := [], last := 0, ok := false, idManuf := 0, idDevice := 0, clean := false
    matched := 0, n := 0 }

/-! ## The chip (spec/10_state.md R39) -/

/-- MODE of the reference device (spec/20_memory.md R61). -/
inductive DevMode where
  | array | id
  deriving DecidableEq, Repr

/-- SEQ of the reference device. -/
inductive DevSeq where
  | s0 | s1 | s2 | sBank | sPgm | sEr0 | sEr1 | sEr2
  deriving DecidableEq, Repr

/-- The kind of an operation of the reference device: E or P. -/
inductive DevKind where
  | erase | program
  deriving DecidableEq, Repr

/-- OP of the reference device, when not none. -/
structure DevOp where
  kind : DevKind
  bank : BitVec 1
  addr : U16
  final : Byte
  left : Nat
  fail : Bool
  tog : Bool
  deriving DecidableEq, Repr

/-- The reference device (spec/20_memory.md R61), the spec's own choice, for use as a premise. -/
structure Device where
  /-- MANUF -/
  manuf : Byte
  /-- DEVICE -/
  device : Byte
  /-- the (BusyLen, Fails) draws already chosen, next first -/
  script : List (Nat × Bool)
  /-- after `script`: true, the ideal device of R75; false, free draws -/
  ideal : Bool
  /-- true, the vectors' choice of FreeBits and of the other ID-mode bytes (both 0); false, free draws -/
  quiet : Bool
  /-- ARR[bank][offset] at address bank × 65536 + offset; an unlisted address reads 0xFF (DESIGN CHOICE, log 6) -/
  arr : List Host.Cell
  bank : BitVec 1
  mode : DevMode
  seq : DevSeq
  op : Option DevOp
  deriving DecidableEq, Repr

/-- The environment's chip. -/
inductive Chip where
  /-- R60: every read answers a byte under no law; `answers` are the bytes already chosen, next
  first, and after them each read is a free value of Config -/
  | oracle (answers : List Byte)
  /-- R61 to R75 -/
  | reference (device : Device)
  deriving DecidableEq, Repr

/-- What the chip has seen: bus cycles in the form of spec/30_encoding.md R94 and R99. -/
inductive BusEvent where
  /-- `W off data` -/
  | write (off : U16) (data : Byte)
  /-- `R off -> data` -/
  | read (off : U16) (data : Byte)
  /-- no cycle: the model's note that FSTE was reset from outside here (DESIGN CHOICE, log 18) -/
  | resetHere
  deriving DecidableEq, Repr

/-! ## The host (spec/00_scope.md R7) -/

/-- A register other software of the platform writes between timed primitives (spec/41_timer.md R129). -/
inductive PlatformWrite where
  | tloCnt (v : U16)
  | thiCnt (v : U16)
  | tloCtl (en : Bool)
  | thiCtl (en cascade : Bool)
  | ime (v : Bool)
  deriving DecidableEq, Repr

/-- What the outside does to FSTE. -/
inductive HostMove where
  /-- issue one operation (spec/30_encoding.md R90); waits while an operation runs -/
  | issue (r : Request)
  /-- other software writes a platform register (spec/41_timer.md R129); waits while an operation runs -/
  | platform (w : PlatformWrite)
  /-- let one engine step pass -/
  | wait
  /-- external reset, at this step boundary (spec/70_reset_and_hazards.md R222) -/
  | reset
  deriving DecidableEq, Repr

/-! ## Stops -/

/-- FSTE raises no exception and no fault (spec/60_exceptions.md R200). -/
inductive Fault where
  /-- Raised by sample collection when `n` is at or above SAMP's 40960 entries, an element the spec
  says does not exist (spec/10_state.md R34). Safe: no run reaches it (DEDUCED, log 19). -/
  | noSuchSample
  deriving DecidableEq, Repr

/-- Requests the spec gives no meaning (spec/30_encoding.md R96, R97; spec/60_exceptions.md R205). -/
inductive Refusal where
  /-- Raised by exec for an instruction without a meaning in this model; there is none. Safe. -/
  | notModelled (mnemonic : String)
  /-- Raised by the port for an OPSEL in no row of R92 (R96). Safe. -/
  | unassignedOpsel (opsel : Byte)
  /-- Raised by the port, and by the meanings of SaveResults and RunBattery, for an operand outside
  its range (R97). Safe. -/
  | operandOutOfRange (operand : Operand)
  /-- Raised for 24 bits that are not the named bus cycle (R94); the port never raises it. Safe. -/
  | notThisCycle (row : BusRow)
  /-- Raised for a platform write while TMR_STATE is Armed or Running (V7, R129). Safe. -/
  | timerInUse
  deriving DecidableEq, Repr

/-! ## The state -/

@[ext]
structure State where
  -- PRNG
  /-- SCR -/
  scr : U64
  /-- GEN[0..3] -/
  gen : Gen
  /-- GEN_INIT -/
  genInit : Bool
  -- TMR
  /-- TLO_CNT -/
  tloCnt : U16
  /-- THI_CNT -/
  thiCnt : U16
  /-- TLO_CTL.EN -/
  tloEn : Bool
  /-- THI_CTL.EN -/
  thiEn : Bool
  /-- THI_CTL.CASCADE -/
  thiCascade : Bool
  /-- TMR_STATE -/
  tmrState : TmrState
  /-- IME -/
  ime : Bool
  -- FCP
  /-- FLASHID -/
  flashId : U16
  -- buffers and results: the elements written since reset, by index (DESIGN CHOICE, log 9)
  /-- PBUF -/
  pbuf : List Host.Cell
  /-- SAMP -/
  samp : List (Nat × U32)
  /-- RESULT[b][s] at index 32 × b + s -/
  result : List (Nat × Record)
  -- port
  /-- OPSEL -/
  opsel : Byte
  /-- ARG[0] -/
  arg0 : U32
  /-- ARG[1] -/
  arg1 : U32
  /-- ARG[2] -/
  arg2 : U32
  /-- RES -/
  res : U64
  -- hidden state
  seq : Sequencer
  chip : Chip
  -- the model's own (logs 18, 13, 3, 7)
  /-- the bus cycles the chip has seen, newest first -/
  bus : List BusEvent
  /-- the host's moves still to come, oldest first -/
  host : List HostMove
  /-- how many values the environment has drawn -/
  draws : Nat
  /-- how many external resets there have been -/
  epoch : Nat
  deriving DecidableEq, Repr

/-- The architectural state after the `epoch`-th reset (spec/10_state.md R42, spec/70_reset_and_hazards.md
R220): the values the spec gives, and a free value for every field it leaves unspecified (DESIGN CHOICE, log 7). -/
def State.resetAt (epoch : Nat) : State :=
  { scr := Config.scrSeed
    gen := ⟨Config.genReset epoch 0, Config.genReset epoch 1, Config.genReset epoch 2,
      Config.genReset epoch 3⟩
    genInit := false
    tloCnt := Config.tloCntReset epoch
    thiCnt := Config.thiCntReset epoch
    tloEn := false
    thiEn := false
    thiCascade := false
    tmrState := .idle
    ime := Config.imeReset epoch
    flashId := Config.flashIdReset epoch
    pbuf := []
    samp := []
    result := []
    opsel := Config.opselReset epoch
    arg0 := Config.argReset epoch 0
    arg1 := Config.argReset epoch 1
    arg2 := Config.argReset epoch 2
    res := Config.resReset epoch
    seq := Sequencer.empty
    chip := .oracle []
    bus := []
    host := []
    draws := 0
    epoch := epoch }

/-- The machine right after power-on: R42, with the unconstrained chip of R60 (DESIGN CHOICE, log 4), no bus cycle
seen and no move of the host yet. -/
def State.reset : State := State.resetAt 0

end Sys2Proof.Machine
end

