-- ==== Sys2Proof/Machine/Memory.lean ====
section
/-! DEFINITION. The stores of the model: sparse arrays in one canonical form (indices strictly
rising). PBUF, SAMP and RESULT list the elements written since reset (DESIGN CHOICE, log 9); the array of the
reference device lists the bytes that differ from 0xFF (DESIGN CHOICE, log 6). -/

namespace Sys2Proof.Machine

/-! ## Sparse arrays -/

/-- The element listed at index `a`. -/
def storeRead {α : Type} : List (Nat × α) → Nat → Option α
  | [], _ => none
  | (k, v) :: m, a => if k = a then some v else storeRead m a

/-- Write an element, keeping the indices rising. -/
def storeWrite {α : Type} : List (Nat × α) → Nat → α → List (Nat × α)
  | [], a, v => [(a, v)]
  | (k, w) :: m, a, v =>
    if a < k then (a, v) :: (k, w) :: m
    else if a = k then (a, v) :: m
    else (k, w) :: storeWrite m a v

/-- Every index listed is above `a`. -/
def storeAbove {α : Type} (a : Nat) : List (Nat × α) → Bool
  | [] => true
  | (k, _) :: m => decide (a < k) && storeAbove a m

/-- The canonical form: indices strictly rising. -/
def storeRising {α : Type} : List (Nat × α) → Bool
  | [] => true
  | (k, _) :: m => storeAbove k m && storeRising m

/-! ## The byte array of the reference device (spec/20_memory.md R61) -/

/-- Bytes by address bank × 65536 + offset. -/
abbrev Memory := List Host.Cell

/-- What an unlisted address reads as: an erased byte (DESIGN CHOICE, log 6). -/
def Memory.unlisted : Byte := Params.erased

/-- The byte at an address. -/
def Memory.read (m : Memory) (a : Nat) : Byte := (storeRead m a).getD Memory.unlisted

/-- Write a byte; the unlisted value is not listed. -/
def Memory.write (m : Memory) (a : Nat) (v : Byte) : Memory :=
  if v = Memory.unlisted then m.filter fun c => c.1 != a else storeWrite m a v

/-- Erase a sector: 4096 bytes from `base` become 0xFF, that is, are listed no more (R72). -/
def Memory.eraseSector (m : Memory) (base : Nat) : Memory :=
  m.filter fun c => decide (c.1 < base) || decide (base + Params.sectorSize ≤ c.1)

/-- The canonical form: addresses rising and inside the two banks, no entry the unlisted value. -/
def Memory.wf (m : Memory) : Bool :=
  storeRising m &&
    m.all fun c => c.2 != Memory.unlisted && decide (c.1 < Params.numBanks * Params.windowSize)

/-- The address of an offset of a bank. -/
def cellAddr (bank : BitVec 1) (off : U16) : Nat := bank.toNat * Params.windowSize + off.toNat

end Sys2Proof.Machine
end

