-- ==== Sys2Proof/Machine/Chip.lean ====
section
/-! DEFINITION. The environment's chip: the unconstrained oracle of spec/20_memory.md R60 and the
reference device of R61 to R75. `n` is the number of values drawn so far; each function returns it
advanced by its own draws. -/

namespace Sys2Proof.Machine

/-! ## Device reset (R61) -/

/-- BANK = 0, MODE = Array, SEQ = S0, OP = none; the array, the parameters and the draws stay. No reset of
FSTE does this (spec/70_reset_and_hazards.md R221). -/
def Device.reset (d : Device) : Device :=
  { d with bank := 0, mode := .array, seq := .s0, op := none }

/-- Power-on of the whole system with the reference device as the chip: a premise a claim may name
(spec/70_reset_and_hazards.md R221; DESIGN CHOICE, log 5). -/
def State.resetWith (d : Device) : State := { State.reset with chip := .reference d.reset }

/-! ## Draws of the reference device (R61, R73, R75) -/

/-- The busy length and failure drawn when an erase or a program starts. -/
structure StartDraw where
  busy : Nat
  fails : Bool
  device : Device
  draws : Nat

/-- BusyLen and Fails of R61: from the script, then 0 and false on the ideal device (R75), else free. -/
def Device.drawStart (d : Device) (n : Nat) : StartDraw :=
  match d.script with
  | (busy, fails) :: rest => ⟨busy, fails, { d with script := rest }, n⟩
  | [] => if d.ideal then ⟨0, false, d, n⟩ else ⟨Config.busyLen n, Config.fails n, d, n + 1⟩

/-! ## Writes (R62 to R69) -/

/-- SEQ = SPGM (R66): the program starts; ARR is not changed yet. -/
def Device.startProgram (d : Device) (off : U16) (v : Byte) (n : Nat) : Device × Nat :=
  let draw := d.drawStart n
  let final := Memory.read d.arr (cellAddr d.bank off) &&& v
  ({ draw.device with
      seq := .s0
      op := some
        { kind := .program, bank := d.bank, addr := off, final := final, left := draw.busy
          fail := decide (final ≠ v) || draw.fails, tog := false } }, draw.draws)

/-- SEQ = SER2 with data 0x30 (R68): the sector erase starts. -/
def Device.startErase (d : Device) (off : U16) (n : Nat) : Device × Nat :=
  let draw := d.drawStart n
  ({ draw.device with
      seq := .s0
      op := some
        { kind := .erase, bank := d.bank, addr := off &&& 0xF000, final := Params.erased
          left := draw.busy, fail := draw.fails, tog := false } }, draw.draws)

/-- A write in SEQ = S2, unlocked (R64). -/
def Device.writeUnlocked (d : Device) (off : U16) (v : Byte) : Device :=
  if off = Params.commandOff then
    if v = Params.idEntryByte then { d with seq := .s0, mode := .id }
    else if v = Params.idExitByte then { d with seq := .s0, mode := .array }
    else if v = Params.bankByte then { d with seq := .sBank }
    else if v = Params.eraseSetupByte then { d with seq := .sEr0 }
    else if v = Params.programByte then { d with seq := .sPgm }
    else { d with seq := .s0 }
  else { d with seq := .s0 }

/-- A write while an operation is in progress (R69): only the abort of a failed one acts. -/
def Device.writeBusy (d : Device) (op : DevOp) (v : Byte) : Device :=
  if op.left = 0 ∧ op.fail = true ∧ v = Params.abortByte then
    { d with op := none, seq := .s0, mode := .array }
  else d

/-- One write cycle at the device (R62 to R69). -/
def Device.write (d : Device) (off : U16) (v : Byte) (n : Nat) : Device × Nat :=
  match d.op with
  | some op => (d.writeBusy op v, n)
  | none =>
    match d.seq with
    | .s0 =>
      if off = Params.unlock1Off ∧ v = Params.unlock1Data then ({ d with seq := .s1 }, n)
      else if v = Params.abortByte then ({ d with mode := .array }, n)
      else (d, n)
    | .s1 =>
      if off = Params.unlock2Off ∧ v = Params.unlock2Data then ({ d with seq := .s2 }, n)
      else if v = Params.abortByte then ({ d with seq := .s0, mode := .array }, n)
      else ({ d with seq := .s0 }, n)
    | .s2 => (d.writeUnlocked off v, n)
    | .sBank =>
      if off = Params.bankOff then ({ d with seq := .s0, bank := v.extractLsb' 0 1 }, n)
      else ({ d with seq := .s0 }, n)
    | .sPgm => d.startProgram off v n
    | .sEr0 =>
      if off = Params.unlock1Off ∧ v = Params.unlock1Data then ({ d with seq := .sEr1 }, n)
      else ({ d with seq := .s0 }, n)
    | .sEr1 =>
      if off = Params.unlock2Off ∧ v = Params.unlock2Data then ({ d with seq := .sEr2 }, n)
      else ({ d with seq := .s0 }, n)
    | .sEr2 => if v = Params.eraseConfirmByte then d.startErase off n else ({ d with seq := .s0 }, n)

/-! ## Reads (R70 to R74) -/

/-- `{not final[7], tog, failing, FreeBits[4:0]}` (R70, R71). -/
def statusByte (final : Byte) (tog failing : Bool) (free : Byte) : Byte :=
  (if final.getLsbD 7 then 0 else 0x80) ||| (if tog then 0x40 else 0) |||
    (if failing then Params.statusFailMask else 0) ||| (free &&& 0x1F)

/-- What a read gives back: the byte, and the chip and the number of draws after it. -/
structure Answer (χ : Type) where
  byte : Byte
  chip : χ
  draws : Nat

/-- A read while OP is busy or failed (R70, R71). -/
def Device.answerStatus (d : Device) (op : DevOp) (failing : Bool) (n : Nat) : Answer Device :=
  if d.quiet then ⟨statusByte op.final op.tog failing 0, { d with op := some op }, n⟩
  else ⟨statusByte op.final op.tog failing (Config.freeBits n), { d with op := some op }, n + 1⟩

/-- A read with OP = none (R73, R74). -/
def Device.answerIdle (d : Device) (off : U16) (n : Nat) : Answer Device :=
  match d.mode with
  | .array => ⟨Memory.read d.arr (cellAddr d.bank off), d, n⟩
  | .id =>
    if off = Params.idOffManuf then ⟨d.manuf, d, n⟩
    else if off = Params.idOffDevice then ⟨d.device, d, n⟩
    else if d.quiet then ⟨0, d, n⟩
    else ⟨Config.idModeByte n, d, n + 1⟩

/-- The commit of a successful operation (R72). -/
def Device.commit (d : Device) (op : DevOp) : Device :=
  match op.kind with
  | .program => { d with op := none, arr := Memory.write d.arr (cellAddr op.bank op.addr) op.final }
  | .erase => { d with op := none, arr := Memory.eraseSector d.arr (cellAddr op.bank op.addr) }

/-- One read cycle at the device (R70 to R74). -/
def Device.read (d : Device) (off : U16) (n : Nat) : Answer Device :=
  match d.op with
  | none => d.answerIdle off n
  | some op =>
    if 0 < op.left then d.answerStatus { op with left := op.left - 1, tog := !op.tog } false n
    else if op.fail then d.answerStatus { op with tog := !op.tog } true n
    else (d.commit op).answerIdle off n

/-! ## The chip -/

/-- One write cycle (spec/20_memory.md R52). The oracle has nothing to change. -/
def Chip.write (c : Chip) (off : U16) (v : Byte) (n : Nat) : Chip × Nat :=
  match c with
  | .oracle answers => (.oracle answers, n)
  | .reference d => (.reference (d.write off v n).1, (d.write off v n).2)

/-- One read cycle. The oracle answers the next byte chosen, else a free value (R60, DESIGN CHOICE, log 4). -/
def Chip.read (c : Chip) (off : U16) (n : Nat) : Answer Chip :=
  match c with
  | .oracle (b :: answers) => ⟨b, .oracle answers, n⟩
  | .oracle [] => ⟨Config.chipByte n, .oracle [], n + 1⟩
  | .reference d => ⟨(d.read off n).byte, .reference (d.read off n).chip, (d.read off n).draws⟩

end Sys2Proof.Machine
end

