-- ==== Sys2Proof/Machine/Ops.lean ====
section
/-! DEFINITION. The named operations over the state: draws, time, the two bus primitives, the
buffers, RES and the sequencer, external reset, and what other software and the host may do. FSTE
takes no exception and returns from none (spec/60_exceptions.md R200); external reset is the one
way out of a running operation (R203). -/

namespace Sys2Proof.Machine

/-! ## Time (spec/00_scope.md R15, spec/41_timer.md R124) -/

/-- The counters after `c` clock cycles (R124). The high counter counts only overflows of the low
one, and only while its EN and CASCADE are 1 (DEDUCED, log 17). -/
def State.advanceCounters (s : State) (c : Nat) : State :=
  if s.tloEn then
    { s with
      tloCnt := BitVec.ofNat 16 (s.tloCnt.toNat + c)
      thiCnt :=
        if s.thiEn && s.thiCascade then
          s.thiCnt + BitVec.ofNat 16 ((s.tloCnt.toNat + c) / 65536)
        else s.thiCnt }
  else s

/-- One value has been drawn (DESIGN CHOICE, log 3). -/
def State.drawn (s : State) : State := { s with draws := s.draws + 1 }

/-- `Tick()`: the environment draws CycleCost and the counters advance by it (R15). -/
def State.tick (s : State) : State := (s.advanceCounters (Config.cycleCost s.draws)).drawn

/-! ## Bus primitives (spec/20_memory.md R52) -/

/-- `MemWrite(FLASH:off, 1, v)`: the chip sees the cycle; one Tick. -/
def State.busWrite (s : State) (off : U16) (v : Byte) : State :=
  State.tick
    { s with
      chip := (s.chip.write off v s.draws).1
      draws := (s.chip.write off v s.draws).2
      bus := .write off v :: s.bus }

/-- The byte the chip answers to `MemRead(FLASH:off, 1)`. -/
def State.busByte (s : State) (off : U16) : Byte := (s.chip.read off s.draws).byte

/-- `MemRead(FLASH:off, 1)`: the chip sees the cycle and answers `busByte`; one Tick. -/
def State.busRead (s : State) (off : U16) : State :=
  State.tick
    { s with
      chip := (s.chip.read off s.draws).chip
      draws := (s.chip.read off s.draws).draws
      bus := .read off (s.busByte off) :: s.bus }

/-! ## Buffers and results (spec/10_state.md R33 to R35; DESIGN CHOICE, log 9) -/

/-- PBUF[i]; not written since reset, a free value. -/
def State.pbufRead (s : State) (i : Nat) : Byte :=
  (storeRead s.pbuf i).getD (Config.pbufReset s.epoch i)

def State.pbufWrite (s : State) (i : Nat) (v : Byte) : State :=
  { s with pbuf := storeWrite s.pbuf i v }

/-- SAMP[i]; not written since reset, a free value. -/
def State.sampRead (s : State) (i : Nat) : U32 :=
  (storeRead s.samp i).getD (Config.sampReset s.epoch i)

def State.sampWrite (s : State) (i : Nat) (v : U32) : State :=
  { s with samp := storeWrite s.samp i v }

/-- The index of a battery (spec/10_state.md R35). -/
def Battery.index : Battery → Nat
  | .eraseAfterFF => 0
  | .eraseAfter00 => 1
  | .eraseAfterRandom => 2
  | .programFF => 3
  | .program00 => 4
  | .programRandom => 5

/-- Where RESULT[b][s] is listed. -/
def resultIndex (b : Battery) (sector : Sector) : Nat :=
  b.index * Params.numSectors + sector.toNat

/-- RESULT[b][s]; not written since reset, a free value in each field. -/
def State.resultRead (s : State) (b : Battery) (sector : Sector) : Record :=
  (storeRead s.result (resultIndex b sector)).getD
    ⟨Config.resultReset s.epoch (resultIndex b sector) 0,
     Config.resultReset s.epoch (resultIndex b sector) 1,
     Config.resultReset s.epoch (resultIndex b sector) 2,
     Config.resultReset s.epoch (resultIndex b sector) 3⟩

def State.resultWrite (s : State) (b : Battery) (sector : Sector) (r : Record) : State :=
  { s with result := storeWrite s.result (resultIndex b sector) r }

/-- `RESULT[b][s] <- {0, 0, 0, 0}` for all b and s (spec/45_orchestrator.md R191). -/
def State.resultClear (s : State) : State :=
  { s with
    result :=
      (List.range (Params.numBatteries * Params.numSectors)).map fun i => (i, ⟨0, 0, 0, 0⟩) }

/-! ## The result register and the sequencer -/

/-- `RES <- v`. -/
def State.setRes (s : State) (v : U64) : State := { s with res := v }

/-- An operation with no result leaves RES unspecified: a free value (spec/10_state.md R21, DESIGN CHOICE, log 10). -/
def State.unspecifyRes (s : State) : State :=
  { s with res := Config.unspecifiedRes s.draws, draws := s.draws + 1 }

/-- The same state with other steps pending. -/
def State.withTodo (s : State) (l : List Micro) : State := { s with seq := { s.seq with todo := l } }

/-- Put steps in front of those pending. -/
def State.push (s : State) (l : List Micro) : State := s.withTodo (l ++ s.seq.todo)

/-- An operation loads its steps: an internal step of the engine, with its Tick (spec/00_scope.md R15). -/
def State.load (s : State) (l : List Micro) : State := (s.push l).tick

/-- The result of a poll. -/
def State.setOk (s : State) (b : Bool) : State := { s with seq := { s.seq with ok := b } }

/-- The byte last polled or verified. -/
def State.setLast (s : State) (b : Byte) : State := { s with seq := { s.seq with last := b } }

/-- No operation runs any more (spec/10_state.md R38). -/
def State.clearSeq (s : State) : State := { s with seq := Sequencer.empty }

/-- A boolean result is 1 or 0 (spec/10_state.md R21). -/
def boolRes (b : Bool) : U64 := if b then 1 else 0

/-- The operation returns: RES as R21 says, and the sequencer empty. -/
def State.finish (s : State) : RetKind → State
  | .none => s.unspecifyRes.clearSeq
  | .ok => (s.setRes (boolRes s.seq.ok)).clearSeq
  | .flashId => (s.setRes (s.flashId.setWidth 64)).clearSeq

/-! ## External reset (spec/70_reset_and_hazards.md R220 to R222) -/

/-- The running operation is discarded and the architectural state takes the values of R220; the
chip stays as it is (R221). -/
def State.externalReset (s : State) : State :=
  { State.resetAt (s.epoch + 1) with
    chip := s.chip
    bus := .resetHere :: s.bus
    host := s.host
    draws := s.draws }

/-! ## The platform and the host -/

/-- Whether FSTE owns the counter pair and IME (spec/41_timer.md R129). -/
def State.timerOwned (s : State) : Bool :=
  match s.tmrState with
  | .armed | .running => true
  | .idle | .stopped => false

/-- Other software of the platform writes one register (R129; DESIGN CHOICE, log 15). -/
def State.platformWrite (s : State) : PlatformWrite → State
  | .tloCnt v => { s with tloCnt := v }
  | .thiCnt v => { s with thiCnt := v }
  | .tloCtl en => { s with tloEn := en }
  | .thiCtl en cascade => { s with thiEn := en, thiCascade := cascade }
  | .ime v => { s with ime := v }

/-- Whether an operation is running (R213: it is either running one or waiting for the host). -/
def State.busy (s : State) : Bool := !s.seq.todo.isEmpty

/-- What the host reads of RESULT: nothing while an operation runs (R41, R231, V6). -/
def State.hostResult (s : State) (b : Battery) (sector : Sector) : Option Record :=
  if s.busy then none else some (s.resultRead b sector)

/-- What the host reads of FLASHID: nothing while an operation runs (R41, R231, V6). -/
def State.hostFlashId (s : State) : Option U16 := if s.busy then none else some s.flashId

/-- OPSEL and ARG as the host presents them (R90). -/
def State.present (s : State) (r : Request) : State :=
  { s with opsel := r.opsel, arg0 := r.arg0, arg1 := r.arg1, arg2 := r.arg2 }

end Sys2Proof.Machine
end

