-- ==== Sys2Proof/Machine/Operands.lean ====
section
/-! DEFINITION. Operand assembly (spec/30_encoding.md R93): window addresses from a sector and an
offset, and the battery an index names. -/

namespace Sys2Proof.Machine

/-- `sector mod 16`, the sector-in-bank number (spec/10_state.md R37). -/
def sectorInBank (sector : Sector) : BankSector := sector.setWidth 4

/-- `sector div 16`, the bank of a sector (spec/10_state.md R37). -/
def bankOf (sector : Sector) : BitVec 1 := sector.extractLsb' 4 1

/-- The window offset of a byte of a sector of the active bank: `(sec <<_16 12) or offset`. -/
def windowAddr (sec : BankSector) (offset : Offset) : U16 :=
  (sec.setWidth 16 <<< 12) ||| offset.setWidth 16

/-- `ByteAddr(sector, offset)` of spec/20_memory.md R51: only `sector mod 16` enters (R93 a). -/
def byteAddr (sector : Sector) (offset : Offset) : U16 := windowAddr (sectorInBank sector) offset

/-- `SectorBase(sector)` of spec/20_memory.md R51. -/
def sectorBase (sector : Sector) : U16 := byteAddr sector 0

/-- The battery of an index 0..5 (R93 c); the spec refuses the others (R97). -/
def batteryOf (battery : BitVec 3) : Option Battery :=
  match battery.toNat with
  | 0 => some .eraseAfterFF
  | 1 => some .eraseAfter00
  | 2 => some .eraseAfterRandom
  | 3 => some .programFF
  | 4 => some .program00
  | 5 => some .programRandom
  | _ => none

end Sys2Proof.Machine
end

