-- ==== Sys2Proof/Machine/Flags.lean ====
section
/-! DEFINITION. FSTE has no flags (spec/10_state.md R23); the conditions that steer it (spec/30_encoding.md
R101) are computed here: the two tests of a poll, and the tests of the conditioning passes. -/

namespace Sys2Proof.Machine

/-- `poll_status()` of spec/00_scope.md R19. -/
inductive PollStatus where
  | completed | failed | pending
  deriving DecidableEq, Repr

/-- The two tests of spec/42_flash_protocol.md R141, completion first (spec/60_exceptions.md R206). -/
def pollStatus (expected b : Byte) : PollStatus :=
  if b = expected then .completed
  else if b &&& Params.statusFailMask ≠ 0 then .failed
  else .pending

/-- The byte a conditioning pass puts at a position: 0x00 (spec/43_conditioning.md R160) or the
buffered byte (R162). -/
def State.fillByte (s : State) (src : Fill) (off : Nat) : Byte :=
  match src with
  | .zero => 0x00
  | .random => s.pbufRead off

/-- `clean <- true`, or `matches <- 0`, before a readback. -/
def State.startVerify (s : State) (src : Fill) : State :=
  match src with
  | .zero => { s with seq := { s.seq with clean := true } }
  | .random => { s with seq := { s.seq with matched := 0 } }

/-- `if b ≠ 0x00 then clean <- false`, or `if b = PBUF[off] then matches <- matches + 1`. -/
def State.verifyByte (s : State) (src : Fill) (off : Nat) : State :=
  match src with
  | .zero => if s.seq.last = 0x00 then s else { s with seq := { s.seq with clean := false } }
  | .random =>
    if s.seq.last = s.pbufRead off then { s with seq := { s.seq with matched := s.seq.matched + 1 } }
    else s

/-- `until clean`, or `until matches = 4096`. -/
def State.passDone (s : State) (src : Fill) : Bool :=
  match src with
  | .zero => s.seq.clean
  | .random => s.seq.matched == Params.sectorSize

end Sys2Proof.Machine
end

