-- ==== Sys2Proof/Machine/Bus.lean ====
section
/-! DEFINITION. The fifteen bus cycles (spec/30_encoding.md R94): each is one MemWrite or MemRead of
spec/20_memory.md R52. A read leaves the byte the chip answers where the running operation uses it. -/

namespace Sys2Proof.Machine

/-- UNLOCK1: `W 5555 AA`. -/
def execUnlock1 (s : State) : Host.Outcome State Fault Refusal :=
  .next (s.busWrite Params.unlock1Off Params.unlock1Data)

/-- UNLOCK2: `W 2AAA 55`. -/
def execUnlock2 (s : State) : Host.Outcome State Fault Refusal :=
  .next (s.busWrite Params.unlock2Off Params.unlock2Data)

/-- CMD_ID_ENTRY: `W 5555 90`. -/
def execCmdIdEntry (s : State) : Host.Outcome State Fault Refusal :=
  .next (s.busWrite Params.commandOff Params.idEntryByte)

/-- CMD_ID_EXIT: `W 5555 F0`. -/
def execCmdIdExit (s : State) : Host.Outcome State Fault Refusal :=
  .next (s.busWrite Params.commandOff Params.idExitByte)

/-- CMD_BANK: `W 5555 B0`. -/
def execCmdBank (s : State) : Host.Outcome State Fault Refusal :=
  .next (s.busWrite Params.commandOff Params.bankByte)

/-- BANK_DATA: `W 0000 bank`. -/
def execBankData (bank : BitVec 1) (s : State) : Host.Outcome State Fault Refusal :=
  .next (s.busWrite Params.bankOff (bank.setWidth 8))

/-- CMD_ERASE_SETUP: `W 5555 80`. -/
def execCmdEraseSetup (s : State) : Host.Outcome State Fault Refusal :=
  .next (s.busWrite Params.commandOff Params.eraseSetupByte)

/-- SECTOR_ERASE: `W s000 30`. -/
def execSectorErase (sec : BankSector) (s : State) : Host.Outcome State Fault Refusal :=
  .next (s.busWrite (windowAddr sec 0) Params.eraseConfirmByte)

/-- CMD_PROGRAM: `W 5555 A0`. -/
def execCmdProgram (s : State) : Host.Outcome State Fault Refusal :=
  .next (s.busWrite Params.commandOff Params.programByte)

/-- PROGRAM_DATA: `W sooo vv`. -/
def execProgramData (sec : BankSector) (offset : Offset) (value : Byte) (s : State) :
    Host.Outcome State Fault Refusal :=
  .next (s.busWrite (windowAddr sec offset) value)

/-- ABORT: `W 5555 F0`, with no unlock before it. -/
def execAbort (s : State) : Host.Outcome State Fault Refusal :=
  .next (s.busWrite Params.resetOff Params.abortByte)

/-- RD_ID0: `R 0000`, the manufacturer byte `m` (spec/42_flash_protocol.md R142). -/
def execRdId0 (s : State) : Host.Outcome State Fault Refusal :=
  .next
    { s.busRead Params.idOffManuf with seq := { s.seq with idManuf := s.busByte Params.idOffManuf } }

/-- RD_ID1: `R 0001`, the device byte `d` (spec/42_flash_protocol.md R142). -/
def execRdId1 (s : State) : Host.Outcome State Fault Refusal :=
  .next
    { s.busRead Params.idOffDevice with
      seq := { s.seq with idDevice := s.busByte Params.idOffDevice } }

/-- RD_POLL: `R sooo`, the byte the two tests of Poll look at next (spec/42_flash_protocol.md R141). -/
def execRdPoll (sec : BankSector) (offset : Offset) (s : State) :
    Host.Outcome State Fault Refusal :=
  .next ((s.busRead (windowAddr sec offset)).setLast (s.busByte (windowAddr sec offset)))

/-- RD_VERIFY: `R sooo`, the byte a readback compares next (spec/43_conditioning.md R160, R162). -/
def execRdVerify (sec : BankSector) (offset : Offset) (s : State) :
    Host.Outcome State Fault Refusal :=
  .next ((s.busRead (windowAddr sec offset)).setLast (s.busByte (windowAddr sec offset)))

end Sys2Proof.Machine
end

