-- ==== Sys2Proof/Machine/Fcp.lean ====
section
/-! DEFINITION. The FCP unit: ReadFlashID, SwitchFlashBank, EraseSector(Timed), ProgramByte(Timed)
(spec/42_flash_protocol.md R140 to R151). An operation loads the sequencer with its rule's steps in
order (spec/30_encoding.md R95); the steps then run one at a time (DEDUCED, log 1). -/

namespace Sys2Proof.Machine

/-- `UNLOCK()` (R140). -/
def unlockSteps : List Micro := [.cycle .unlock1, .cycle .unlock2]

/-- One turn of `Poll(addr, expected)` (R141): the read with the two tests on its byte is one engine step,
which spec/41_timer.md R128 leaves open and spec/95_test_vectors.md V-T4 counts so (log 2). -/
def pollSteps (sec : BankSector) (offset : Offset) (expected : Byte) : List Micro :=
  [.poll sec offset expected]

/-- ReadFlashID (R142). -/
def readIdSteps : List Micro :=
  unlockSteps ++ [.cycle .cmdIdEntry, .cycle .rdId0, .cycle .rdId1] ++ unlockSteps ++
    [.cycle .cmdIdExit, .latchId]

/-- SwitchFlashBank (R143). -/
def switchBankSteps (bank : BitVec 1) : List Micro :=
  unlockSteps ++ [.cycle .cmdBank, .cycle (.bankData bank)]

/-- EraseSector (R144). -/
def eraseSteps (sector : Sector) : List Micro :=
  unlockSteps ++ [.cycle .cmdEraseSetup] ++ unlockSteps ++
    [.cycle (.sectorErase (sectorInBank sector))] ++
    pollSteps (sectorInBank sector) 0 Params.erased ++ [.abortOnFailure]

/-- EraseSectorTimed (R145): the cycles of R144, SetupTimer first, StartTimer just before the one
timed write, EndTimer after the poll and before the abort. -/
def eraseTimedSteps (sector : Sector) : List Micro :=
  [.setupTimer] ++ unlockSteps ++ [.cycle .cmdEraseSetup] ++ unlockSteps ++
    [.startTimer, .cycle (.sectorErase (sectorInBank sector))] ++
    pollSteps (sectorInBank sector) 0 Params.erased ++ [.endTimer, .abortOnFailure]

/-- ProgramByte (R146). -/
def programSteps (sector : Sector) (offset : Offset) (value : Byte) : List Micro :=
  unlockSteps ++ [.cycle .cmdProgram, .cycle (.programData (sectorInBank sector) offset value)] ++
    pollSteps (sectorInBank sector) offset value ++ [.abortOnFailure]

/-- ProgramByteTimed (R147). -/
def programTimedSteps (sector : Sector) (offset : Offset) (value : Byte) : List Micro :=
  [.setupTimer] ++ unlockSteps ++
    [.cycle .cmdProgram, .startTimer, .cycle (.programData (sectorInBank sector) offset value)] ++
    pollSteps (sectorInBank sector) offset value ++ [.endTimer, .abortOnFailure]

/-! ## The steps between the cycles -/

/-- The two tests of `Poll` on the byte just read, or another turn (R141). -/
def State.runPollTest (s : State) (sec : BankSector) (offset : Offset) (expected : Byte) : State :=
  match pollStatus expected s.seq.last with
  | .completed => s.setOk true
  | .failed => s.setOk false
  | .pending => s.push (pollSteps sec offset expected)

/-- `if not ok then MemWrite(FLASH:0x5555, 1, 0xF0)` (R144 to R147). -/
def State.runAbortOnFailure (s : State) : State := if s.seq.ok then s else s.push [.cycle .abort]

/-- `FLASHID <- {d, m}` (R142). -/
def State.runLatchId (s : State) : State := { s with flashId := s.seq.idDevice ++ s.seq.idManuf }

/-! ## The operations -/

/-- `ReadFlashID() -> u16` (R142). -/
def execReadFlashID (s : State) : Host.Outcome State Fault Refusal :=
  .next (s.load (readIdSteps ++ [.ret .flashId]))

/-- `SwitchFlashBank(bank)` (R143). -/
def execSwitchFlashBank (bank : BitVec 1) (s : State) : Host.Outcome State Fault Refusal :=
  .next (s.load (switchBankSteps bank ++ [.ret .none]))

/-- `EraseSector(sector) -> bool` (R144). -/
def execEraseSector (sector : Sector) (s : State) : Host.Outcome State Fault Refusal :=
  .next (s.load (eraseSteps sector ++ [.ret .ok]))

/-- `EraseSectorTimed(sector) -> bool` (R145). -/
def execEraseSectorTimed (sector : Sector) (s : State) : Host.Outcome State Fault Refusal :=
  .next (s.load (eraseTimedSteps sector ++ [.ret .ok]))

/-- `ProgramByte(sector, offset, value) -> bool` (R146). -/
def execProgramByte (sector : Sector) (offset : Offset) (value : Byte) (s : State) :
    Host.Outcome State Fault Refusal :=
  .next (s.load (programSteps sector offset value ++ [.ret .ok]))

/-- `ProgramByteTimed(sector, offset, value) -> bool` (R147). -/
def execProgramByteTimed (sector : Sector) (offset : Offset) (value : Byte) (s : State) :
    Host.Outcome State Fault Refusal :=
  .next (s.load (programTimedSteps sector offset value ++ [.ret .ok]))

end Sys2Proof.Machine
end

