-- ==== Sys2Proof/Machine/Prng.lean ====
section
/-! DEFINITION. The PRNG unit: ScramblerNext and GeneratorNext (spec/40_prng.md R110 to R114). The
constants are named parameters (UNVERIFIED, log 20). -/

namespace Sys2Proof.Machine

/-- `rotl32` of spec/00_scope.md R11. -/
def rotl32 (x : U32) (k : Nat) : U32 := (x <<< k) ||| (x >>> (32 - k))

/-- The two mixing rounds and the final xor-shift (R110). -/
def scrMix (z : U64) : U64 :=
  let z := (z ^^^ (z >>> Params.scrS1)) * Params.scrM1
  let z := (z ^^^ (z >>> Params.scrS2)) * Params.scrM2
  z ^^^ (z >>> Params.scrS3)

/-- `SCR <- SCR +_64 SCR_INC`: SCR keeps the advanced, unmixed value (R110). The constant stands on the
left so that Lean's kernel never counts it down. -/
def State.scramble (s : State) : State := { s with scr := Params.scrInc + s.scr }

/-- What ScramblerNext returns, computed from the SCR it has just advanced (R110). -/
def State.scrOut (s : State) : U64 := scrMix s.scr

/-- The output, from the state before it advances (R112). -/
def genOutput (g : Gen) : U32 := rotl32 (g.g0 + g.g3) Params.genR1 + g.g0

/-- The six assignments in order, each seeing those before it (R112). -/
def genAdvance (g : Gen) : Gen :=
  let t := g.g1 <<< Params.genSh
  let g2 := g.g2 ^^^ g.g0
  let g3 := g.g3 ^^^ g.g1
  let g1 := g.g1 ^^^ g2
  let g0 := g.g0 ^^^ g3
  { g0 := g0, g1 := g1, g2 := g2 ^^^ t, g3 := rotl32 g3 Params.genR2 }

/-- Not the all-zero state (R111). -/
def Gen.nonzero (g : Gen) : Bool := g.g0 ||| g.g1 ||| g.g2 ||| g.g3 != 0

/-- One seeding attempt: four ScramblerNext calls fill GEN in order, and GEN_INIT is set unless all
four words are zero (R111). -/
def State.seedAttempt (s : State) : State :=
  let s1 := s.scramble
  let s2 := s1.scramble
  let s3 := s2.scramble
  let s4 := s3.scramble
  let g : Gen := ⟨s1.scrOut.setWidth 32, s2.scrOut.setWidth 32, s3.scrOut.setWidth 32,
    s4.scrOut.setWidth 32⟩
  { s4 with gen := g, genInit := g.nonzero }

/-- GeneratorNext up to its first line: one seeding attempt while GEN_INIT = 0 (R111, R112). -/
def State.seeded (s : State) : State := if s.genInit then s else s.seedAttempt

/-- The generator advances (R112). -/
def State.genStep (s : State) : State := { s with gen := genAdvance s.gen }

/-- `trunc_8` of a generator output (R113). -/
def genByte (g : Gen) : Byte := (genOutput g).setWidth 8

/-- `ScramblerNext() -> u64` (R110): one engine step, with its Tick (spec/00_scope.md R15). -/
def execScramblerNext (s : State) : Host.Outcome State Fault Refusal :=
  .next (s.scramble.setRes s.scramble.scrOut).tick

/-- The body of GeneratorNext on a seeded state: the output goes to RES, then GEN advances. -/
def State.generatorReturn (s : State) : State :=
  s.genStep.setRes ((genOutput s.gen).setWidth 64)

/-- `GeneratorNext() -> u32` (R112). A rejected seeding attempt is repeated at the next step (R111);
each attempt is one engine step, with its Tick (spec/00_scope.md R15). -/
def execGeneratorNext (s : State) : Host.Outcome State Fault Refusal :=
  .next (if s.seeded.genInit then s.seeded.generatorReturn else s.seeded.push [.seedRetry]).tick

/-- GeneratorNext goes on after a rejected seeding attempt (R111). -/
def State.runSeedRetry (s : State) : State :=
  if s.seeded.genInit then s.seeded.generatorReturn.clearSeq else s.seeded.push [.seedRetry]

/-- `PBUF[off] <- trunc_8(call GeneratorNext())` for the offsets from `off` to 4095, one call a step
(spec/43_conditioning.md R162, spec/45_orchestrator.md R190). -/
def State.runDrawPbuf (s : State) (off : Nat) : State :=
  if off < Params.sectorSize then
    if s.seeded.genInit then
      (s.seeded.genStep.pbufWrite off (genByte s.seeded.gen)).push [.drawPbuf (off + 1)]
    else s.seeded.push [.drawPbuf off]
  else s

end Sys2Proof.Machine
end

