-- ==== Sys2Proof/Machine/Cond.lean ====
section
/-! DEFINITION. The COND unit: ZeroSector and RandomizeSector (spec/43_conditioning.md R160 to R164).
A pass programs the 4096 bytes of the sector with retries and reads them all back; passes repeat
until the readback is clean. Every loop is unbounded (D30). -/

namespace Sys2Proof.Machine

/-- One `call ProgramByte` of RetryProgram, with the loop test after it (R161). -/
def retrySteps (sector : Sector) (offset : Offset) (value : Byte) : List Micro :=
  programSteps sector offset value ++ [.retryProgram sector offset value]

/-- `while not (call ProgramByte(...)) do end` after one call (R161). -/
def State.runRetryProgram (s : State) (sector : Sector) (offset : Offset) (value : Byte) : State :=
  if s.seq.ok then s else s.push (retrySteps sector offset value)

/-- The program loop of a pass at `off`, ascending; after it the readback starts (R160, R162, D23). -/
def State.runFill (s : State) (src : Fill) (sector : Sector) (off : Nat) : State :=
  if off < Params.sectorSize then
    s.push (retrySteps sector (BitVec.ofNat 12 off) (s.fillByte src off) ++
      [.fill src sector (off + 1)])
  else (s.startVerify src).push [.verify src sector 0]

/-- The readback loop at `off`: all 4096 bytes, no early exit; after it the pass repeats unless it was
clean (R160, R162, D23). -/
def State.runVerify (s : State) (src : Fill) (sector : Sector) (off : Nat) : State :=
  if off < Params.sectorSize then
    s.push [.cycle (.rdVerify (sectorInBank sector) (BitVec.ofNat 12 off)), .verifyTest src off,
      .verify src sector (off + 1)]
  else if s.passDone src then s
  else s.push [.fill src sector 0]

/-- ZeroSector (R160). -/
def zeroSteps (sector : Sector) : List Micro := [.fill .zero sector 0]

/-- RandomizeSector (R162): all 4096 draws come first, and a repeated pass does not redraw. -/
def randomizeSteps (sector : Sector) : List Micro := [.drawPbuf 0, .fill .random sector 0]

/-- `ZeroSector(sector)` (R160). -/
def execZeroSector (sector : Sector) (s : State) : Host.Outcome State Fault Refusal :=
  .next (s.load (zeroSteps sector ++ [.ret .none]))

/-- `RandomizeSector(sector)` (R162). -/
def execRandomizeSector (sector : Sector) (s : State) : Host.Outcome State Fault Refusal :=
  .next (s.load (randomizeSteps sector ++ [.ret .none]))

end Sys2Proof.Machine
end

