-- ==== Sys2Proof/Machine/Stat.lean ====
section
/-! DEFINITION. The STAT unit: SaveResults (spec/44_statistics.md R170 to R174). Integer arithmetic
only, in the order and at the widths of R170; the mean is computed by its procedure, digit and all. -/

namespace Sys2Proof.Machine

/-- The running values of the scan of R170. -/
structure Scan where
  min : U32
  max : U32
  sum : U64
  deriving DecidableEq, Repr

/-- One turn of the scan (R170). Comparisons are unsigned; the sum is 64 bits wide (R171). -/
def Scan.add (a : Scan) (x : U32) : Scan :=
  { min := if x < a.min then x else a.min
    max := if a.max < x then x else a.max
    sum := a.sum + x.setWidth 64 }

/-- The scan of all samples, starting from the first (R170). -/
def scanSamples (first : U32) (samples : List U32) : Scan :=
  samples.foldl Scan.add { min := first, max := first, sum := 0 }

/-- `scaled = (sum *_64 10) div n`, in tenths; `whole` and `tenths` of it; tenths ≥ 5 rounds up (R170). -/
def roundedMean (sum n : U64) : U64 :=
  let scaled := (sum * 10) / n
  let whole := scaled / 10
  let tenths := scaled % 10
  if 5 ≤ tenths then whole + 1 else whole

/-- The record of `samples` out of `maxPossible` attempts (R170). -/
def summarise (samples : List U32) (maxPossible : Nat) : Record :=
  match samples with
  | [] => { min := 0, max := 0, mean := 0, fail := BitVec.ofNat 32 maxPossible }
  | first :: _ =>
    { min := (scanSamples first samples).min
      max := (scanSamples first samples).max
      mean :=
        (roundedMean (scanSamples first samples).sum (BitVec.ofNat 64 samples.length)).setWidth 32
      fail := BitVec.ofNat 32 maxPossible - BitVec.ofNat 32 samples.length }

/-- SAMP[0 .. n − 1]: the only entries SaveResults reads (spec/10_state.md R34). -/
def State.samples (s : State) (n : Nat) : List U32 := (List.range n).map s.sampRead

/-- The body of SaveResults: one record of RESULT, all four fields (R170). -/
def State.saveResults (s : State) (b : Battery) (sector : Sector) (n maxPossible : Nat) : State :=
  s.resultWrite b sector (summarise (s.samples n) maxPossible)

/-- `SaveResults(timing, numSuccessful, maxPossible)` (R170): one engine step, with its Tick
(spec/00_scope.md R15); operands out of range are refused
(spec/30_encoding.md R97). -/
def execSaveResults (battery : BitVec 3) (sector : Sector) (numSuccessful maxPossible : U16)
    (s : State) : Host.Outcome State Fault Refusal :=
  match batteryOf battery with
  | none => .refused (.operandOutOfRange .timing)
  | some b =>
    if numSuccessful.toNat ≤ maxPossible.toNat then
      if maxPossible.toNat ≤ Params.sampleCap then
        .next (s.saveResults b sector numSuccessful.toNat maxPossible.toNat).unspecifyRes.tick
      else .refused (.operandOutOfRange .maxPossible)
    else .refused (.operandOutOfRange .numSuccessful)

end Sys2Proof.Machine
end

