-- ==== Sys2Proof/Machine/Timer.lean ====
section
/-! DEFINITION. The TMR unit: SetupTimer, StartTimer, EndTimer, GetTimerResult (spec/41_timer.md R120
to R127). How the counters count is `State.tick` (R124). -/

namespace Sys2Proof.Machine

/-- The register writes of `SetupTimer()` and its Tick (R120). -/
def State.setupTimer (s : State) : State :=
  State.tick
    { s with
      ime := false
      tloEn := false
      tloCnt := 0
      thiCnt := 0
      thiCascade := true
      thiEn := true
      tmrState := .armed }

/-- `StartTimer()`: the low counter runs, and its own Tick is counted (R121). -/
def State.startTimer (s : State) : State :=
  State.tick
    { s with
      tloEn := true
      tmrState := if s.tmrState = .armed then .running else .idle }

/-- `EndTimer()`: the count freezes first, so its own Tick is not counted; IME is set to 1 (R122). -/
def State.endTimer (s : State) : State :=
  State.tick
    { s with
      tloEn := false
      ime := true
      tmrState := if s.tmrState = .running then .stopped else .idle }

/-- `{THI_CNT, TLO_CNT}` (R123). -/
def State.count (s : State) : U32 := s.thiCnt ++ s.tloCnt

/-- What GetTimerResult returns: the count in Stopped, else a draw (R123, DESIGN CHOICE, log 11). -/
def State.timerResult (s : State) : U32 :=
  if s.tmrState = .stopped then s.count else Config.meaninglessSample s.draws

/-- GetTimerResult writes nothing (R123); outside Stopped the environment has drawn a value. -/
def State.afterTimerResult (s : State) : State :=
  if s.tmrState = .stopped then s else s.drawn

/-- `SetupTimer()` (R120). -/
def execSetupTimer (s : State) : Host.Outcome State Fault Refusal :=
  .next s.unspecifyRes.setupTimer

/-- `StartTimer()` (R121). -/
def execStartTimer (s : State) : Host.Outcome State Fault Refusal :=
  .next s.unspecifyRes.startTimer

/-- `EndTimer()` (R122). -/
def execEndTimer (s : State) : Host.Outcome State Fault Refusal :=
  .next s.unspecifyRes.endTimer

/-- `GetTimerResult() -> u32` (R123): one engine step, with its Tick (spec/00_scope.md R15). -/
def execGetTimerResult (s : State) : Host.Outcome State Fault Refusal :=
  .next (s.afterTimerResult.setRes (s.timerResult.setWidth 64)).tick

end Sys2Proof.Machine
end

