-- ==== Sys2Proof/Machine/Orch.lean ====
section
/-! DEFINITION. The ORCH unit: RunBattery, the six sector bodies and RunFullTest
(spec/45_orchestrator.md R180 to R194). -/

namespace Sys2Proof.Machine

/-- The six batteries in order (R191). -/
def allBatteries : List Battery :=
  [.eraseAfterFF, .eraseAfter00, .eraseAfterRandom, .programFF, .program00, .programRandom]

/-- `MaxPossible(battery)` (R181). -/
def Battery.maxPossible : Battery → Nat
  | .eraseAfterFF | .eraseAfter00 | .eraseAfterRandom => Params.eraseTrials
  | .programFF | .program00 | .programRandom => Params.programSamplesMax

/-- One `call EraseSector` of EraseGate, with the loop test after it (R184). -/
def gateSteps (sector : Sector) : List Micro := eraseSteps sector ++ [.eraseGate sector]

/-- `while not (call EraseSector(s)) do end` after one call (R184). -/
def State.runEraseGate (s : State) (sector : Sector) : State :=
  if s.seq.ok then s else s.push (gateSteps sector)

/-- The sector loop (R181): the bank switch at sectors 0 and 16 (R183), the body, SaveResults. -/
def State.runSectorLoop (s : State) (b : Battery) (i : Nat) : State :=
  if i < Params.numSectors then
    s.push ((if i % Params.sectorsPerBank = 0 then
        switchBankSteps (BitVec.ofNat 1 (i / Params.sectorsPerBank)) else []) ++
      [.sectorBody b (BitVec.ofNat 5 i), .saveSector b (BitVec.ofNat 5 i), .sectorLoop b (i + 1)])
  else s

/-- `n <- 0` (R181), then the sector body: battery 1 has its gate before the trials (R185), the others
have none there (R186 to R190). -/
def State.runSectorBody (s : State) (b : Battery) (sector : Sector) : State :=
  State.push { s with seq := { s.seq with n := 0 } }
    (match b with
    | .eraseAfterFF => gateSteps sector ++ [.trial b sector 0]
    | .eraseAfter00 | .eraseAfterRandom | .programFF | .program00 | .programRandom =>
      [.trial b sector 0])

/-- The steps of one trial of each sector body (R185 to R190). -/
def trialSteps (b : Battery) (sector : Sector) : List Micro :=
  match b with
  | .eraseAfterFF => eraseTimedSteps sector ++ [.collect]
  | .eraseAfter00 => zeroSteps sector ++ eraseTimedSteps sector ++ [.collect]
  | .eraseAfterRandom => randomizeSteps sector ++ eraseTimedSteps sector ++ [.collect]
  | .programFF | .program00 => gateSteps sector ++ [.programLoop b sector 0]
  | .programRandom => gateSteps sector ++ [.drawPbuf 0, .programLoop b sector 0]

/-- How many trials a sector body has (R185 to R190). -/
def Battery.trials : Battery → Nat
  | .eraseAfterFF | .eraseAfter00 | .eraseAfterRandom => Params.eraseTrials
  | .programFF | .program00 | .programRandom => Params.programTrials

/-- The trial loop, `t` trials done. -/
def State.runTrial (s : State) (b : Battery) (sector : Sector) (t : Nat) : State :=
  if t < b.trials then s.push (trialSteps b sector ++ [.trial b sector (t + 1)]) else s

/-- The byte a program battery writes at `off`: 0xFF (R188), 0x00 (R189) or PBUF[off] (R190). The
erase batteries have no program loop. -/
def State.targetByte (s : State) (b : Battery) (off : Nat) : Byte :=
  match b with
  | .programFF => 0xFF
  | .program00 => 0x00
  | .programRandom | .eraseAfterFF | .eraseAfter00 | .eraseAfterRandom => s.pbufRead off

/-- The timed program loop at `off` (R188 to R190). -/
def State.runProgramLoop (s : State) (b : Battery) (sector : Sector) (off : Nat) : State :=
  if off < Params.sectorSize then
    s.push (programTimedSteps sector (BitVec.ofNat 12 off) (s.targetByte b off) ++
      [.collect, .programLoop b sector (off + 1)])
  else s

/-- `SAMP[n] <- call GetTimerResult(); n <- n + 1` (R182). -/
def State.appendSample (s : State) : State :=
  { s.afterTimerResult.sampWrite s.seq.n s.timerResult with
    seq := { s.seq with n := s.seq.n + 1 } }

/-- Sample collection after a timed primitive: a failed one adds nothing (R182). One engine step, with
its Tick (spec/00_scope.md R15). -/
def State.runCollect (s : State) : Host.Outcome State Fault Refusal :=
  if s.seq.ok then
    if s.seq.n < Params.sampleCap then .next s.appendSample.tick else .fault .noSuchSample
  else .next s.tick

/-- `call SaveResults(RESULT[battery][s], n, MaxPossible(battery))` (R181). -/
def State.runSaveSector (s : State) (b : Battery) (sector : Sector) : State :=
  s.saveResults b sector s.seq.n b.maxPossible

/-- RunBattery (R181). -/
def batterySteps (b : Battery) : List Micro := [.sectorLoop b 0]

/-- The battery loop of RunFullTest (R191). -/
def State.runBatteries (s : State) : List Battery → State
  | [] => s
  | b :: rest => s.push (batterySteps b ++ [.batteries rest])

/-- `RunBattery(battery)` (R181); an index outside 0..5 is refused (spec/30_encoding.md R97). -/
def execRunBattery (battery : BitVec 3) (s : State) : Host.Outcome State Fault Refusal :=
  match batteryOf battery with
  | none => .refused (.operandOutOfRange .battery)
  | some b => .next (s.load (batterySteps b ++ [.ret .none]))

/-- `RunFullTest()` (R191): RESULT is cleared first, then the six batteries run in order. -/
def execRunFullTest (s : State) : Host.Outcome State Fault Refusal :=
  .next (s.resultClear.load [.batteries allBatteries, .ret .none])

end Sys2Proof.Machine
end

