-- ==== Sys2Proof/Machine/Dispatch.lean ====
section
/-! DEFINITION. The dispatch: one arm per row of spec/opcode_table.json. -/

namespace Sys2Proof.Machine

def exec (i : Instr) (s : State) : Host.Outcome State Fault Refusal :=
  match i with
  -- PRNG
  | .scramblerNext => Sys2Proof.Machine.execScramblerNext s
  | .generatorNext => Sys2Proof.Machine.execGeneratorNext s
  -- TMR
  | .setupTimer => Sys2Proof.Machine.execSetupTimer s
  | .startTimer => Sys2Proof.Machine.execStartTimer s
  | .endTimer => Sys2Proof.Machine.execEndTimer s
  | .getTimerResult => Sys2Proof.Machine.execGetTimerResult s
  -- FCP
  | .readFlashID => Sys2Proof.Machine.execReadFlashID s
  | .switchFlashBank bank => Sys2Proof.Machine.execSwitchFlashBank bank s
  | .eraseSector sector => Sys2Proof.Machine.execEraseSector sector s
  | .eraseSectorTimed sector => Sys2Proof.Machine.execEraseSectorTimed sector s
  | .programByte sector offset value => Sys2Proof.Machine.execProgramByte sector offset value s
  | .programByteTimed sector offset value => Sys2Proof.Machine.execProgramByteTimed sector offset value s
  -- COND
  | .zeroSector sector => Sys2Proof.Machine.execZeroSector sector s
  | .randomizeSector sector => Sys2Proof.Machine.execRandomizeSector sector s
  -- STAT
  | .saveResults battery sector numSuccessful maxPossible => Sys2Proof.Machine.execSaveResults battery sector numSuccessful maxPossible s
  -- ORCH
  | .runBattery battery => Sys2Proof.Machine.execRunBattery battery s
  | .runFullTest => Sys2Proof.Machine.execRunFullTest s
  -- bus writes
  | .unlock1 => Sys2Proof.Machine.execUnlock1 s
  | .unlock2 => Sys2Proof.Machine.execUnlock2 s
  | .cmdIdEntry => Sys2Proof.Machine.execCmdIdEntry s
  | .cmdIdExit => Sys2Proof.Machine.execCmdIdExit s
  | .cmdBank => Sys2Proof.Machine.execCmdBank s
  | .bankData bank => Sys2Proof.Machine.execBankData bank s
  | .cmdEraseSetup => Sys2Proof.Machine.execCmdEraseSetup s
  | .sectorErase sec => Sys2Proof.Machine.execSectorErase sec s
  | .cmdProgram => Sys2Proof.Machine.execCmdProgram s
  | .programData sec offset value => Sys2Proof.Machine.execProgramData sec offset value s
  | .abort => Sys2Proof.Machine.execAbort s
  -- bus reads
  | .rdId0 => Sys2Proof.Machine.execRdId0 s
  | .rdId1 => Sys2Proof.Machine.execRdId1 s
  | .rdPoll sec offset => Sys2Proof.Machine.execRdPoll sec offset s
  | .rdVerify sec offset => Sys2Proof.Machine.execRdVerify sec offset s

end Sys2Proof.Machine
end

