-- ==== Sys2Proof/Machine/Sequencer.lean ====
section
/-! DEFINITION. One engine step of a running operation, the acceptance of a request at the port, and
the platform's writes (spec/10_state.md R38, spec/30_encoding.md R90, R96, R97, spec/41_timer.md R129). -/

namespace Sys2Proof.Machine

/-- One turn of `Poll`: the read cycle, run through `exec`, and the two tests on its byte. Both are one
engine step, the one Tick that of the read (spec/41_timer.md R128, log 2). -/
def runPoll (sec : BankSector) (offset : Offset) (expected : Byte) (s : State) :
    Host.Outcome State Fault Refusal :=
  match exec (.rdPoll sec offset) s with
  | .next t => .next (t.runPollTest sec offset expected)
  | .fault f => .fault f
  | .refused r => .refused r

/-- One pending step of the running operation; `s` has it taken off the list already. A bus cycle is
run through `exec`. Each is one engine step and ends in one Tick (spec/00_scope.md R15): a bus cycle, a
poll and a timer call in their own, any other in the one written here. -/
def runMicro (m : Micro) (s : State) : Host.Outcome State Fault Refusal :=
  match m with
  | .cycle i => exec i s
  | .setupTimer => .next s.setupTimer
  | .startTimer => .next s.startTimer
  | .endTimer => .next s.endTimer
  | .poll sec offset expected => runPoll sec offset expected s
  | .abortOnFailure => .next s.runAbortOnFailure.tick
  | .latchId => .next s.runLatchId.tick
  | .retryProgram sector offset value => .next (s.runRetryProgram sector offset value).tick
  | .fill src sector off => .next (s.runFill src sector off).tick
  | .verify src sector off => .next (s.runVerify src sector off).tick
  | .verifyTest src off => .next (s.verifyByte src off).tick
  | .drawPbuf off => .next (s.runDrawPbuf off).tick
  | .eraseGate sector => .next (s.runEraseGate sector).tick
  | .sectorLoop b i => .next (s.runSectorLoop b i).tick
  | .sectorBody b sector => .next (s.runSectorBody b sector).tick
  | .trial b sector t => .next (s.runTrial b sector t).tick
  | .programLoop b sector off => .next (s.runProgramLoop b sector off).tick
  | .collect => s.runCollect
  | .saveSector b sector => .next (s.runSaveSector b sector).tick
  | .batteries rest => .next (s.runBatteries rest).tick
  | .seedRetry => .next s.runSeedRetry.tick
  | .ret kind => .next (s.finish kind).tick

/-- The next engine step of the running operation; with none running, FSTE waits (R213): no
engine step, and no Tick (log 2). -/
def engineStep (s : State) : Host.Outcome State Fault Refusal :=
  match s.seq.todo with
  | [] => .next s
  | m :: rest => runMicro m (s.withTodo rest)

/-- The refusal a decoding error is (R96, R97, R205). -/
def refusalOf : DecodeError → Refusal
  | .unassignedOpsel opsel => .unassignedOpsel opsel
  | .operandOutOfRange operand => .operandOutOfRange operand
  | .notThisCycle row => .notThisCycle row

/-- The port takes a request (R90): it is refused before any effect (R96, R97), or its operation
starts. -/
def acceptRequest (r : Request) (s : State) : Host.Outcome State Fault Refusal :=
  match decodeRequest r with
  | .error e => .refused (refusalOf e)
  | .ok i => exec i (s.present r)

/-- A write of other software of the platform: refused while FSTE owns the timer (V7, R129). -/
def acceptPlatform (w : PlatformWrite) (s : State) : Host.Outcome State Fault Refusal :=
  if s.timerOwned then .refused .timerInUse else .next (s.platformWrite w)

/-- One step under the host's next move (R7, R222; DESIGN CHOICE, log 13): a reset acts at once, a request or a
platform write waits until no operation runs. -/
def hostStep (s : State) : Host.Outcome State Fault Refusal :=
  match s.host with
  | [] => engineStep s
  | .reset :: rest => .next (State.externalReset { s with host := rest })
  | .wait :: rest => engineStep { s with host := rest }
  | .issue r :: rest => if s.busy then engineStep s else acceptRequest r { s with host := rest }
  | .platform w :: rest => if s.busy then engineStep s else acceptPlatform w { s with host := rest }

/-- The state in which the port's next request is `r` and no operation runs. -/
def State.withRequest (s : State) (r : Request) : State :=
  State.withTodo { s with host := .issue r :: s.host } []

/-- The state in which the sequencer's next step is the bus cycle `i` and the host lets it run. -/
def State.withCycle (s : State) (i : Instr) : State :=
  State.withTodo { s with host := .wait :: s.host } [.cycle i]

end Sys2Proof.Machine
end

