-- ==== Sys2Proof/Machine/Step.lean ====
section
/-! DEFINITION. The step of the machine, and the placing of one word of the opcode table where the
next step takes its instruction. -/

namespace Sys2Proof.Machine

/-- One step: an engine step, or what the host does when it is due (spec/30_encoding.md R90). -/
def step (s : State) : Host.Outcome State Fault Refusal := hostStep s

/-- `s` with the instruction of a table word next (DESIGN CHOICE, log 13, DEDUCED, log 16): a 24-bit word is the sequencer's
next bus cycle, any other word the port's next request. -/
def State.withFetchWord (s : State) (nbits w : Nat) : State :=
  if nbits = 24 then
    match decodeTableWord nbits w with
    | some i => s.withCycle i
    | none => s
  else s.withRequest (Request.ofNat (w % 2 ^ nbits))

end Sys2Proof.Machine
end

