-- ==== Sys2Proof/Safety.lean ====
section
/-! DEFINITION. The terms claims are made in: runs of the machine, the invariant of its state, and the
language of the bus, the command sequences of spec/30_encoding.md R95. -/

namespace Sys2Proof

/-- A request the spec gives no meaning because of an operand (spec/30_encoding.md R97), in numbers. -/
def Request.outOfRange (r : Request) : Prop :=
  (r.opsel = 0x31 ∧ 2 ≤ r.arg0.toNat) ∨
  ((r.opsel = 0x32 ∨ r.opsel = 0x33 ∨ r.opsel = 0x40 ∨ r.opsel = 0x41) ∧ 32 ≤ r.arg0.toNat) ∨
  ((r.opsel = 0x34 ∨ r.opsel = 0x35) ∧
    (32 ≤ r.arg0.toNat ∨ 4096 ≤ r.arg1.toNat ∨ 256 ≤ r.arg2.toNat)) ∨
  (r.opsel = 0x60 ∧ 6 ≤ r.arg0.toNat) ∨
  (r.opsel = 0x50 ∧
    (6 ≤ r.arg0.toNat / 32 ∨ r.arg2.toNat < r.arg1.toNat ∨ 40960 < r.arg2.toNat))

end Sys2Proof

namespace Sys2Proof.Machine

/-! ## Runs -/

/-- The machine goes from `s` to `t` in some number of steps. -/
def Runs (s t : State) : Prop := ∃ k, Host.Core.run core k s = .next t

/-- The operation `i`, issued in `s`, goes on to `u`. -/
def Returns (i : Instr) (s u : State) : Prop := ∃ t, exec i s = .next t ∧ Runs t u

/-- No operation runs and the host does nothing meanwhile. -/
def Idle (s : State) : Prop := s.host = [] ∧ s.seq = Sequencer.empty

/-- The window offset of byte `o` of a sector, in numbers (spec/20_memory.md R51). -/
def flashAddr (sector : Sector) (o : Nat) : U16 :=
  BitVec.ofNat 16 (sector.toNat % Params.sectorsPerBank * Params.sectorSize + o)

/-- Clock cycles of `k` Ticks, the first of them draw `n` (spec/41_timer.md R124). -/
def cyclesOf (n k : Nat) : Nat := ((List.range k).map fun j => Config.cycleCost (n + j)).sum

/-- The step from `s` to `t` ends in a Tick (spec/00_scope.md R15): its cycles are the last value the step
draws, and with the controls as the step leaves them the counters of `s` advance by those cycles
(spec/41_timer.md R124). -/
def EndsInTick (s t : State) : Prop :=
  s.draws < t.draws ∧
  t.count = (State.advanceCounters
    { s with tloEn := t.tloEn, thiEn := t.thiEn, thiCascade := t.thiCascade }
    (Config.cycleCost (t.draws - 1))).count

/-- What four ScramblerNext calls from `scr` put into GEN (spec/40_prng.md R111). -/
def seedWords (scr : U64) : Gen :=
  ⟨(scrMix (Params.scrInc + scr)).setWidth 32,
   (scrMix (Params.scrInc + (Params.scrInc + scr))).setWidth 32,
   (scrMix (Params.scrInc + (Params.scrInc + (Params.scrInc + scr)))).setWidth 32,
   (scrMix (Params.scrInc + (Params.scrInc + (Params.scrInc + (Params.scrInc + scr))))).setWidth 32⟩

/-- SCR after `j` seeding attempts of four calls each. -/
def scrAfter (scr : U64) : Nat → U64
  | 0 => scr
  | j + 1 =>
    Params.scrInc + (Params.scrInc + (Params.scrInc + (Params.scrInc + scrAfter scr j)))

/-- A generator of all-zero words, the state R111 rejects. -/
def Gen.zero : Gen := ⟨0, 0, 0, 0⟩

/-- The byte at position `i` of the stream of a generator (spec/40_prng.md R113). -/
def streamByte (g : Gen) (i : Nat) : Byte := genByte (genAdvance^[i] g)

/-- The generator `g` the next byte of the stream comes from, and SCR once it has been drawn: as they
stand when seeded, else what the first seeding attempt that is not all zero leaves
(spec/40_prng.md R111). -/
def SeedsTo (s : State) (g : Gen) (scr : U64) : Prop :=
  (s.genInit = true → g = s.gen ∧ scr = s.scr) ∧
  (s.genInit = false → ∃ n, (∀ j < n, seedWords (scrAfter s.scr j) = Gen.zero) ∧
    g = seedWords (scrAfter s.scr n) ∧ g ≠ Gen.zero ∧ scr = scrAfter s.scr (n + 1))

/-- The OPSEL values of the table of spec/30_encoding.md R92. -/
def assignedOpsels : List Byte :=
  [0x10, 0x11, 0x20, 0x21, 0x22, 0x23, 0x30, 0x31, 0x32, 0x33, 0x34, 0x35, 0x40, 0x41, 0x50, 0x60,
   0x61]

/-- `u` is `s` but for what bus cycles and their Ticks touch: the chip, the bus, the draws, and the
counters if they run. -/
def OnlyBus (s u : State) : Prop :=
  u = { s with
    chip := u.chip
    bus := u.bus
    draws := u.draws
    tloCnt := u.tloCnt
    thiCnt := u.thiCnt } ∧
  (s.tloEn = false → u.tloCnt = s.tloCnt ∧ u.thiCnt = s.thiCnt)

/-- `u` is `s` after an untimed operation: besides what its bus cycles touch, only RES. -/
def OnlyBusAndRes (s u : State) : Prop := OnlyBus { s with res := u.res } u

/-- `u` is `s` after a timed primitive: as after an untimed one, but the timer bracket has been run
through (spec/42_flash_protocol.md R145, R147). -/
def OnlyTimedBusAndRes (s u : State) : Prop :=
  u = { s with
    chip := u.chip
    bus := u.bus
    draws := u.draws
    res := u.res
    tloCnt := u.tloCnt
    thiCnt := u.thiCnt
    tloEn := false
    thiEn := true
    thiCascade := true
    tmrState := .stopped
    ime := true }

/-- `u` is `s` after whole batteries: the PRNG, the buffers, RESULT, the bus, RES and the timer bracket
may have changed, nothing else (spec/45_orchestrator.md R181). -/
def OnlyBattery (s u : State) : Prop :=
  u = { s with
    scr := u.scr
    gen := u.gen
    genInit := u.genInit
    pbuf := u.pbuf
    samp := u.samp
    result := u.result
    chip := u.chip
    bus := u.bus
    draws := u.draws
    res := u.res
    tloCnt := u.tloCnt
    thiCnt := u.thiCnt
    tloEn := false
    thiEn := true
    thiCascade := true
    tmrState := .stopped
    ime := true }

/-! ## What the chip sees when every command succeeds at its first poll

Written from the rules of the operations, oldest cycle first. `f` is the random byte at a position. -/

/-- EraseSector or EraseSectorTimed (spec/42_flash_protocol.md R144, R145). -/
def eraseCycles (sector : Sector) : List BusEvent :=
  [.write 0x5555 0xAA, .write 0x2AAA 0x55, .write 0x5555 0x80, .write 0x5555 0xAA,
    .write 0x2AAA 0x55, .write (flashAddr sector 0) 0x30, .read (flashAddr sector 0) 0xFF]

/-- ProgramByte or ProgramByteTimed (spec/42_flash_protocol.md R146, R147). -/
def programCycles (sector : Sector) (o : Nat) (v : Byte) : List BusEvent :=
  [.write 0x5555 0xAA, .write 0x2AAA 0x55, .write 0x5555 0xA0, .write (flashAddr sector o) v,
    .read (flashAddr sector o) v]

/-- Every byte of a sector programmed, in ascending order. -/
def programAllCycles (sector : Sector) (f : Nat → Byte) : List BusEvent :=
  (List.range 4096).flatMap fun o => programCycles sector o (f o)

/-- One pass of ZeroSector or RandomizeSector (spec/43_conditioning.md R160, R162). -/
def passCycles (sector : Sector) (f : Nat → Byte) : List BusEvent :=
  programAllCycles sector f ++ (List.range 4096).map fun o => .read (flashAddr sector o) (f o)

/-- One trial of a sector body (spec/45_orchestrator.md R185 to R190). -/
def trialCycles (b : Battery) (sector : Sector) (f : Nat → Byte) : List BusEvent :=
  match b with
  | .eraseAfterFF => eraseCycles sector
  | .eraseAfter00 => passCycles sector (fun _ => 0x00) ++ eraseCycles sector
  | .eraseAfterRandom => passCycles sector f ++ eraseCycles sector
  | .programFF => eraseCycles sector ++ programAllCycles sector fun _ => 0xFF
  | .program00 => eraseCycles sector ++ programAllCycles sector fun _ => 0x00
  | .programRandom => eraseCycles sector ++ programAllCycles sector f

/-- A sector body: ten trials, before them in battery 1 the erase of its gate (R185 to R190). -/
def bodyCycles (b : Battery) (sector : Sector) (f : Nat → Byte) : List BusEvent :=
  (if b = .eraseAfterFF then eraseCycles sector else []) ++
    (List.range 10).flatMap fun t => trialCycles b sector fun o => f (t * 4096 + o)

/-- What the sector loop does at sector `i`: a bank switch at 0 and 16 (R183), and the body. -/
def sectorCycles (b : Battery) (f : Nat → Byte) (i : Nat) : List BusEvent :=
  (if i = 0 ∨ i = 16 then
    [.write 0x5555 0xAA, .write 0x2AAA 0x55, .write 0x5555 0xB0,
      .write 0x0000 (if i = 0 then 0 else 1)] else []) ++
    bodyCycles b (BitVec.ofNat 5 i) fun m => f (i * 40960 + m)

/-- A battery (R181); `f` is the random byte at a position of the stream. -/
def batteryCycles (b : Battery) (f : Nat → Byte) : List BusEvent :=
  (List.range 32).flatMap (sectorCycles b f)

/-- A full test (R191): the six batteries in order; battery 3 draws 1310720 bytes, battery 6 the next. -/
def fullTestCycles (f : Nat → Byte) : List BusEvent :=
  batteryCycles .eraseAfterFF f ++ batteryCycles .eraseAfter00 f ++
    batteryCycles .eraseAfterRandom f ++ batteryCycles .programFF f ++ batteryCycles .program00 f ++
    batteryCycles .programRandom fun m => f (1310720 + m)

/-- A record of `n` successes, each the cycles of three Ticks in a row: the StartTimer step, the one write
and the one read of a timed primitive (spec/41_timer.md R128, spec/44_statistics.md R170). -/
def Measured (r : Record) (n : Nat) : Prop :=
  ∃ l : List U32, l.length = n ∧ (∀ x ∈ l, ∃ d, x.toNat = cyclesOf d 3 % 2 ^ 32) ∧ r = summarise l n

/-! ## The invariant of the state -/

/-- Indices rising and below `bound`. -/
def storeWf {α : Type} (bound : Nat) (m : List (Nat × α)) : Bool :=
  storeRising m && m.all fun c => decide (c.1 < bound)

/-- The buffers have their canonical form and their size (spec/10_state.md R33 to R35). -/
def State.buffersOk (s : State) : Bool :=
  storeWf Params.sectorSize s.pbuf && storeWf Params.sampleCap s.samp &&
    storeWf (Params.numBatteries * Params.numSectors) s.result

/-- The array of the reference device has its canonical form. -/
def State.chipOk (s : State) : Bool :=
  match s.chip with
  | .oracle _ => true
  | .reference d => Memory.wf d.arr

/-- A seeded generator is never all zero (spec/10_state.md R25). -/
def State.genOk (s : State) : Bool := !s.genInit || s.gen.nonzero

/-- From SetupTimer to EndTimer interrupts are masked and the high counter is armed; the low counter
runs exactly in Running (spec/41_timer.md R120, R121, spec/60_exceptions.md R208). -/
def State.timerOk (s : State) : Bool :=
  match s.tmrState with
  | .armed => !s.ime && !s.tloEn && s.thiEn && s.thiCascade
  | .running => !s.ime && s.tloEn && s.thiEn && s.thiCascade
  | .idle | .stopped => true

/-- How many samples one trial of a sector body may append (spec/45_orchestrator.md R185 to R190). -/
def samplesPerTrial : Battery → Nat
  | .eraseAfterFF | .eraseAfter00 | .eraseAfterRandom => 1
  | .programFF | .program00 | .programRandom => Params.sectorSize

/-- With `n` samples appended, the pending steps never append past SAMP's end
(spec/45_orchestrator.md R182, R194). -/
def samplesFit : Nat → List Micro → Bool
  | _, [] => true
  | n, m :: rest =>
    match m with
    | .collect => decide (n < Params.sampleCap) && samplesFit (n + 1) rest
    | .programLoop _ _ off =>
      decide (n + (Params.sectorSize - off) ≤ Params.sampleCap) &&
        samplesFit (n + (Params.sectorSize - off)) rest
    | .trial b _ t =>
      decide (n + (b.trials - t) * samplesPerTrial b ≤ Params.sampleCap) &&
        samplesFit (n + (b.trials - t) * samplesPerTrial b) rest
    | .sectorBody b _ => samplesFit b.maxPossible rest
    | .sectorLoop b _ => samplesFit (max n b.maxPossible) rest
    | .batteries _ => samplesFit (max n Params.sampleCap) rest
    | .ret _ => true
    | .cycle _ | .setupTimer | .startTimer | .endTimer | .poll _ _ _ | .abortOnFailure
    | .latchId | .retryProgram _ _ _ | .fill _ _ _ | .verify _ _ _ | .verifyTest _ _
    | .drawPbuf _ | .eraseGate _ | .saveSector _ _ | .seedRetry => samplesFit n rest

/-- With nothing pending the sequencer is empty, and what is pending ends with a return to the host
(spec/10_state.md R38, spec/60_exceptions.md R213). -/
def State.seqOk (s : State) : Bool :=
  match s.seq.todo.getLast? with
  | none => decide (s.seq = Sequencer.empty)
  | some (.ret _) => true
  | some .seedRetry => true
  | some _ => false

/-- The invariant every step keeps. -/
def State.inv (s : State) : Bool :=
  s.buffersOk && s.chipOk && s.genOk && s.timerOk && s.seqOk && samplesFit s.seq.n s.seq.todo

/-- The invariant as a proposition. -/
abbrev State.Inv (s : State) : Prop := s.inv = true

/-! ## The language of the bus (spec/30_encoding.md R95) -/

/-- Where the bus stands in the command sequences of R95. -/
inductive Phase where
  /-- between commands -/
  | idle
  /-- after UNLOCK1, after UNLOCK2 -/
  | unlocking | unlocked
  /-- ReadFlashID: after CMD_ID_ENTRY, RD_ID0, RD_ID1, UNLOCK1, UNLOCK2 -/
  | idEntered | idHalf | idRead | idUnlocking | idUnlocked
  /-- after CMD_BANK -/
  | banking
  /-- after CMD_ERASE_SETUP, UNLOCK1, UNLOCK2 -/
  | eraseSetup | eraseUnlocking | eraseUnlocked
  /-- after CMD_PROGRAM -/
  | program
  /-- polling the byte at `addr` for `expected` -/
  | polling (addr : U16) (expected : Byte)
  /-- a poll has seen the failure bit: the abort is due -/
  | failed
  deriving DecidableEq, Repr

/-- Where a poll's byte leads (spec/42_flash_protocol.md R141). -/
def Phase.afterPoll (addr : U16) (expected b : Byte) : Phase :=
  match pollStatus expected b with
  | .completed => .idle
  | .failed => .failed
  | .pending => .polling addr expected

/-- The phase after one more cycle, if the sequences of R95 allow it there. -/
def Phase.next (p : Phase) (e : BusEvent) : Option Phase :=
  match e with
  | .resetHere => some .idle
  | .write off v =>
    match p with
    | .idle => if off = 0x5555 ∧ v = 0xAA then some .unlocking else none
    | .unlocking => if off = 0x2AAA ∧ v = 0x55 then some .unlocked else none
    | .unlocked =>
      if off = 0x5555 then
        if v = 0x90 then some .idEntered
        else if v = 0xB0 then some .banking
        else if v = 0x80 then some .eraseSetup
        else if v = 0xA0 then some .program
        else none
      else none
    | .idRead => if off = 0x5555 ∧ v = 0xAA then some .idUnlocking else none
    | .idUnlocking => if off = 0x2AAA ∧ v = 0x55 then some .idUnlocked else none
    | .idUnlocked => if off = 0x5555 ∧ v = 0xF0 then some .idle else none
    | .banking => if off = 0x0000 ∧ (v = 0 ∨ v = 1) then some .idle else none
    | .eraseSetup => if off = 0x5555 ∧ v = 0xAA then some .eraseUnlocking else none
    | .eraseUnlocking => if off = 0x2AAA ∧ v = 0x55 then some .eraseUnlocked else none
    | .eraseUnlocked => if off &&& 0x0FFF = 0 ∧ v = 0x30 then some (.polling off 0xFF) else none
    | .program => some (.polling off v)
    | .failed => if off = 0x5555 ∧ v = 0xF0 then some .idle else none
    | .idEntered | .idHalf | .polling _ _ => none
  | .read off b =>
    match p with
    | .idle => some .idle
    | .idEntered => if off = 0x0000 then some .idHalf else none
    | .idHalf => if off = 0x0001 then some .idRead else none
    | .polling addr expected =>
      if off = addr then some (Phase.afterPoll addr expected b) else none
    | .unlocking | .unlocked | .idRead | .idUnlocking | .idUnlocked | .banking | .eraseSetup
    | .eraseUnlocking | .eraseUnlocked | .program | .failed => none

/-- The phase after the cycles seen so far (newest first), if every one of them was allowed. -/
def phaseOf : List BusEvent → Option Phase
  | [] => some .idle
  | e :: earlier => (phaseOf earlier).bind fun p => p.next e

/-- What the pending steps know of the phase: a poll's outcome stands in `ok` until it is acted on. -/
inductive Expect where
  | stands (p : Phase)
  | decided
  deriving DecidableEq, Repr

/-- What `s` says the phase is. -/
def Expect.phase (x : Expect) (s : State) : Phase :=
  match x with
  | .stands p => p
  | .decided => if s.seq.ok then .idle else .failed

/-- The phase after a write by a pending step. -/
def Phase.write (p : Phase) (off : U16) (v : Byte) : Option Expect :=
  (p.next (.write off v)).map .stands

/-- The effect of a pending bus cycle on the expected phase. A poll's reads come only with its tests. -/
def Phase.cycle (p : Phase) (i : Instr) : Option Expect :=
  match i with
  | .unlock1 => p.write 0x5555 0xAA
  | .unlock2 => p.write 0x2AAA 0x55
  | .cmdIdEntry => p.write 0x5555 0x90
  | .cmdIdExit => p.write 0x5555 0xF0
  | .cmdBank => p.write 0x5555 0xB0
  | .bankData bank => p.write 0x0000 (bank.setWidth 8)
  | .cmdEraseSetup => p.write 0x5555 0x80
  | .sectorErase sec => p.write (windowAddr sec 0) 0x30
  | .cmdProgram => p.write 0x5555 0xA0
  | .programData sec offset value => p.write (windowAddr sec offset) value
  | .abort => p.write 0x5555 0xF0
  | .rdId0 => if p = .idEntered then some (.stands .idHalf) else none
  | .rdId1 => if p = .idHalf then some (.stands .idRead) else none
  | .rdVerify _ _ => if p = .idle then some (.stands .idle) else none
  | .scramblerNext | .generatorNext | .setupTimer | .startTimer | .endTimer | .getTimerResult
  | .readFlashID | .switchFlashBank _ | .eraseSector _ | .eraseSectorTimed _
  | .programByte _ _ _ | .programByteTimed _ _ _ | .zeroSector _ | .randomizeSector _
  | .saveResults _ _ _ _ | .runBattery _ | .runFullTest | .rdPoll _ _ => none

/-- The effect of one pending step on the expected phase; every step but a cycle, a poll, an abort and
a timer call stands between commands. -/
def Expect.after (x : Expect) (m : Micro) : Option Expect :=
  match m with
  | .setupTimer | .startTimer | .endTimer => some x
  | .cycle i =>
    match x with
    | .stands p => p.cycle i
    | .decided => none
  | .poll sec offset expected =>
    if x = .stands (.polling (windowAddr sec offset) expected) then some .decided else none
  | .abortOnFailure => if x = .decided then some (.stands .idle) else none
  | .latchId | .retryProgram _ _ _ | .fill _ _ _ | .verify _ _ _ | .verifyTest _ _ | .drawPbuf _
  | .eraseGate _ | .sectorLoop _ _ | .sectorBody _ _ | .trial _ _ _ | .programLoop _ _ _
  | .collect | .saveSector _ _ | .batteries _ | .seedRetry | .ret _ =>
    if x = .stands .idle then some (.stands .idle) else none

/-- The pending steps, run from `x`, keep to the sequences of R95 and end between commands. -/
def follows : Expect → List Micro → Bool
  | x, [] => x == .stands .idle
  | x, m :: rest =>
    match x.after m with
    | some y => follows y rest
    | none => false

/-- Every cycle the chip has seen belongs to a command sequence of R95 (or is a readback between two
commands), and the pending steps go on so (spec/20_memory.md R57, spec/30_encoding.md R95, R98). -/
def State.BusInLanguage (s : State) : Prop :=
  ∃ x : Expect, phaseOf s.bus = some (x.phase s) ∧ follows x s.seq.todo = true

end Sys2Proof.Machine
end

