-- ==== Sys2Proof/Certificates/Slice0/Obligations.lean ====
section
/-! DEFINITION. The statements for the provers, one `def Obligations.<Name> : Prop` each. Bus traces
are written oldest first and reversed, because `State.bus` holds the newest cycle first. -/

open Sys2Proof Sys2Proof.Machine

/-! ## Encoding -/

/-- Every well-formed operation is decoded from the request that encodes it (R92, R93). -/
def Obligations.DecodeOfEncodedRequest : Prop :=
  ∀ (i : Instr) (r : Request), i.wf = true → encodeRequest i = some r → decodeRequest r = .ok i

/-- Every bus cycle is decoded, at its place, from the 24 bits that encode it, whatever the chip
answers to a read (R94). -/
def Obligations.DecodeOfEncodedCycle : Prop :=
  ∀ (i : Instr) (row : BusRow) (answer : Byte) (w : BitVec 24),
    i.busRow = some row → encodeCycle answer i = some w →
      decodeCycle row row.direction w = .ok i

/-- A request decodes only to a well-formed operation with its own OPSEL, never to a bus cycle. -/
def Obligations.DecodedRequestIsWellFormedOperation : Prop :=
  ∀ (r : Request) (i : Instr), decodeRequest r = .ok i →
    i.wf = true ∧ i.busRow = none ∧ ∃ q, encodeRequest i = some q ∧ q.opsel = r.opsel

/-- R96: an OPSEL in no row of R92 is refused by the decoder and by the port. -/
def Obligations.UnassignedOpselIsRefused : Prop :=
  ∀ (s : State) (r : Request) (rest : List HostMove),
    s.seq.todo = [] → s.host = .issue r :: rest → r.opsel ∉ assignedOpsels →
      decodeRequest r = .error (.unassignedOpsel r.opsel) ∧
        step s = .refused (.unassignedOpsel r.opsel)

/-- R97: a request is refused for an operand exactly when one is outside its legal range. -/
def Obligations.OperandOutOfRangeIsRefused : Prop :=
  ∀ (s : State) (r : Request) (rest : List HostMove),
    s.seq.todo = [] → s.host = .issue r :: rest →
      (r.outOfRange ↔ ∃ o, decodeRequest r = .error (.operandOutOfRange o)) ∧
      (r.outOfRange → ∃ o, step s = .refused (.operandOutOfRange o))

/-- A step runs the decoded instruction: the request at the port when no operation runs, the bus cycle the
sequencer holds next, and the read of a poll, with the two tests of R141 on its byte in the same step,
as R128 leaves a model free to do (log 2). -/
def Obligations.StepRunsDecodedInstruction : Prop :=
  (∀ (s : State) (r : Request) (i : Instr) (rest : List HostMove),
    s.seq.todo = [] → s.host = .issue r :: rest → decodeRequest r = .ok i →
      step s = exec i { s with
        host := rest, opsel := r.opsel, arg0 := r.arg0, arg1 := r.arg1, arg2 := r.arg2 }) ∧
  (∀ (s : State) (i : Instr) (rest : List Micro),
    s.host = [] → s.seq.todo = .cycle i :: rest →
      step s = exec i { s with seq := { s.seq with todo := rest } }) ∧
  (∀ (s : State) (sec : BankSector) (offset : Offset) (expected : Byte) (rest : List Micro),
    s.host = [] → s.seq.todo = .poll sec offset expected :: rest →
      ∃ t, exec (.rdPoll sec offset) { s with seq := { s.seq with todo := rest } } = .next t ∧
        step s = .next { t with seq :=
          if t.seq.last = expected then { t.seq with ok := true }
          else if t.seq.last &&& 0x20 ≠ 0 then { t.seq with ok := false }
          else { t.seq with todo := .poll sec offset expected :: t.seq.todo } })

/-- Words written out from the tables of R92 and R94 decode to what they stand for. -/
def Obligations.WordsOfTheTableDecode : Prop :=
  decodeRequest ⟨0x34, 17, 0x123, 0x5A⟩ = .ok (.programByte 17 0x123 0x5A) ∧
  decodeRequest ⟨0x50, 0x45, 2, 3⟩ = .ok (.saveResults 2 5 2 3) ∧
  decodeRequest ⟨0x60, 5, 0, 0⟩ = .ok (.runBattery 5) ∧
  decodeCycle .sectorErase .write 0b010100000000000000110000 = .ok (.sectorErase 5) ∧
  decodeCycle .programData .write 0b111111111111111100000000 = .ok (.programData 15 0xFFF 0) ∧
  decodeCycle .rdId1 .read 0b000000000000000100001001 = .ok .rdId1

/-! ## PRNG -/

/-- R110: SCR advances and keeps the unmixed sum; the result is the mixed value. That the operation is
one engine step, with its Tick (R15), is the model's granularity (logs 1, 2, DEDUCED). -/
def Obligations.ScramblerNextResult : Prop :=
  ∀ s : State,
    let z0 : U64 := 0x9E3779B97F4A7C15 + s.scr
    let z1 := (z0 ^^^ (z0 >>> 30)) * 0xBF58476D1CE4E5B9
    let z2 := (z1 ^^^ (z1 >>> 27)) * 0x94D049BB133111EB
    exec .scramblerNext s = .next (State.tick { s with scr := z0, res := z2 ^^^ (z2 >>> 31) })

/-- R110, corner: because the increment is odd, ScramblerNext takes SCR through every value. -/
def Obligations.ScramblerVisitsEveryValue : Prop :=
  ∀ (s : State) (v : U64), ∃ k, (State.scramble^[k] s).scr = v

/-- Every mixing step is a bijection of the 64-bit values (V-P4). -/
def Obligations.ScramblerMixIsBijective : Prop := Function.Bijective scrMix

/-- R112 on a seeded generator: the output comes from the state before it advances, and the six
assignments run in order. That the operation is one engine step, with its Tick (R15), is the model's
granularity (logs 1, 2, DEDUCED). -/
def Obligations.GeneratorNextResult : Prop :=
  ∀ s : State, s.genInit = true →
    let g := s.gen
    let sum := g.g0 + g.g3
    let out := (sum <<< 7 ||| sum >>> 25) + g.g0
    let g2 := g.g2 ^^^ g.g0
    let g3 := g.g3 ^^^ g.g1
    let g1 := g.g1 ^^^ g2
    let g0 := g.g0 ^^^ g3
    exec .generatorNext s = .next (State.tick { s with
      gen := ⟨g0, g1, g2 ^^^ (g.g1 <<< 9), g3 <<< 11 ||| g3 >>> 21⟩
      res := out.setWidth 64 })

/-- R111: the first GeneratorNext redraws all four words while they are all zero, sets GEN_INIT, and goes
on as R112 says with the first words that are not. Each attempt is a step of the model's, with its Tick
(logs 1, 2). That it returns from every SCR is the model's own
inference: R111 says only that the loop ends with probability one. -/
def Obligations.GeneratorNextSeedsAndReturns : Prop :=
  ∀ s : State, Idle s → s.genInit = false →
    ∃ (n : Nat) (u : State),
      (∀ j < n, seedWords (scrAfter s.scr j) = Gen.zero) ∧
      seedWords (scrAfter s.scr n) ≠ Gen.zero ∧
      Returns .generatorNext s u ∧
      u = State.tick^[n + 1] { s with
        scr := scrAfter s.scr (n + 1)
        genInit := true
        gen := genAdvance (seedWords (scrAfter s.scr n))
        res := (genOutput (seedWords (scrAfter s.scr n))).setWidth 64 }

/-- The advance of R112 is a permutation of the generator's states and fixes the all-zero one. -/
def Obligations.GeneratorAdvanceIsPermutation : Prop :=
  Function.Bijective genAdvance ∧ genAdvance Gen.zero = Gen.zero

/-! ## TMR -/

/-- R120, from every state of the timer: its last line is a Tick that counts nothing, and RES is left
unspecified, so nothing is said of it. -/
def Obligations.SetupTimerResult : Prop :=
  ∀ s : State, ∃ t, exec .setupTimer s = .next t ∧ t = { s with
    ime := false, tloEn := false, tloCnt := 0, thiCnt := 0, thiEn := true, thiCascade := true
    tmrState := .armed, draws := t.draws, res := t.res }

/-- R121: its Tick is counted, by the cycles of the draw after RES's (logs 3, 10); nothing is said of
RES. -/
def Obligations.StartTimerResult : Prop :=
  ∀ s : State, ∃ t, exec .startTimer s = .next t ∧ t =
    { State.advanceCounters
        { s with tloEn := true, tmrState := if s.tmrState = .armed then .running else .idle }
        (Config.cycleCost (s.draws + 1)) with
      draws := t.draws, res := t.res }

/-- R122: its Tick is not counted, IME becomes 1 whatever it was, and the high counter's control stays;
nothing is said of RES. -/
def Obligations.EndTimerResult : Prop :=
  ∀ s : State, ∃ t, exec .endTimer s = .next t ∧ t = { s with
    tloEn := false, ime := true, tmrState := if s.tmrState = .running then .stopped else .idle
    draws := t.draws, res := t.res }

/-- R123: the count in Stopped, with no state written but RES; elsewhere a draw (a free value, log 11).
The count is read before the step's one Tick (R15; logs 1, 2, DEDUCED). -/
def Obligations.GetTimerResultValue : Prop :=
  ∀ s : State,
    (s.tmrState = .stopped →
      exec .getTimerResult s = .next (State.tick { s with
        res := BitVec.ofNat 64 (s.thiCnt.toNat * 65536 + s.tloCnt.toNat) })) ∧
    (s.tmrState ≠ .stopped →
      exec .getTimerResult s = .next (State.tick { s with
        res := (Config.meaninglessSample s.draws).setWidth 64, draws := s.draws + 1 }))

/-- R124, R125: while the low counter runs with the high one armed, `k` Ticks advance the composite
count by their cycles modulo 2^32; with the high counter not armed only the low one advances; a
held low counter moves neither. Nothing but the counters and the number of draws changes. R15: every
instruction that runs is a step that ends in a Tick, whose cycles are the last value it draws; with
the controls as the instruction leaves them, the counters advance by those cycles, from zero after
SetupTimer. That an instruction is one engine step, with one Tick, is the model's form (logs 1, 2, 3). -/
def Obligations.TicksAdvanceCounters : Prop :=
  ∀ (s : State) (k : Nat),
    State.tick^[k] s = { s with
      tloCnt := (State.tick^[k] s).tloCnt
      thiCnt := (State.tick^[k] s).thiCnt
      draws := s.draws + k } ∧
    (s.tloEn = true → s.thiEn = true → s.thiCascade = true →
      (State.tick^[k] s).count.toNat = (s.count.toNat + cyclesOf s.draws k) % 2 ^ 32) ∧
    (s.tloEn = true → (s.thiEn && s.thiCascade) = false →
      (State.tick^[k] s).tloCnt.toNat = (s.tloCnt.toNat + cyclesOf s.draws k) % 2 ^ 16 ∧
      (State.tick^[k] s).thiCnt = s.thiCnt) ∧
    (s.tloEn = false →
      (State.tick^[k] s).tloCnt = s.tloCnt ∧ (State.tick^[k] s).thiCnt = s.thiCnt) ∧
    ∀ (i : Instr) (t : State), exec i s = .next t →
      EndsInTick (if i = .setupTimer then { s with tloCnt := 0, thiCnt := 0 } else s) t

/-! ## FCP -/

/-- R51: the window offset of a byte is its sector-in-bank number times 4096 plus its position. -/
def Obligations.ByteAddrOfSectorAndOffset : Prop :=
  ∀ (sector : Sector) (offset : Offset),
    (byteAddr sector offset).toNat = sector.toNat % 16 * 4096 + offset.toNat ∧
    (sectorBase sector).toNat = sector.toNat % 16 * 4096

/-- R142: eight cycles in order, then FLASHID and the result are {device, manufacturer}. -/
def Obligations.ReadFlashIDCompletes : Prop :=
  ∀ (s : State) (m d : Byte) (answers : List Byte), Idle s → s.chip = .oracle (m :: d :: answers) →
    ∃ u, Returns .readFlashID s u ∧ u.chip = .oracle answers ∧
      u.bus = [BusEvent.write 0x5555 0xAA, .write 0x2AAA 0x55, .write 0x5555 0x90, .read 0x0000 m,
        .read 0x0001 d, .write 0x5555 0xAA, .write 0x2AAA 0x55, .write 0x5555 0xF0].reverse ++ s.bus ∧
      u.flashId = d ++ m ∧ u.res.toNat = d.toNat * 256 + m.toNat ∧
      OnlyBusAndRes { s with flashId := u.flashId } u

/-- R143: four writes in order, whatever the chip; nothing of FSTE is written but RES. -/
def Obligations.SwitchFlashBankCompletes : Prop :=
  ∀ (s : State) (bank : BitVec 1), Idle s →
    ∃ u, Returns (.switchFlashBank bank) s u ∧
      u.bus = [BusEvent.write 0x5555 0xAA, .write 0x2AAA 0x55, .write 0x5555 0xB0,
        .write 0x0000 (BitVec.ofNat 8 bank.toNat)].reverse ++ s.bus ∧
      OnlyBusAndRes s u

/-- R144 with the polls of R141: six writes, reads of the sector's first byte while the chip answers
neither 0xFF nor bit 5, then true on 0xFF, or one abort write and false. -/
def Obligations.EraseSectorCompletes : Prop :=
  ∀ (s : State) (sector : Sector) (pend answers : List Byte) (e : Byte), Idle s →
    s.chip = .oracle (pend ++ e :: answers) →
    (∀ b ∈ pend, b ≠ 0xFF ∧ b &&& 0x20 = 0) → (e = 0xFF ∨ e &&& 0x20 ≠ 0) →
    ∃ u, Returns (.eraseSector sector) s u ∧ u.chip = .oracle answers ∧
      u.res = (if e = 0xFF then 1 else 0) ∧
      u.bus = ([BusEvent.write 0x5555 0xAA, .write 0x2AAA 0x55, .write 0x5555 0x80,
          .write 0x5555 0xAA, .write 0x2AAA 0x55, .write (flashAddr sector 0) 0x30] ++
        ((pend ++ [e]).map fun b => BusEvent.read (flashAddr sector 0) b) ++
        (if e = 0xFF then [] else [BusEvent.write 0x5555 0xF0])).reverse ++ s.bus ∧
      OnlyBusAndRes s u

/-- R145 and R128: the cycles of R144; interrupts end enabled and the timer Stopped; the count is the
cycles of StartTimer, the erase write and every poll read, and of nothing else. That the tests of the
poll are part of the read's step is the choice R128 leaves (log 2; V-T4 counts so); that the StartTimer
Tick is draw `s.draws + 7` is the model's numbering of the draws (log 3). -/
def Obligations.EraseSectorTimedCompletes : Prop :=
  ∀ (s : State) (sector : Sector) (pend answers : List Byte) (e : Byte), Idle s →
    s.chip = .oracle (pend ++ e :: answers) →
    (∀ b ∈ pend, b ≠ 0xFF ∧ b &&& 0x20 = 0) → (e = 0xFF ∨ e &&& 0x20 ≠ 0) →
    ∃ u, Returns (.eraseSectorTimed sector) s u ∧ u.chip = .oracle answers ∧
      u.res = (if e = 0xFF then 1 else 0) ∧
      u.bus = ([BusEvent.write 0x5555 0xAA, .write 0x2AAA 0x55, .write 0x5555 0x80,
          .write 0x5555 0xAA, .write 0x2AAA 0x55, .write (flashAddr sector 0) 0x30] ++
        ((pend ++ [e]).map fun b => BusEvent.read (flashAddr sector 0) b) ++
        (if e = 0xFF then [] else [BusEvent.write 0x5555 0xF0])).reverse ++ s.bus ∧
      u.count.toNat = cyclesOf (s.draws + 7) (pend.length + 3) % 2 ^ 32 ∧
      OnlyTimedBusAndRes s u

/-- R146 with the polls of R141. -/
def Obligations.ProgramByteCompletes : Prop :=
  ∀ (s : State) (sector : Sector) (offset : Offset) (value : Byte) (pend answers : List Byte)
    (e : Byte), Idle s →
    s.chip = .oracle (pend ++ e :: answers) →
    (∀ b ∈ pend, b ≠ value ∧ b &&& 0x20 = 0) → (e = value ∨ e &&& 0x20 ≠ 0) →
    ∃ u, Returns (.programByte sector offset value) s u ∧ u.chip = .oracle answers ∧
      u.res = (if e = value then 1 else 0) ∧
      u.bus = ([BusEvent.write 0x5555 0xAA, .write 0x2AAA 0x55, .write 0x5555 0xA0,
          .write (flashAddr sector offset.toNat) value] ++
        ((pend ++ [e]).map fun b => BusEvent.read (flashAddr sector offset.toNat) b) ++
        (if e = value then [] else [BusEvent.write 0x5555 0xF0])).reverse ++ s.bus ∧
      OnlyBusAndRes s u

/-- R147 and R128, as for the erase: the tests of the poll are part of the read's step (log 2); the draw
`s.draws + 5` for the StartTimer Tick is log 3. -/
def Obligations.ProgramByteTimedCompletes : Prop :=
  ∀ (s : State) (sector : Sector) (offset : Offset) (value : Byte) (pend answers : List Byte)
    (e : Byte), Idle s →
    s.chip = .oracle (pend ++ e :: answers) →
    (∀ b ∈ pend, b ≠ value ∧ b &&& 0x20 = 0) → (e = value ∨ e &&& 0x20 ≠ 0) →
    ∃ u, Returns (.programByteTimed sector offset value) s u ∧ u.chip = .oracle answers ∧
      u.res = (if e = value then 1 else 0) ∧
      u.bus = ([BusEvent.write 0x5555 0xAA, .write 0x2AAA 0x55, .write 0x5555 0xA0,
          .write (flashAddr sector offset.toNat) value] ++
        ((pend ++ [e]).map fun b => BusEvent.read (flashAddr sector offset.toNat) b) ++
        (if e = value then [] else [BusEvent.write 0x5555 0xF0])).reverse ++ s.bus ∧
      u.count.toNat = cyclesOf (s.draws + 5) (pend.length + 3) % 2 ^ 32 ∧
      OnlyTimedBusAndRes s u

/-- R203: while the chip answers neither condition, an erase or a program never returns: after any
number of steps the operation still runs and RES is not written; inside a timed one IME stays 0. -/
def Obligations.PollHangsWhilePending : Prop :=
  ∀ (s : State) (sector : Sector) (offset : Offset) (value : Byte) (pend : List Byte) (k : Nat)
    (i : Instr) (expected : Byte), Idle s →
    (i = .eraseSector sector ∨ i = .eraseSectorTimed sector) ∧ expected = 0xFF ∨
      (i = .programByte sector offset value ∨ i = .programByteTimed sector offset value) ∧
        expected = value →
    s.chip = .oracle pend → (∀ b ∈ pend, b ≠ expected ∧ b &&& 0x20 = 0) → k ≤ pend.length →
    ∃ t u, exec i s = .next t ∧ Host.Core.run core k t = .next u ∧ u.busy = true ∧ u.res = s.res ∧
      (i = .eraseSectorTimed sector ∨ i = .programByteTimed sector offset value → 0 < k →
        u.ime = false)

/-! ## COND -/

/-- R160 on a chip that programs and verifies at once (V-C1): one pass, 16384 writes and 8192 reads in
ascending order; nothing of FSTE is written but RES. -/
def Obligations.ZeroSectorCompletes : Prop :=
  ∀ (s : State) (sector : Sector) (answers : List Byte), Idle s →
    s.chip = .oracle (List.replicate 8192 0x00 ++ answers) →
    ∃ u, Returns (.zeroSector sector) s u ∧ u.chip = .oracle answers ∧
      u.bus = (((List.range 4096).flatMap fun o =>
          [BusEvent.write 0x5555 0xAA, .write 0x2AAA 0x55, .write 0x5555 0xA0,
           .write (flashAddr sector o) 0x00, .read (flashAddr sector o) 0x00]) ++
        ((List.range 4096).map fun o => BusEvent.read (flashAddr sector o) 0x00)).reverse ++ s.bus ∧
      OnlyBusAndRes s u

/-- R160, R163: whatever the chip does, when ZeroSector has returned, the last 4096 cycles were reads of
the whole sector in order, and each answered 0x00. -/
def Obligations.ZeroSectorReturnsVerified : Prop :=
  ∀ (s t u : State) (sector : Sector) (k : Nat), Idle s →
    exec (.zeroSector sector) s = .next t → Host.Core.run core k t = .next u → u.seq.todo = [] →
    u.bus.take 4096 =
      ((List.range 4096).map fun o => BusEvent.read (flashAddr sector o) 0x00).reverse

/-- R162 on a chip that programs and verifies at once (V-C2): PBUF takes the next 4096 bytes of the
stream, on first use from the first seeding attempt of R111 that is not all zero, with SCR as that
attempt leaves it; the generator advances 4096 times, and one pass programs and reads back exactly
PBUF. -/
def Obligations.RandomizeSectorCompletes : Prop :=
  ∀ (s : State) (sector : Sector) (answers : List Byte), Idle s →
    ∃ (g : Gen) (scr : U64) (u : State),
      (s.genInit = true → g = s.gen ∧ scr = s.scr) ∧
      (s.genInit = false → ∃ n, (∀ j < n, seedWords (scrAfter s.scr j) = Gen.zero) ∧
        g = seedWords (scrAfter s.scr n) ∧ g ≠ Gen.zero ∧ scr = scrAfter s.scr (n + 1)) ∧
      Returns (.randomizeSector sector)
        { s with chip := .oracle ((List.range 4096).map (streamByte g) ++
            (List.range 4096).map (streamByte g) ++ answers) } u ∧
      u.chip = .oracle answers ∧ u.genInit = true ∧ u.gen = genAdvance^[4096] g ∧ u.scr = scr ∧
      (∀ o < 4096, u.pbufRead o = streamByte g o) ∧
      u.bus = (((List.range 4096).flatMap fun o =>
          [BusEvent.write 0x5555 0xAA, .write 0x2AAA 0x55, .write 0x5555 0xA0,
           .write (flashAddr sector o) (streamByte g o),
           .read (flashAddr sector o) (streamByte g o)]) ++
        ((List.range 4096).map fun o =>
          BusEvent.read (flashAddr sector o) (streamByte g o))).reverse ++ s.bus ∧
      OnlyBusAndRes { s with scr := u.scr, gen := u.gen, genInit := u.genInit, pbuf := u.pbuf } u

/-- R162, R163: whatever the chip does, when RandomizeSector has returned, the last 4096 cycles were
reads of the whole sector in order, and each answered the buffered byte. -/
def Obligations.RandomizeSectorReturnsVerified : Prop :=
  ∀ (s t u : State) (sector : Sector) (k : Nat), Idle s →
    exec (.randomizeSector sector) s = .next t → Host.Core.run core k t = .next u →
    u.seq.todo = [] →
    u.bus.take 4096 =
      ((List.range 4096).map fun o => BusEvent.read (flashAddr sector o) (u.pbufRead o)).reverse

/-! ## STAT -/

/-- R170, R171: SaveResults writes one record, computed from SAMP[0 .. n − 1] alone in exact integer
arithmetic: least, greatest, mean by the digit rule, and the failures; RES is unspecified (log 10). That
the operation is one engine step, with its Tick (R15), is the model's granularity (logs 1, 2, DEDUCED). -/
def Obligations.SaveResultsWritesRecord : Prop :=
  ∀ (s : State) (battery : BitVec 3) (b : Battery) (sector : Sector) (n maxPossible : U16),
    batteryOf battery = some b → n.toNat ≤ maxPossible.toNat → maxPossible.toNat ≤ 40960 →
    ∃ t, exec (.saveResults battery sector n maxPossible) s = .next t ∧
      t = State.tick { s with
        result := t.result, draws := s.draws + 1, res := Config.unspecifiedRes s.draws } ∧
      (∀ b' sector', b' ≠ b ∨ sector' ≠ sector → t.resultRead b' sector' = s.resultRead b' sector') ∧
      (n.toNat = 0 → t.resultRead b sector = ⟨0, 0, 0, BitVec.ofNat 32 maxPossible.toNat⟩) ∧
      (0 < n.toNat →
        (∃ i < n.toNat, (t.resultRead b sector).min = s.sampRead i) ∧
        (∀ i < n.toNat, (t.resultRead b sector).min ≤ s.sampRead i) ∧
        (∃ i < n.toNat, (t.resultRead b sector).max = s.sampRead i) ∧
        (∀ i < n.toNat, s.sampRead i ≤ (t.resultRead b sector).max) ∧
        (t.resultRead b sector).mean.toNat =
          (let scaled := ((List.range n.toNat).map fun i => (s.sampRead i).toNat).sum * 10 / n.toNat
           if 5 ≤ scaled % 10 then scaled / 10 + 1 else scaled / 10) ∧
        (t.resultRead b sector).fail.toNat = maxPossible.toNat - n.toNat)

/-- R172, R36: the mean written is the sum over the count rounded to the nearest integer, a half up,
and lies between the least and the greatest sample. -/
def Obligations.MeanIsRoundedHalfUp : Prop :=
  ∀ (samples : List U32) (maxPossible : Nat), samples ≠ [] → samples.length ≤ 40960 →
    (summarise samples maxPossible).mean.toNat =
      (2 * (samples.map BitVec.toNat).sum + samples.length) / (2 * samples.length) ∧
    (summarise samples maxPossible).min ≤ (summarise samples maxPossible).mean ∧
    (summarise samples maxPossible).mean ≤ (summarise samples maxPossible).max

/-- R173: the record does not depend on the order of the samples. -/
def Obligations.RecordIgnoresSampleOrder : Prop :=
  ∀ (l k : List U32) (maxPossible : Nat), l.Perm k →
    summarise l maxPossible = summarise k maxPossible

/-- R97 at the meanings: SaveResults and RunBattery stop on operands out of range, before any effect. -/
def Obligations.IllFormedOperationsAreRefused : Prop :=
  (∀ (s : State) (i : Instr), i.wf = false → ∃ o, exec i s = .refused (.operandOutOfRange o)) ∧
  (∀ (s : State) (i : Instr), i.wf = true → ∃ t, exec i s = .next t)

/-! ## ORCH -/

/-- For every battery there are answers of the chip on which it returns: the 32 records of the battery
show no failure, the other batteries' records stay, the timer ends Stopped with interrupts
enabled, and only the two random batteries draw from the PRNG (R181 to R190). -/
def Obligations.RunBatteryCompletes : Prop :=
  ∀ (s : State) (battery : BitVec 3) (b : Battery), Idle s → batteryOf battery = some b →
    ∃ needed : List Byte, ∀ answers : List Byte,
      ∃ u, Returns (.runBattery battery) { s with chip := .oracle (needed ++ answers) } u ∧
        u.chip = .oracle answers ∧
        (∀ sector, (u.resultRead b sector).fail = 0) ∧
        (∀ b' sector, b' ≠ b → u.resultRead b' sector = s.resultRead b' sector) ∧
        (b ≠ .eraseAfterRandom → b ≠ .programRandom →
          u.scr = s.scr ∧ u.gen = s.gen ∧ u.genInit = s.genInit ∧ u.pbuf = s.pbuf) ∧
        OnlyBattery s u

/-- There are answers of the chip on which a full test returns. Then the chip has seen the six batteries
in order, each over the 32 sectors with its bank switches, erases, passes and programs, and nothing
else; battery 3 wrote the first 1310720 bytes of the stream and battery 6 the next; every one of the
192 records is that of a full set of samples, 10 or 40960 of them, each the cycles of three Ticks
(log 2, DEDUCED: the tests of a poll belong to the read's step); and the timer ends Stopped with interrupts enabled (R181 to R191). -/
def Obligations.RunFullTestCompletes : Prop :=
  ∀ s : State, Idle s →
    ∃ (needed : List Byte) (g : Gen) (scr : U64), SeedsTo s g scr ∧ ∀ answers : List Byte,
      ∃ u, Returns .runFullTest { s with chip := .oracle (needed ++ answers) } u ∧
        u.chip = .oracle answers ∧
        u.bus = (fullTestCycles (streamByte g)).reverse ++ s.bus ∧
        u.genInit = true ∧ u.gen = genAdvance^[2621440] g ∧ u.scr = scr ∧
        (∀ sector, ∀ b ∈ [Battery.eraseAfterFF, .eraseAfter00, .eraseAfterRandom],
          Measured (u.resultRead b sector) 10) ∧
        (∀ sector, ∀ b ∈ [Battery.programFF, .program00, .programRandom],
          Measured (u.resultRead b sector) 40960) ∧
        (∀ b sector, (u.resultRead b sector).fail = 0) ∧ OnlyBattery s u

/-- R191: RunFullTest begins by clearing all 192 records. That it does so in one engine step, with its Tick
(R15), and that the batteries then stand in a list of pending steps, is the model's form (logs 1, 2,
DEDUCED). -/
def Obligations.RunFullTestClearsResults : Prop :=
  ∀ s : State, ∃ t, exec .runFullTest s = .next t ∧
    (∀ b sector, t.resultRead b sector = ⟨0, 0, 0, 0⟩) ∧
    t = State.tick { s with
      result := t.result
      seq := { s.seq with todo :=
        [.batteries [.eraseAfterFF, .eraseAfter00, .eraseAfterRandom, .programFF, .program00,
          .programRandom], .ret .none] ++ s.seq.todo } }

/-- R183: the sector loop of a battery switches the bank exactly at sectors 0 and 16, to bank 0 and 1,
before the sector's body and SaveResults. That the loop head is an engine step of its own, with its Tick
(R15), is the model's form (logs 1, 2, DEDUCED), and no words of R183. -/
def Obligations.BankSwitchedAtBankStart : Prop :=
  ∀ (s : State) (b : Battery) (i : Nat) (rest : List Micro), s.host = [] → i < 32 →
    s.seq.todo = .sectorLoop b i :: rest →
    ∃ t, step s = .next t ∧
      t = State.tick { s with seq := { s.seq with todo :=
        (if i = 0 ∨ i = 16 then
          [.cycle .unlock1, .cycle .unlock2, .cycle .cmdBank,
           .cycle (.bankData (if i = 0 then 0 else 1))] else []) ++
        [.sectorBody b (BitVec.ofNat 5 i), .saveSector b (BitVec.ofNat 5 i),
         .sectorLoop b (i + 1)] ++ rest } }

/-- R182: after a timed primitive that succeeded the count is appended at index n; after one that
failed nothing is. That collection is an engine step of its own, with its Tick (R15), is the model's form (logs 1, 2,
DEDUCED). -/
def Obligations.SampleCollected : Prop :=
  ∀ (s : State) (rest : List Micro), s.host = [] → s.seq.todo = .collect :: rest →
    (s.seq.ok = true → s.tmrState = .stopped → s.seq.n < 40960 →
      ∃ t, step s = .next t ∧ t.seq = { s.seq with todo := rest, n := s.seq.n + 1 } ∧
        t.sampRead s.seq.n = s.count ∧ (∀ j, j ≠ s.seq.n → t.sampRead j = s.sampRead j) ∧
        t = State.tick { s with seq := t.seq, samp := t.samp }) ∧
    (s.seq.ok = false → step s = .next (State.tick { s with seq := { s.seq with todo := rest } }))

/-- R185 to R190: what a sector body and each of its ten trials consist of, battery by battery, down to the
cycles and timer calls of R144, R145 and R147. A program battery times all 4096 bytes in ascending
order, each with 0xFF, with 0x00 or with the buffered byte. That the loop heads are engine steps of
their own, each with its Tick (R15), is the model's form (logs 1, 2, DEDUCED). -/
def Obligations.SectorBodySteps : Prop :=
  ∀ (s : State) (b : Battery) (sector : Sector) (t off : Nat) (rest : List Micro), s.host = [] →
    let sec : BankSector := BitVec.ofNat 4 (sector.toNat % 16)
    let unlock : List Micro := [.cycle .unlock1, .cycle .unlock2]
    let setup := unlock ++ [.cycle .cmdEraseSetup] ++ unlock
    let poll : List Micro := [.cycle (.sectorErase sec), .poll sec 0 0xFF]
    let gate := setup ++ poll ++ [.abortOnFailure, .eraseGate sector]
    let erase := [.setupTimer] ++ setup ++ [.startTimer] ++ poll ++
      [.endTimer, .abortOnFailure, .collect]
    (s.seq.todo = .sectorBody b sector :: rest →
      step s = .next (State.tick { s with seq := { s.seq with
        n := 0
        todo := (if b = .eraseAfterFF then gate else []) ++ .trial b sector 0 :: rest } })) ∧
    (s.seq.todo = .trial b sector t :: rest →
      step s = .next (State.tick { s with seq := { s.seq with todo :=
        (if t < 10 then
          (match b with
          | .eraseAfterFF => erase
          | .eraseAfter00 => [.fill .zero sector 0] ++ erase
          | .eraseAfterRandom => [.drawPbuf 0, .fill .random sector 0] ++ erase
          | .programFF | .program00 => gate ++ [.programLoop b sector 0]
          | .programRandom => gate ++ [.drawPbuf 0, .programLoop b sector 0]) ++
          [.trial b sector (t + 1)] else []) ++ rest } })) ∧
    (s.seq.todo = .programLoop b sector off :: rest →
      ∀ v, (b, v) ∈ [(Battery.programFF, (0xFF : Byte)), (.program00, 0x00),
          (.programRandom, s.pbufRead off)] →
        let offset : Offset := BitVec.ofNat 12 off
        step s = .next (State.tick { s with seq := { s.seq with todo :=
          (if off < 4096 then
            [.setupTimer] ++ unlock ++ [.cycle .cmdProgram, .startTimer,
              .cycle (.programData sec offset v), .poll sec offset v, .endTimer, .abortOnFailure,
              .collect, .programLoop b sector (off + 1)] else []) ++ rest } }))

/-- R161, R184: a failed erase of the gate, and a failed program of a pass, is issued again, with no count
and no other exit; R160, R162: a pass programs all 4096 bytes in ascending order, reads all of them back
with no early exit, and is repeated from its first byte, with PBUF as it was, unless the readback was
clean. That the tests and loop heads are engine steps of their own, each with its Tick (R15), is the
model's form (logs 1, 2, DEDUCED). -/
def Obligations.RetriesAndRepeatedPasses : Prop :=
  ∀ (s : State) (sector : Sector) (offset : Offset) (value : Byte) (src : Fill) (off : Nat)
    (rest : List Micro), s.host = [] →
    let sec : BankSector := BitVec.ofNat 4 (sector.toNat % 16)
    let unlock : List Micro := [.cycle .unlock1, .cycle .unlock2]
    let program (offset : Offset) (value : Byte) : List Micro := unlock ++
      [.cycle .cmdProgram, .cycle (.programData sec offset value), .poll sec offset value,
        .abortOnFailure, .retryProgram sector offset value]
    (s.seq.todo = .eraseGate sector :: rest →
      step s = .next (State.tick { s with seq := { s.seq with todo :=
        (if s.seq.ok then [] else unlock ++ [.cycle .cmdEraseSetup] ++ unlock ++
          [.cycle (.sectorErase sec), .poll sec 0 0xFF, .abortOnFailure, .eraseGate sector]) ++
          rest } })) ∧
    (s.seq.todo = .retryProgram sector offset value :: rest →
      step s = .next (State.tick { s with seq := { s.seq with todo :=
        (if s.seq.ok then [] else program offset value) ++ rest } })) ∧
    (s.seq.todo = .fill src sector off :: rest →
      step s = .next (State.tick { s with seq :=
        if off < 4096 then
          { s.seq with todo := program (BitVec.ofNat 12 off) (match src with
              | .zero => 0x00
              | .random => s.pbufRead off) ++ .fill src sector (off + 1) :: rest }
        else
          match src with
          | .zero => { s.seq with clean := true, todo := .verify .zero sector 0 :: rest }
          | .random => { s.seq with matched := 0, todo := .verify .random sector 0 :: rest } })) ∧
    (s.seq.todo = .verify src sector off :: rest →
      step s = .next (State.tick { s with seq := { s.seq with todo :=
        (if off < 4096 then
          [.cycle (.rdVerify sec (BitVec.ofNat 12 off)), .verifyTest src off,
            .verify src sector (off + 1)]
        else if (src = .zero ∧ s.seq.clean = true) ∨ (src = .random ∧ s.seq.matched = 4096) then []
        else [.fill src sector 0]) ++ rest } })) ∧
    (s.seq.todo = .verifyTest src off :: rest →
      step s = .next (State.tick { s with seq :=
        match src with
        | .zero => { s.seq with todo := rest, clean := if s.seq.last = 0x00 then s.seq.clean else false }
        | .random => { s.seq with
            todo := rest
            matched := s.seq.matched + if s.seq.last = s.pbufRead off then 1 else 0 } }))

/-- R181, R191: after the body, the sector's record is that of SAMP[0 .. n − 1] out of 10 or 40960
attempts and every other record stays; after sector 31 the battery ends; the batteries run one after
the other. That saving and the loop heads are engine steps of their own, each with its Tick (R15), is the
model's form (logs 1, 2, DEDUCED). -/
def Obligations.SectorsSavedAndBatteriesInOrder : Prop :=
  ∀ (s : State) (b : Battery) (sector : Sector) (i : Nat) (rest : List Micro)
    (left : List Battery), s.host = [] →
    (s.seq.todo = .saveSector b sector :: rest →
      ∃ t, step s = .next t ∧
        t = State.tick { s with result := t.result, seq := { s.seq with todo := rest } } ∧
        (∀ maxPossible, (b, maxPossible) ∈ [(Battery.eraseAfterFF, 10), (.eraseAfter00, 10),
            (.eraseAfterRandom, 10), (.programFF, 40960), (.program00, 40960),
            (.programRandom, 40960)] →
          t.resultRead b sector =
            summarise ((List.range s.seq.n).map s.sampRead) maxPossible) ∧
        ∀ b' sector', b' ≠ b ∨ sector' ≠ sector →
          t.resultRead b' sector' = s.resultRead b' sector') ∧
    (s.seq.todo = .sectorLoop b i :: rest → 32 ≤ i →
      step s = .next (State.tick { s with seq := { s.seq with todo := rest } })) ∧
    (s.seq.todo = .batteries (b :: left) :: rest →
      step s = .next (State.tick { s with seq := { s.seq with todo :=
        [.sectorLoop b 0, .batteries left] ++ rest } })) ∧
    (s.seq.todo = .batteries [] :: rest →
      step s = .next (State.tick { s with seq := { s.seq with todo := rest } }))

/-! ## The whole machine -/

/-- R42, R220: what reset leaves, where the spec gives a value. -/
def Obligations.ResetValues : Prop :=
  State.reset.genInit = false ∧ State.reset.tloEn = false ∧ State.reset.thiEn = false ∧
  State.reset.thiCascade = false ∧ State.reset.tmrState = .idle ∧
  State.reset.scr = Config.scrSeed ∧ State.reset.seq = Sequencer.empty

/-- The invariant holds after reset. -/
def Obligations.InvariantAfterReset : Prop := State.reset.Inv

/-- Every step keeps the invariant: the stores' canonical forms and sizes, a seeded generator never all
zero, interrupts masked and the counters armed from SetupTimer to EndTimer, an empty sequencer when
nothing is pending, and room for every sample still to come. -/
def Obligations.StepKeepsInvariant : Prop :=
  ∀ s t : State, s.Inv → step s = .next t → t.Inv

/-- R200, R182: from a state of the invariant no step faults. The one fault of the model is its own, for
a sample past SAMP's end (log 19, DEDUCED); the statement says it is never raised. -/
def Obligations.StepNeverFaults : Prop :=
  ∀ (s : State) (f : Fault), s.Inv → step s ≠ .fault f

/-- The bus is in the language of R95 after reset. -/
def Obligations.BusInLanguageAfterReset : Prop := State.reset.BusInLanguage

/-- R57, R95, R98: FSTE emits no cycle but those of the command sequences of R95 and the readbacks
between them: every step keeps the bus in that language. -/
def Obligations.StepKeepsBusInLanguage : Prop :=
  ∀ s t : State, s.BusInLanguage → step s = .next t → t.BusInLanguage

/-- R222, R221: an external reset discards the running operation and the registers, at any step
boundary, and leaves the chip as it is; it sends no bus cycle. -/
def Obligations.ExternalResetEffect : Prop :=
  ∀ (s : State) (rest : List HostMove), s.host = .reset :: rest →
    ∃ t, step s = .next t ∧ t.seq = Sequencer.empty ∧ t.genInit = false ∧ t.tloEn = false ∧
      t.thiEn = false ∧ t.thiCascade = false ∧ t.tmrState = .idle ∧ t.scr = Config.scrSeed ∧
      t.chip = s.chip ∧ t.host = rest ∧ t.bus = .resetHere :: s.bus

/-- R129, V7: between timed primitives other software writes one of the counters, their controls and IME,
and nothing else changes; while TMR_STATE is Armed or Running it is refused. -/
def Obligations.PlatformWritesOnlyBetweenTimedPrimitives : Prop :=
  ∀ (s : State) (w : PlatformWrite) (rest : List HostMove), s.seq.todo = [] →
    s.host = .platform w :: rest →
    (s.tmrState = .armed ∨ s.tmrState = .running → step s = .refused .timerInUse) ∧
    (s.tmrState = .idle ∨ s.tmrState = .stopped →
      step s = .next (match w with
        | .tloCnt v => { s with host := rest, tloCnt := v }
        | .thiCnt v => { s with host := rest, thiCnt := v }
        | .tloCtl en => { s with host := rest, tloEn := en }
        | .thiCtl en cascade => { s with host := rest, thiEn := en, thiCascade := cascade }
        | .ime v => { s with host := rest, ime := v }))

/-- R90: the port takes no request while an operation runs. -/
def Obligations.RequestWaitsWhileBusy : Prop :=
  ∀ (s : State) (r : Request) (rest : List HostMove) (t : State), s.busy = true →
    s.host = .issue r :: rest → step s = .next t →
    t.host = s.host ∧ t.opsel = s.opsel ∧ t.arg0 = s.arg0 ∧ t.arg1 = s.arg1 ∧ t.arg2 = s.arg2

/-- Who writes what inside a running operation (R24 to R35, R208): every register, buffer and table is
written only by the steps whose rules name it, and every step ends in its one Tick (R15), by whose
cycles, the last value the step draws, the counters advance as the controls then stand (R124), from
zero after SetupTimer. What is a step is the model's form (logs 1, 2, DEDUCED). -/
def Obligations.EachRegisterHasItsWriters : Prop :=
  ∀ (s t : State) (m : Micro) (rest : List Micro), s.host = [] → s.seq.todo = m :: rest →
    (∀ i, m = .cycle i → i.busRow ≠ none) → step s = .next t →
    (t.scr = s.scr ∧ t.gen = s.gen ∧ t.genInit = s.genInit ∨ (∃ off, m = .drawPbuf off) ∨
      m = .seedRetry) ∧
    (t.pbuf = s.pbuf ∨ ∃ off, m = .drawPbuf off) ∧
    (t.samp = s.samp ∨ m = .collect) ∧
    (t.result = s.result ∨ ∃ b sector, m = .saveSector b sector) ∧
    (t.flashId = s.flashId ∨ m = .latchId) ∧
    (t.ime = s.ime ∨ m = .setupTimer ∨ m = .endTimer) ∧
    (t.tmrState = s.tmrState ∧ t.tloEn = s.tloEn ∨ m = .setupTimer ∨ m = .startTimer ∨
      m = .endTimer) ∧
    (t.thiEn = s.thiEn ∧ t.thiCascade = s.thiCascade ∨ m = .setupTimer) ∧
    EndsInTick (if m = .setupTimer then { s with tloCnt := 0, thiCnt := 0 } else s) t ∧
    (t.chip = s.chip ∧ t.bus = s.bus ∨ (∃ i, m = .cycle i) ∨
      ∃ sec offset expected, m = .poll sec offset expected) ∧
    (t.res = s.res ∨ (∃ kind, m = .ret kind) ∨ m = .seedRetry) ∧
    t.opsel = s.opsel ∧ t.arg0 = s.arg0 ∧ t.arg1 = s.arg1 ∧ t.arg2 = s.arg2 ∧ t.epoch = s.epoch

/-- R231, R41: the host sees RESULT and FLASHID exactly while no operation runs. -/
def Obligations.HostReadsOnlyBetweenOperations : Prop :=
  ∀ (s : State) (b : Battery) (sector : Sector),
    (s.seq.todo = [] →
      s.hostResult b sector = some (s.resultRead b sector) ∧ s.hostFlashId = some s.flashId) ∧
    (s.seq.todo ≠ [] → s.hostResult b sector = none ∧ s.hostFlashId = none)

/-! ## The bus cycles -/

/-- R94, R52: each write row drives its offset and byte once, the chip sees it, one Tick passes, and
nothing else changes. -/
def Obligations.BusWritesComplete : Prop :=
  ∀ (s : State) (i : Instr) (off : U16) (v : Byte) (sec : BankSector) (offset : Offset)
    (value : Byte) (bank : BitVec 1),
    (i, off, v) ∈ [(Instr.unlock1, (0x5555 : U16), (0xAA : Byte)), (.unlock2, 0x2AAA, 0x55),
      (.cmdIdEntry, 0x5555, 0x90), (.cmdIdExit, 0x5555, 0xF0), (.cmdBank, 0x5555, 0xB0),
      (.bankData bank, 0x0000, bank.setWidth 8), (.cmdEraseSetup, 0x5555, 0x80),
      (.sectorErase sec, BitVec.ofNat 16 (sec.toNat * 4096), 0x30), (.cmdProgram, 0x5555, 0xA0),
      (.programData sec offset value, BitVec.ofNat 16 (sec.toNat * 4096 + offset.toNat), value),
      (.abort, 0x5555, 0xF0)] →
    ∃ t, exec i s = .next t ∧ t.bus = .write off v :: s.bus ∧
      t.chip = (s.chip.write off v s.draws).1 ∧
      t = State.tick { s with
        chip := t.chip, draws := (s.chip.write off v s.draws).2, bus := t.bus }

/-- R94, R52: each read row drives its offset once, the byte the chip answers goes where the running
operation uses it, one Tick passes, and nothing else changes. -/
def Obligations.BusReadsComplete : Prop :=
  ∀ (s : State) (i : Instr) (off : U16) (sec : BankSector) (offset : Offset),
    (i, off) ∈ [(Instr.rdId0, (0x0000 : U16)), (.rdId1, 0x0001),
      (.rdPoll sec offset, BitVec.ofNat 16 (sec.toNat * 4096 + offset.toNat)),
      (.rdVerify sec offset, BitVec.ofNat 16 (sec.toNat * 4096 + offset.toNat))] →
    ∃ (t : State) (b : Byte), b = (s.chip.read off s.draws).byte ∧ exec i s = .next t ∧
      t.bus = .read off b :: s.bus ∧ t.chip = (s.chip.read off s.draws).chip ∧
      t.seq = (match i with
        | .rdId0 => { s.seq with idManuf := b }
        | .rdId1 => { s.seq with idDevice := b }
        | _ => { s.seq with last := b }) ∧
      t = { State.tick { s with
          chip := t.chip, draws := (s.chip.read off s.draws).draws, bus := t.bus } with seq := t.seq }

/-! ## The reference device -/

/-- R70, R71: while busy, the status byte is never the final data and never has bit 5; after a failure it
has bit 5 and is not the final data; whatever the free bits. -/
def Obligations.StatusByteTellsBusyFromDone : Prop :=
  ∀ (final free : Byte) (tog : Bool),
    pollStatus final (statusByte final tog false free) = .pending ∧
    pollStatus final (statusByte final tog true free) = .failed

/-- R68 to R72 under R144: EraseSector on the reference device, idle in array mode, erases the sector of
the active bank and returns true after the busy reads, or on a failing draw aborts, returns false and
leaves the array. -/
def Obligations.ReferenceDeviceErases : Prop :=
  ∀ (s : State) (d : Device) (sector : Sector) (busy : Nat) (fails : Bool)
    (script : List (Nat × Bool)), Idle s → s.chip = .reference d → d.op = none → d.mode = .array →
    d.seq = .s0 → d.script = (busy, fails) :: script →
    ∃ u, Returns (.eraseSector sector) s u ∧ u.res = (if fails then 0 else 1) ∧
      u.chip = .reference { d with
        script := script
        arr := if fails then d.arr
          else Memory.eraseSector d.arr (cellAddr d.bank (flashAddr sector 0)) } ∧
      u.bus.length = s.bus.length + 6 + (busy + 1) + (if fails then 1 else 0) ∧
      OnlyBusAndRes s u

/-- R66, R69 to R72 under R146: ProgramByte of a value that only clears bits, on the reference device idle
in array mode. -/
def Obligations.ReferenceDevicePrograms : Prop :=
  ∀ (s : State) (d : Device) (sector : Sector) (offset : Offset) (value : Byte) (busy : Nat)
    (fails : Bool) (script : List (Nat × Bool)), Idle s → s.chip = .reference d → d.op = none →
    d.mode = .array → d.seq = .s0 → d.script = (busy, fails) :: script →
    Memory.read d.arr (cellAddr d.bank (flashAddr sector offset.toNat)) &&& value = value →
    ∃ u, Returns (.programByte sector offset value) s u ∧ u.res = (if fails then 0 else 1) ∧
      u.chip = .reference { d with
        script := script
        arr := if fails then d.arr
          else Memory.write d.arr (cellAddr d.bank (flashAddr sector offset.toNat)) value } ∧
      u.bus.length = s.bus.length + 4 + (busy + 1) + (if fails then 1 else 0) ∧
      OnlyBusAndRes s u

/-- R62 to R65, R73 under R142 and R143: on the reference device idle in array mode, ReadFlashID latches
{DEVICE, MANUF} in FLASHID and leaves the device in array mode, and SwitchFlashBank makes its bank active. -/
def Obligations.ReferenceDeviceIdAndBank : Prop :=
  ∀ (s : State) (d : Device) (bank : BitVec 1), Idle s → s.chip = .reference d → d.op = none →
    d.mode = .array → d.seq = .s0 →
    (∃ u, Returns .readFlashID s u ∧ u.flashId = d.device ++ d.manuf ∧ u.chip = .reference d) ∧
    (∃ u, Returns (.switchFlashBank bank) s u ∧ u.chip = .reference { d with bank := bank })

/-- R72, R54: a byte of the device's array reads as last written or erased, and every other byte reads as
before. -/
def Obligations.DeviceArrayReadsBack : Prop :=
  ∀ (arr : Memory) (bank bank' : BitVec 1) (off off' : U16) (v : Byte),
    Memory.read (Memory.write arr (cellAddr bank off) v) (cellAddr bank' off') =
      (if bank' = bank ∧ off' = off then v else Memory.read arr (cellAddr bank' off')) ∧
    Memory.read (Memory.eraseSector arr (cellAddr bank (off &&& 0xF000))) (cellAddr bank' off') =
      (if bank' = bank ∧ off' &&& 0xF000 = off &&& 0xF000 then 0xFF
        else Memory.read arr (cellAddr bank' off'))
end

