-- ==== Sys2Proof/Laws/State.lean ====
section
/-! SUPPORT. One lemma per field per update of State, so that no later proof unfolds a record update. -/

namespace Sys2Proof.Machine

/-! ### withTodo -/

@[simp] theorem State.withTodo_scr (s : State) (l : List Micro) : (s.withTodo l).scr = s.scr := rfl
@[simp] theorem State.withTodo_gen (s : State) (l : List Micro) : (s.withTodo l).gen = s.gen := rfl
@[simp] theorem State.withTodo_genInit (s : State) (l : List Micro) : (s.withTodo l).genInit = s.genInit := rfl
@[simp] theorem State.withTodo_tloCnt (s : State) (l : List Micro) : (s.withTodo l).tloCnt = s.tloCnt := rfl
@[simp] theorem State.withTodo_thiCnt (s : State) (l : List Micro) : (s.withTodo l).thiCnt = s.thiCnt := rfl
@[simp] theorem State.withTodo_tloEn (s : State) (l : List Micro) : (s.withTodo l).tloEn = s.tloEn := rfl
@[simp] theorem State.withTodo_thiEn (s : State) (l : List Micro) : (s.withTodo l).thiEn = s.thiEn := rfl
@[simp] theorem State.withTodo_thiCascade (s : State) (l : List Micro) : (s.withTodo l).thiCascade = s.thiCascade := rfl
@[simp] theorem State.withTodo_tmrState (s : State) (l : List Micro) : (s.withTodo l).tmrState = s.tmrState := rfl
@[simp] theorem State.withTodo_ime (s : State) (l : List Micro) : (s.withTodo l).ime = s.ime := rfl
@[simp] theorem State.withTodo_flashId (s : State) (l : List Micro) : (s.withTodo l).flashId = s.flashId := rfl
@[simp] theorem State.withTodo_pbuf (s : State) (l : List Micro) : (s.withTodo l).pbuf = s.pbuf := rfl
@[simp] theorem State.withTodo_samp (s : State) (l : List Micro) : (s.withTodo l).samp = s.samp := rfl
@[simp] theorem State.withTodo_result (s : State) (l : List Micro) : (s.withTodo l).result = s.result := rfl
@[simp] theorem State.withTodo_opsel (s : State) (l : List Micro) : (s.withTodo l).opsel = s.opsel := rfl
@[simp] theorem State.withTodo_arg0 (s : State) (l : List Micro) : (s.withTodo l).arg0 = s.arg0 := rfl
@[simp] theorem State.withTodo_arg1 (s : State) (l : List Micro) : (s.withTodo l).arg1 = s.arg1 := rfl
@[simp] theorem State.withTodo_arg2 (s : State) (l : List Micro) : (s.withTodo l).arg2 = s.arg2 := rfl
@[simp] theorem State.withTodo_res (s : State) (l : List Micro) : (s.withTodo l).res = s.res := rfl
@[simp] theorem State.withTodo_seq (s : State) (l : List Micro) : (s.withTodo l).seq = { s.seq with todo := l } := rfl
@[simp] theorem State.withTodo_chip (s : State) (l : List Micro) : (s.withTodo l).chip = s.chip := rfl
@[simp] theorem State.withTodo_bus (s : State) (l : List Micro) : (s.withTodo l).bus = s.bus := rfl
@[simp] theorem State.withTodo_host (s : State) (l : List Micro) : (s.withTodo l).host = s.host := rfl
@[simp] theorem State.withTodo_draws (s : State) (l : List Micro) : (s.withTodo l).draws = s.draws := rfl
@[simp] theorem State.withTodo_epoch (s : State) (l : List Micro) : (s.withTodo l).epoch = s.epoch := rfl

/-! ### push -/

@[simp] theorem State.push_scr (s : State) (l : List Micro) : (s.push l).scr = s.scr := rfl
@[simp] theorem State.push_gen (s : State) (l : List Micro) : (s.push l).gen = s.gen := rfl
@[simp] theorem State.push_genInit (s : State) (l : List Micro) : (s.push l).genInit = s.genInit := rfl
@[simp] theorem State.push_tloCnt (s : State) (l : List Micro) : (s.push l).tloCnt = s.tloCnt := rfl
@[simp] theorem State.push_thiCnt (s : State) (l : List Micro) : (s.push l).thiCnt = s.thiCnt := rfl
@[simp] theorem State.push_tloEn (s : State) (l : List Micro) : (s.push l).tloEn = s.tloEn := rfl
@[simp] theorem State.push_thiEn (s : State) (l : List Micro) : (s.push l).thiEn = s.thiEn := rfl
@[simp] theorem State.push_thiCascade (s : State) (l : List Micro) : (s.push l).thiCascade = s.thiCascade := rfl
@[simp] theorem State.push_tmrState (s : State) (l : List Micro) : (s.push l).tmrState = s.tmrState := rfl
@[simp] theorem State.push_ime (s : State) (l : List Micro) : (s.push l).ime = s.ime := rfl
@[simp] theorem State.push_flashId (s : State) (l : List Micro) : (s.push l).flashId = s.flashId := rfl
@[simp] theorem State.push_pbuf (s : State) (l : List Micro) : (s.push l).pbuf = s.pbuf := rfl
@[simp] theorem State.push_samp (s : State) (l : List Micro) : (s.push l).samp = s.samp := rfl
@[simp] theorem State.push_result (s : State) (l : List Micro) : (s.push l).result = s.result := rfl
@[simp] theorem State.push_opsel (s : State) (l : List Micro) : (s.push l).opsel = s.opsel := rfl
@[simp] theorem State.push_arg0 (s : State) (l : List Micro) : (s.push l).arg0 = s.arg0 := rfl
@[simp] theorem State.push_arg1 (s : State) (l : List Micro) : (s.push l).arg1 = s.arg1 := rfl
@[simp] theorem State.push_arg2 (s : State) (l : List Micro) : (s.push l).arg2 = s.arg2 := rfl
@[simp] theorem State.push_res (s : State) (l : List Micro) : (s.push l).res = s.res := rfl
@[simp] theorem State.push_seq (s : State) (l : List Micro) : (s.push l).seq = { s.seq with todo := l ++ s.seq.todo } := rfl
@[simp] theorem State.push_chip (s : State) (l : List Micro) : (s.push l).chip = s.chip := rfl
@[simp] theorem State.push_bus (s : State) (l : List Micro) : (s.push l).bus = s.bus := rfl
@[simp] theorem State.push_host (s : State) (l : List Micro) : (s.push l).host = s.host := rfl
@[simp] theorem State.push_draws (s : State) (l : List Micro) : (s.push l).draws = s.draws := rfl
@[simp] theorem State.push_epoch (s : State) (l : List Micro) : (s.push l).epoch = s.epoch := rfl

/-! ### setOk -/

@[simp] theorem State.setOk_scr (s : State) (b : Bool) : (s.setOk b).scr = s.scr := rfl
@[simp] theorem State.setOk_gen (s : State) (b : Bool) : (s.setOk b).gen = s.gen := rfl
@[simp] theorem State.setOk_genInit (s : State) (b : Bool) : (s.setOk b).genInit = s.genInit := rfl
@[simp] theorem State.setOk_tloCnt (s : State) (b : Bool) : (s.setOk b).tloCnt = s.tloCnt := rfl
@[simp] theorem State.setOk_thiCnt (s : State) (b : Bool) : (s.setOk b).thiCnt = s.thiCnt := rfl
@[simp] theorem State.setOk_tloEn (s : State) (b : Bool) : (s.setOk b).tloEn = s.tloEn := rfl
@[simp] theorem State.setOk_thiEn (s : State) (b : Bool) : (s.setOk b).thiEn = s.thiEn := rfl
@[simp] theorem State.setOk_thiCascade (s : State) (b : Bool) : (s.setOk b).thiCascade = s.thiCascade := rfl
@[simp] theorem State.setOk_tmrState (s : State) (b : Bool) : (s.setOk b).tmrState = s.tmrState := rfl
@[simp] theorem State.setOk_ime (s : State) (b : Bool) : (s.setOk b).ime = s.ime := rfl
@[simp] theorem State.setOk_flashId (s : State) (b : Bool) : (s.setOk b).flashId = s.flashId := rfl
@[simp] theorem State.setOk_pbuf (s : State) (b : Bool) : (s.setOk b).pbuf = s.pbuf := rfl
@[simp] theorem State.setOk_samp (s : State) (b : Bool) : (s.setOk b).samp = s.samp := rfl
@[simp] theorem State.setOk_result (s : State) (b : Bool) : (s.setOk b).result = s.result := rfl
@[simp] theorem State.setOk_opsel (s : State) (b : Bool) : (s.setOk b).opsel = s.opsel := rfl
@[simp] theorem State.setOk_arg0 (s : State) (b : Bool) : (s.setOk b).arg0 = s.arg0 := rfl
@[simp] theorem State.setOk_arg1 (s : State) (b : Bool) : (s.setOk b).arg1 = s.arg1 := rfl
@[simp] theorem State.setOk_arg2 (s : State) (b : Bool) : (s.setOk b).arg2 = s.arg2 := rfl
@[simp] theorem State.setOk_res (s : State) (b : Bool) : (s.setOk b).res = s.res := rfl
@[simp] theorem State.setOk_seq (s : State) (b : Bool) : (s.setOk b).seq = { s.seq with ok := b } := rfl
@[simp] theorem State.setOk_chip (s : State) (b : Bool) : (s.setOk b).chip = s.chip := rfl
@[simp] theorem State.setOk_bus (s : State) (b : Bool) : (s.setOk b).bus = s.bus := rfl
@[simp] theorem State.setOk_host (s : State) (b : Bool) : (s.setOk b).host = s.host := rfl
@[simp] theorem State.setOk_draws (s : State) (b : Bool) : (s.setOk b).draws = s.draws := rfl
@[simp] theorem State.setOk_epoch (s : State) (b : Bool) : (s.setOk b).epoch = s.epoch := rfl

/-! ### setLast -/

@[simp] theorem State.setLast_scr (s : State) (b : Byte) : (s.setLast b).scr = s.scr := rfl
@[simp] theorem State.setLast_gen (s : State) (b : Byte) : (s.setLast b).gen = s.gen := rfl
@[simp] theorem State.setLast_genInit (s : State) (b : Byte) : (s.setLast b).genInit = s.genInit := rfl
@[simp] theorem State.setLast_tloCnt (s : State) (b : Byte) : (s.setLast b).tloCnt = s.tloCnt := rfl
@[simp] theorem State.setLast_thiCnt (s : State) (b : Byte) : (s.setLast b).thiCnt = s.thiCnt := rfl
@[simp] theorem State.setLast_tloEn (s : State) (b : Byte) : (s.setLast b).tloEn = s.tloEn := rfl
@[simp] theorem State.setLast_thiEn (s : State) (b : Byte) : (s.setLast b).thiEn = s.thiEn := rfl
@[simp] theorem State.setLast_thiCascade (s : State) (b : Byte) : (s.setLast b).thiCascade = s.thiCascade := rfl
@[simp] theorem State.setLast_tmrState (s : State) (b : Byte) : (s.setLast b).tmrState = s.tmrState := rfl
@[simp] theorem State.setLast_ime (s : State) (b : Byte) : (s.setLast b).ime = s.ime := rfl
@[simp] theorem State.setLast_flashId (s : State) (b : Byte) : (s.setLast b).flashId = s.flashId := rfl
@[simp] theorem State.setLast_pbuf (s : State) (b : Byte) : (s.setLast b).pbuf = s.pbuf := rfl
@[simp] theorem State.setLast_samp (s : State) (b : Byte) : (s.setLast b).samp = s.samp := rfl
@[simp] theorem State.setLast_result (s : State) (b : Byte) : (s.setLast b).result = s.result := rfl
@[simp] theorem State.setLast_opsel (s : State) (b : Byte) : (s.setLast b).opsel = s.opsel := rfl
@[simp] theorem State.setLast_arg0 (s : State) (b : Byte) : (s.setLast b).arg0 = s.arg0 := rfl
@[simp] theorem State.setLast_arg1 (s : State) (b : Byte) : (s.setLast b).arg1 = s.arg1 := rfl
@[simp] theorem State.setLast_arg2 (s : State) (b : Byte) : (s.setLast b).arg2 = s.arg2 := rfl
@[simp] theorem State.setLast_res (s : State) (b : Byte) : (s.setLast b).res = s.res := rfl
@[simp] theorem State.setLast_seq (s : State) (b : Byte) : (s.setLast b).seq = { s.seq with last := b } := rfl
@[simp] theorem State.setLast_chip (s : State) (b : Byte) : (s.setLast b).chip = s.chip := rfl
@[simp] theorem State.setLast_bus (s : State) (b : Byte) : (s.setLast b).bus = s.bus := rfl
@[simp] theorem State.setLast_host (s : State) (b : Byte) : (s.setLast b).host = s.host := rfl
@[simp] theorem State.setLast_draws (s : State) (b : Byte) : (s.setLast b).draws = s.draws := rfl
@[simp] theorem State.setLast_epoch (s : State) (b : Byte) : (s.setLast b).epoch = s.epoch := rfl

/-! ### clearSeq -/

@[simp] theorem State.clearSeq_scr (s : State) : s.clearSeq.scr = s.scr := rfl
@[simp] theorem State.clearSeq_gen (s : State) : s.clearSeq.gen = s.gen := rfl
@[simp] theorem State.clearSeq_genInit (s : State) : s.clearSeq.genInit = s.genInit := rfl
@[simp] theorem State.clearSeq_tloCnt (s : State) : s.clearSeq.tloCnt = s.tloCnt := rfl
@[simp] theorem State.clearSeq_thiCnt (s : State) : s.clearSeq.thiCnt = s.thiCnt := rfl
@[simp] theorem State.clearSeq_tloEn (s : State) : s.clearSeq.tloEn = s.tloEn := rfl
@[simp] theorem State.clearSeq_thiEn (s : State) : s.clearSeq.thiEn = s.thiEn := rfl
@[simp] theorem State.clearSeq_thiCascade (s : State) : s.clearSeq.thiCascade = s.thiCascade := rfl
@[simp] theorem State.clearSeq_tmrState (s : State) : s.clearSeq.tmrState = s.tmrState := rfl
@[simp] theorem State.clearSeq_ime (s : State) : s.clearSeq.ime = s.ime := rfl
@[simp] theorem State.clearSeq_flashId (s : State) : s.clearSeq.flashId = s.flashId := rfl
@[simp] theorem State.clearSeq_pbuf (s : State) : s.clearSeq.pbuf = s.pbuf := rfl
@[simp] theorem State.clearSeq_samp (s : State) : s.clearSeq.samp = s.samp := rfl
@[simp] theorem State.clearSeq_result (s : State) : s.clearSeq.result = s.result := rfl
@[simp] theorem State.clearSeq_opsel (s : State) : s.clearSeq.opsel = s.opsel := rfl
@[simp] theorem State.clearSeq_arg0 (s : State) : s.clearSeq.arg0 = s.arg0 := rfl
@[simp] theorem State.clearSeq_arg1 (s : State) : s.clearSeq.arg1 = s.arg1 := rfl
@[simp] theorem State.clearSeq_arg2 (s : State) : s.clearSeq.arg2 = s.arg2 := rfl
@[simp] theorem State.clearSeq_res (s : State) : s.clearSeq.res = s.res := rfl
@[simp] theorem State.clearSeq_seq (s : State) : s.clearSeq.seq = Sequencer.empty := rfl
@[simp] theorem State.clearSeq_chip (s : State) : s.clearSeq.chip = s.chip := rfl
@[simp] theorem State.clearSeq_bus (s : State) : s.clearSeq.bus = s.bus := rfl
@[simp] theorem State.clearSeq_host (s : State) : s.clearSeq.host = s.host := rfl
@[simp] theorem State.clearSeq_draws (s : State) : s.clearSeq.draws = s.draws := rfl
@[simp] theorem State.clearSeq_epoch (s : State) : s.clearSeq.epoch = s.epoch := rfl

/-! ### setRes -/

@[simp] theorem State.setRes_scr (s : State) (v : U64) : (s.setRes v).scr = s.scr := rfl
@[simp] theorem State.setRes_gen (s : State) (v : U64) : (s.setRes v).gen = s.gen := rfl
@[simp] theorem State.setRes_genInit (s : State) (v : U64) : (s.setRes v).genInit = s.genInit := rfl
@[simp] theorem State.setRes_tloCnt (s : State) (v : U64) : (s.setRes v).tloCnt = s.tloCnt := rfl
@[simp] theorem State.setRes_thiCnt (s : State) (v : U64) : (s.setRes v).thiCnt = s.thiCnt := rfl
@[simp] theorem State.setRes_tloEn (s : State) (v : U64) : (s.setRes v).tloEn = s.tloEn := rfl
@[simp] theorem State.setRes_thiEn (s : State) (v : U64) : (s.setRes v).thiEn = s.thiEn := rfl
@[simp] theorem State.setRes_thiCascade (s : State) (v : U64) : (s.setRes v).thiCascade = s.thiCascade := rfl
@[simp] theorem State.setRes_tmrState (s : State) (v : U64) : (s.setRes v).tmrState = s.tmrState := rfl
@[simp] theorem State.setRes_ime (s : State) (v : U64) : (s.setRes v).ime = s.ime := rfl
@[simp] theorem State.setRes_flashId (s : State) (v : U64) : (s.setRes v).flashId = s.flashId := rfl
@[simp] theorem State.setRes_pbuf (s : State) (v : U64) : (s.setRes v).pbuf = s.pbuf := rfl
@[simp] theorem State.setRes_samp (s : State) (v : U64) : (s.setRes v).samp = s.samp := rfl
@[simp] theorem State.setRes_result (s : State) (v : U64) : (s.setRes v).result = s.result := rfl
@[simp] theorem State.setRes_opsel (s : State) (v : U64) : (s.setRes v).opsel = s.opsel := rfl
@[simp] theorem State.setRes_arg0 (s : State) (v : U64) : (s.setRes v).arg0 = s.arg0 := rfl
@[simp] theorem State.setRes_arg1 (s : State) (v : U64) : (s.setRes v).arg1 = s.arg1 := rfl
@[simp] theorem State.setRes_arg2 (s : State) (v : U64) : (s.setRes v).arg2 = s.arg2 := rfl
@[simp] theorem State.setRes_res (s : State) (v : U64) : (s.setRes v).res = v := rfl
@[simp] theorem State.setRes_seq (s : State) (v : U64) : (s.setRes v).seq = s.seq := rfl
@[simp] theorem State.setRes_chip (s : State) (v : U64) : (s.setRes v).chip = s.chip := rfl
@[simp] theorem State.setRes_bus (s : State) (v : U64) : (s.setRes v).bus = s.bus := rfl
@[simp] theorem State.setRes_host (s : State) (v : U64) : (s.setRes v).host = s.host := rfl
@[simp] theorem State.setRes_draws (s : State) (v : U64) : (s.setRes v).draws = s.draws := rfl
@[simp] theorem State.setRes_epoch (s : State) (v : U64) : (s.setRes v).epoch = s.epoch := rfl

/-! ### unspecifyRes -/

@[simp] theorem State.unspecifyRes_scr (s : State) : s.unspecifyRes.scr = s.scr := rfl
@[simp] theorem State.unspecifyRes_gen (s : State) : s.unspecifyRes.gen = s.gen := rfl
@[simp] theorem State.unspecifyRes_genInit (s : State) : s.unspecifyRes.genInit = s.genInit := rfl
@[simp] theorem State.unspecifyRes_tloCnt (s : State) : s.unspecifyRes.tloCnt = s.tloCnt := rfl
@[simp] theorem State.unspecifyRes_thiCnt (s : State) : s.unspecifyRes.thiCnt = s.thiCnt := rfl
@[simp] theorem State.unspecifyRes_tloEn (s : State) : s.unspecifyRes.tloEn = s.tloEn := rfl
@[simp] theorem State.unspecifyRes_thiEn (s : State) : s.unspecifyRes.thiEn = s.thiEn := rfl
@[simp] theorem State.unspecifyRes_thiCascade (s : State) : s.unspecifyRes.thiCascade = s.thiCascade := rfl
@[simp] theorem State.unspecifyRes_tmrState (s : State) : s.unspecifyRes.tmrState = s.tmrState := rfl
@[simp] theorem State.unspecifyRes_ime (s : State) : s.unspecifyRes.ime = s.ime := rfl
@[simp] theorem State.unspecifyRes_flashId (s : State) : s.unspecifyRes.flashId = s.flashId := rfl
@[simp] theorem State.unspecifyRes_pbuf (s : State) : s.unspecifyRes.pbuf = s.pbuf := rfl
@[simp] theorem State.unspecifyRes_samp (s : State) : s.unspecifyRes.samp = s.samp := rfl
@[simp] theorem State.unspecifyRes_result (s : State) : s.unspecifyRes.result = s.result := rfl
@[simp] theorem State.unspecifyRes_opsel (s : State) : s.unspecifyRes.opsel = s.opsel := rfl
@[simp] theorem State.unspecifyRes_arg0 (s : State) : s.unspecifyRes.arg0 = s.arg0 := rfl
@[simp] theorem State.unspecifyRes_arg1 (s : State) : s.unspecifyRes.arg1 = s.arg1 := rfl
@[simp] theorem State.unspecifyRes_arg2 (s : State) : s.unspecifyRes.arg2 = s.arg2 := rfl
@[simp] theorem State.unspecifyRes_res (s : State) : s.unspecifyRes.res = Config.unspecifiedRes s.draws := rfl
@[simp] theorem State.unspecifyRes_seq (s : State) : s.unspecifyRes.seq = s.seq := rfl
@[simp] theorem State.unspecifyRes_chip (s : State) : s.unspecifyRes.chip = s.chip := rfl
@[simp] theorem State.unspecifyRes_bus (s : State) : s.unspecifyRes.bus = s.bus := rfl
@[simp] theorem State.unspecifyRes_host (s : State) : s.unspecifyRes.host = s.host := rfl
@[simp] theorem State.unspecifyRes_draws (s : State) : s.unspecifyRes.draws = s.draws + 1 := rfl
@[simp] theorem State.unspecifyRes_epoch (s : State) : s.unspecifyRes.epoch = s.epoch := rfl

/-! ### drawn -/

@[simp] theorem State.drawn_scr (s : State) : s.drawn.scr = s.scr := rfl
@[simp] theorem State.drawn_gen (s : State) : s.drawn.gen = s.gen := rfl
@[simp] theorem State.drawn_genInit (s : State) : s.drawn.genInit = s.genInit := rfl
@[simp] theorem State.drawn_tloCnt (s : State) : s.drawn.tloCnt = s.tloCnt := rfl
@[simp] theorem State.drawn_thiCnt (s : State) : s.drawn.thiCnt = s.thiCnt := rfl
@[simp] theorem State.drawn_tloEn (s : State) : s.drawn.tloEn = s.tloEn := rfl
@[simp] theorem State.drawn_thiEn (s : State) : s.drawn.thiEn = s.thiEn := rfl
@[simp] theorem State.drawn_thiCascade (s : State) : s.drawn.thiCascade = s.thiCascade := rfl
@[simp] theorem State.drawn_tmrState (s : State) : s.drawn.tmrState = s.tmrState := rfl
@[simp] theorem State.drawn_ime (s : State) : s.drawn.ime = s.ime := rfl
@[simp] theorem State.drawn_flashId (s : State) : s.drawn.flashId = s.flashId := rfl
@[simp] theorem State.drawn_pbuf (s : State) : s.drawn.pbuf = s.pbuf := rfl
@[simp] theorem State.drawn_samp (s : State) : s.drawn.samp = s.samp := rfl
@[simp] theorem State.drawn_result (s : State) : s.drawn.result = s.result := rfl
@[simp] theorem State.drawn_opsel (s : State) : s.drawn.opsel = s.opsel := rfl
@[simp] theorem State.drawn_arg0 (s : State) : s.drawn.arg0 = s.arg0 := rfl
@[simp] theorem State.drawn_arg1 (s : State) : s.drawn.arg1 = s.arg1 := rfl
@[simp] theorem State.drawn_arg2 (s : State) : s.drawn.arg2 = s.arg2 := rfl
@[simp] theorem State.drawn_res (s : State) : s.drawn.res = s.res := rfl
@[simp] theorem State.drawn_seq (s : State) : s.drawn.seq = s.seq := rfl
@[simp] theorem State.drawn_chip (s : State) : s.drawn.chip = s.chip := rfl
@[simp] theorem State.drawn_bus (s : State) : s.drawn.bus = s.bus := rfl
@[simp] theorem State.drawn_host (s : State) : s.drawn.host = s.host := rfl
@[simp] theorem State.drawn_draws (s : State) : s.drawn.draws = s.draws + 1 := rfl
@[simp] theorem State.drawn_epoch (s : State) : s.drawn.epoch = s.epoch := rfl

/-! ### advanceCounters -/

@[simp] theorem State.advanceCounters_scr (s : State) (c : Nat) : (s.advanceCounters c).scr = s.scr := by unfold State.advanceCounters; split <;> rfl
@[simp] theorem State.advanceCounters_gen (s : State) (c : Nat) : (s.advanceCounters c).gen = s.gen := by unfold State.advanceCounters; split <;> rfl
@[simp] theorem State.advanceCounters_genInit (s : State) (c : Nat) : (s.advanceCounters c).genInit = s.genInit := by unfold State.advanceCounters; split <;> rfl
@[simp] theorem State.advanceCounters_tloEn (s : State) (c : Nat) : (s.advanceCounters c).tloEn = s.tloEn := by unfold State.advanceCounters; split <;> rfl
@[simp] theorem State.advanceCounters_thiEn (s : State) (c : Nat) : (s.advanceCounters c).thiEn = s.thiEn := by unfold State.advanceCounters; split <;> rfl
@[simp] theorem State.advanceCounters_thiCascade (s : State) (c : Nat) : (s.advanceCounters c).thiCascade = s.thiCascade := by unfold State.advanceCounters; split <;> rfl
@[simp] theorem State.advanceCounters_tmrState (s : State) (c : Nat) : (s.advanceCounters c).tmrState = s.tmrState := by unfold State.advanceCounters; split <;> rfl
@[simp] theorem State.advanceCounters_ime (s : State) (c : Nat) : (s.advanceCounters c).ime = s.ime := by unfold State.advanceCounters; split <;> rfl
@[simp] theorem State.advanceCounters_flashId (s : State) (c : Nat) : (s.advanceCounters c).flashId = s.flashId := by unfold State.advanceCounters; split <;> rfl
@[simp] theorem State.advanceCounters_pbuf (s : State) (c : Nat) : (s.advanceCounters c).pbuf = s.pbuf := by unfold State.advanceCounters; split <;> rfl
@[simp] theorem State.advanceCounters_samp (s : State) (c : Nat) : (s.advanceCounters c).samp = s.samp := by unfold State.advanceCounters; split <;> rfl
@[simp] theorem State.advanceCounters_result (s : State) (c : Nat) : (s.advanceCounters c).result = s.result := by unfold State.advanceCounters; split <;> rfl
@[simp] theorem State.advanceCounters_opsel (s : State) (c : Nat) : (s.advanceCounters c).opsel = s.opsel := by unfold State.advanceCounters; split <;> rfl
@[simp] theorem State.advanceCounters_arg0 (s : State) (c : Nat) : (s.advanceCounters c).arg0 = s.arg0 := by unfold State.advanceCounters; split <;> rfl
@[simp] theorem State.advanceCounters_arg1 (s : State) (c : Nat) : (s.advanceCounters c).arg1 = s.arg1 := by unfold State.advanceCounters; split <;> rfl
@[simp] theorem State.advanceCounters_arg2 (s : State) (c : Nat) : (s.advanceCounters c).arg2 = s.arg2 := by unfold State.advanceCounters; split <;> rfl
@[simp] theorem State.advanceCounters_res (s : State) (c : Nat) : (s.advanceCounters c).res = s.res := by unfold State.advanceCounters; split <;> rfl
@[simp] theorem State.advanceCounters_seq (s : State) (c : Nat) : (s.advanceCounters c).seq = s.seq := by unfold State.advanceCounters; split <;> rfl
@[simp] theorem State.advanceCounters_chip (s : State) (c : Nat) : (s.advanceCounters c).chip = s.chip := by unfold State.advanceCounters; split <;> rfl
@[simp] theorem State.advanceCounters_bus (s : State) (c : Nat) : (s.advanceCounters c).bus = s.bus := by unfold State.advanceCounters; split <;> rfl
@[simp] theorem State.advanceCounters_host (s : State) (c : Nat) : (s.advanceCounters c).host = s.host := by unfold State.advanceCounters; split <;> rfl
@[simp] theorem State.advanceCounters_draws (s : State) (c : Nat) : (s.advanceCounters c).draws = s.draws := by unfold State.advanceCounters; split <;> rfl
@[simp] theorem State.advanceCounters_epoch (s : State) (c : Nat) : (s.advanceCounters c).epoch = s.epoch := by unfold State.advanceCounters; split <;> rfl

/-! ### tick -/

@[simp] theorem State.tick_scr (s : State) : s.tick.scr = s.scr := by simp [State.tick]
@[simp] theorem State.tick_gen (s : State) : s.tick.gen = s.gen := by simp [State.tick]
@[simp] theorem State.tick_genInit (s : State) : s.tick.genInit = s.genInit := by simp [State.tick]
@[simp] theorem State.tick_tloEn (s : State) : s.tick.tloEn = s.tloEn := by simp [State.tick]
@[simp] theorem State.tick_thiEn (s : State) : s.tick.thiEn = s.thiEn := by simp [State.tick]
@[simp] theorem State.tick_thiCascade (s : State) : s.tick.thiCascade = s.thiCascade := by simp [State.tick]
@[simp] theorem State.tick_tmrState (s : State) : s.tick.tmrState = s.tmrState := by simp [State.tick]
@[simp] theorem State.tick_ime (s : State) : s.tick.ime = s.ime := by simp [State.tick]
@[simp] theorem State.tick_flashId (s : State) : s.tick.flashId = s.flashId := by simp [State.tick]
@[simp] theorem State.tick_pbuf (s : State) : s.tick.pbuf = s.pbuf := by simp [State.tick]
@[simp] theorem State.tick_samp (s : State) : s.tick.samp = s.samp := by simp [State.tick]
@[simp] theorem State.tick_result (s : State) : s.tick.result = s.result := by simp [State.tick]
@[simp] theorem State.tick_opsel (s : State) : s.tick.opsel = s.opsel := by simp [State.tick]
@[simp] theorem State.tick_arg0 (s : State) : s.tick.arg0 = s.arg0 := by simp [State.tick]
@[simp] theorem State.tick_arg1 (s : State) : s.tick.arg1 = s.arg1 := by simp [State.tick]
@[simp] theorem State.tick_arg2 (s : State) : s.tick.arg2 = s.arg2 := by simp [State.tick]
@[simp] theorem State.tick_res (s : State) : s.tick.res = s.res := by simp [State.tick]
@[simp] theorem State.tick_seq (s : State) : s.tick.seq = s.seq := by simp [State.tick]
@[simp] theorem State.tick_chip (s : State) : s.tick.chip = s.chip := by simp [State.tick]
@[simp] theorem State.tick_bus (s : State) : s.tick.bus = s.bus := by simp [State.tick]
@[simp] theorem State.tick_host (s : State) : s.tick.host = s.host := by simp [State.tick]
@[simp] theorem State.tick_draws (s : State) : s.tick.draws = s.draws + 1 := by simp [State.tick]
@[simp] theorem State.tick_epoch (s : State) : s.tick.epoch = s.epoch := by simp [State.tick]

@[simp] theorem State.load_scr (s : State) (l : List Micro) : (s.load l).scr = s.scr := by simp [State.load]
@[simp] theorem State.load_gen (s : State) (l : List Micro) : (s.load l).gen = s.gen := by simp [State.load]
@[simp] theorem State.load_genInit (s : State) (l : List Micro) : (s.load l).genInit = s.genInit := by simp [State.load]
@[simp] theorem State.load_tloEn (s : State) (l : List Micro) : (s.load l).tloEn = s.tloEn := by simp [State.load]
@[simp] theorem State.load_thiEn (s : State) (l : List Micro) : (s.load l).thiEn = s.thiEn := by simp [State.load]
@[simp] theorem State.load_thiCascade (s : State) (l : List Micro) : (s.load l).thiCascade = s.thiCascade := by simp [State.load]
@[simp] theorem State.load_tmrState (s : State) (l : List Micro) : (s.load l).tmrState = s.tmrState := by simp [State.load]
@[simp] theorem State.load_ime (s : State) (l : List Micro) : (s.load l).ime = s.ime := by simp [State.load]
@[simp] theorem State.load_flashId (s : State) (l : List Micro) : (s.load l).flashId = s.flashId := by simp [State.load]
@[simp] theorem State.load_pbuf (s : State) (l : List Micro) : (s.load l).pbuf = s.pbuf := by simp [State.load]
@[simp] theorem State.load_samp (s : State) (l : List Micro) : (s.load l).samp = s.samp := by simp [State.load]
@[simp] theorem State.load_result (s : State) (l : List Micro) : (s.load l).result = s.result := by simp [State.load]
@[simp] theorem State.load_opsel (s : State) (l : List Micro) : (s.load l).opsel = s.opsel := by simp [State.load]
@[simp] theorem State.load_arg0 (s : State) (l : List Micro) : (s.load l).arg0 = s.arg0 := by simp [State.load]
@[simp] theorem State.load_arg1 (s : State) (l : List Micro) : (s.load l).arg1 = s.arg1 := by simp [State.load]
@[simp] theorem State.load_arg2 (s : State) (l : List Micro) : (s.load l).arg2 = s.arg2 := by simp [State.load]
@[simp] theorem State.load_res (s : State) (l : List Micro) : (s.load l).res = s.res := by simp [State.load]
@[simp] theorem State.load_seq (s : State) (l : List Micro) : (s.load l).seq = { s.seq with todo := l ++ s.seq.todo } := by simp [State.load]
@[simp] theorem State.load_chip (s : State) (l : List Micro) : (s.load l).chip = s.chip := by simp [State.load]
@[simp] theorem State.load_bus (s : State) (l : List Micro) : (s.load l).bus = s.bus := by simp [State.load]
@[simp] theorem State.load_host (s : State) (l : List Micro) : (s.load l).host = s.host := by simp [State.load]
@[simp] theorem State.load_draws (s : State) (l : List Micro) : (s.load l).draws = s.draws + 1 := by simp [State.load]
@[simp] theorem State.load_epoch (s : State) (l : List Micro) : (s.load l).epoch = s.epoch := by simp [State.load]

/-! ### busWrite -/

@[simp] theorem State.busWrite_scr (s : State) (off : U16) (v : Byte) : (s.busWrite off v).scr = s.scr := by simp [State.busWrite]
@[simp] theorem State.busWrite_gen (s : State) (off : U16) (v : Byte) : (s.busWrite off v).gen = s.gen := by simp [State.busWrite]
@[simp] theorem State.busWrite_genInit (s : State) (off : U16) (v : Byte) : (s.busWrite off v).genInit = s.genInit := by simp [State.busWrite]
@[simp] theorem State.busWrite_tloEn (s : State) (off : U16) (v : Byte) : (s.busWrite off v).tloEn = s.tloEn := by simp [State.busWrite]
@[simp] theorem State.busWrite_thiEn (s : State) (off : U16) (v : Byte) : (s.busWrite off v).thiEn = s.thiEn := by simp [State.busWrite]
@[simp] theorem State.busWrite_thiCascade (s : State) (off : U16) (v : Byte) : (s.busWrite off v).thiCascade = s.thiCascade := by simp [State.busWrite]
@[simp] theorem State.busWrite_tmrState (s : State) (off : U16) (v : Byte) : (s.busWrite off v).tmrState = s.tmrState := by simp [State.busWrite]
@[simp] theorem State.busWrite_ime (s : State) (off : U16) (v : Byte) : (s.busWrite off v).ime = s.ime := by simp [State.busWrite]
@[simp] theorem State.busWrite_flashId (s : State) (off : U16) (v : Byte) : (s.busWrite off v).flashId = s.flashId := by simp [State.busWrite]
@[simp] theorem State.busWrite_pbuf (s : State) (off : U16) (v : Byte) : (s.busWrite off v).pbuf = s.pbuf := by simp [State.busWrite]
@[simp] theorem State.busWrite_samp (s : State) (off : U16) (v : Byte) : (s.busWrite off v).samp = s.samp := by simp [State.busWrite]
@[simp] theorem State.busWrite_result (s : State) (off : U16) (v : Byte) : (s.busWrite off v).result = s.result := by simp [State.busWrite]
@[simp] theorem State.busWrite_opsel (s : State) (off : U16) (v : Byte) : (s.busWrite off v).opsel = s.opsel := by simp [State.busWrite]
@[simp] theorem State.busWrite_arg0 (s : State) (off : U16) (v : Byte) : (s.busWrite off v).arg0 = s.arg0 := by simp [State.busWrite]
@[simp] theorem State.busWrite_arg1 (s : State) (off : U16) (v : Byte) : (s.busWrite off v).arg1 = s.arg1 := by simp [State.busWrite]
@[simp] theorem State.busWrite_arg2 (s : State) (off : U16) (v : Byte) : (s.busWrite off v).arg2 = s.arg2 := by simp [State.busWrite]
@[simp] theorem State.busWrite_res (s : State) (off : U16) (v : Byte) : (s.busWrite off v).res = s.res := by simp [State.busWrite]
@[simp] theorem State.busWrite_seq (s : State) (off : U16) (v : Byte) : (s.busWrite off v).seq = s.seq := by simp [State.busWrite]
@[simp] theorem State.busWrite_chip (s : State) (off : U16) (v : Byte) : (s.busWrite off v).chip = (s.chip.write off v s.draws).1 := by simp [State.busWrite]
@[simp] theorem State.busWrite_bus (s : State) (off : U16) (v : Byte) : (s.busWrite off v).bus = .write off v :: s.bus := by simp [State.busWrite]
@[simp] theorem State.busWrite_host (s : State) (off : U16) (v : Byte) : (s.busWrite off v).host = s.host := by simp [State.busWrite]
@[simp] theorem State.busWrite_draws (s : State) (off : U16) (v : Byte) : (s.busWrite off v).draws = (s.chip.write off v s.draws).2 + 1 := by simp [State.busWrite]
@[simp] theorem State.busWrite_epoch (s : State) (off : U16) (v : Byte) : (s.busWrite off v).epoch = s.epoch := by simp [State.busWrite]

/-! ### busRead -/

@[simp] theorem State.busRead_scr (s : State) (off : U16) : (s.busRead off).scr = s.scr := by simp [State.busRead]
@[simp] theorem State.busRead_gen (s : State) (off : U16) : (s.busRead off).gen = s.gen := by simp [State.busRead]
@[simp] theorem State.busRead_genInit (s : State) (off : U16) : (s.busRead off).genInit = s.genInit := by simp [State.busRead]
@[simp] theorem State.busRead_tloEn (s : State) (off : U16) : (s.busRead off).tloEn = s.tloEn := by simp [State.busRead]
@[simp] theorem State.busRead_thiEn (s : State) (off : U16) : (s.busRead off).thiEn = s.thiEn := by simp [State.busRead]
@[simp] theorem State.busRead_thiCascade (s : State) (off : U16) : (s.busRead off).thiCascade = s.thiCascade := by simp [State.busRead]
@[simp] theorem State.busRead_tmrState (s : State) (off : U16) : (s.busRead off).tmrState = s.tmrState := by simp [State.busRead]
@[simp] theorem State.busRead_ime (s : State) (off : U16) : (s.busRead off).ime = s.ime := by simp [State.busRead]
@[simp] theorem State.busRead_flashId (s : State) (off : U16) : (s.busRead off).flashId = s.flashId := by simp [State.busRead]
@[simp] theorem State.busRead_pbuf (s : State) (off : U16) : (s.busRead off).pbuf = s.pbuf := by simp [State.busRead]
@[simp] theorem State.busRead_samp (s : State) (off : U16) : (s.busRead off).samp = s.samp := by simp [State.busRead]
@[simp] theorem State.busRead_result (s : State) (off : U16) : (s.busRead off).result = s.result := by simp [State.busRead]
@[simp] theorem State.busRead_opsel (s : State) (off : U16) : (s.busRead off).opsel = s.opsel := by simp [State.busRead]
@[simp] theorem State.busRead_arg0 (s : State) (off : U16) : (s.busRead off).arg0 = s.arg0 := by simp [State.busRead]
@[simp] theorem State.busRead_arg1 (s : State) (off : U16) : (s.busRead off).arg1 = s.arg1 := by simp [State.busRead]
@[simp] theorem State.busRead_arg2 (s : State) (off : U16) : (s.busRead off).arg2 = s.arg2 := by simp [State.busRead]
@[simp] theorem State.busRead_res (s : State) (off : U16) : (s.busRead off).res = s.res := by simp [State.busRead]
@[simp] theorem State.busRead_seq (s : State) (off : U16) : (s.busRead off).seq = s.seq := by simp [State.busRead]
@[simp] theorem State.busRead_chip (s : State) (off : U16) : (s.busRead off).chip = (s.chip.read off s.draws).chip := by simp [State.busRead]
@[simp] theorem State.busRead_bus (s : State) (off : U16) : (s.busRead off).bus = .read off (s.busByte off) :: s.bus := by simp [State.busRead]
@[simp] theorem State.busRead_host (s : State) (off : U16) : (s.busRead off).host = s.host := by simp [State.busRead]
@[simp] theorem State.busRead_draws (s : State) (off : U16) : (s.busRead off).draws = (s.chip.read off s.draws).draws + 1 := by simp [State.busRead]
@[simp] theorem State.busRead_epoch (s : State) (off : U16) : (s.busRead off).epoch = s.epoch := by simp [State.busRead]

/-! ### pbufWrite -/

@[simp] theorem State.pbufWrite_scr (s : State) (i : Nat) (v : Byte) : (s.pbufWrite i v).scr = s.scr := rfl
@[simp] theorem State.pbufWrite_gen (s : State) (i : Nat) (v : Byte) : (s.pbufWrite i v).gen = s.gen := rfl
@[simp] theorem State.pbufWrite_genInit (s : State) (i : Nat) (v : Byte) : (s.pbufWrite i v).genInit = s.genInit := rfl
@[simp] theorem State.pbufWrite_tloCnt (s : State) (i : Nat) (v : Byte) : (s.pbufWrite i v).tloCnt = s.tloCnt := rfl
@[simp] theorem State.pbufWrite_thiCnt (s : State) (i : Nat) (v : Byte) : (s.pbufWrite i v).thiCnt = s.thiCnt := rfl
@[simp] theorem State.pbufWrite_tloEn (s : State) (i : Nat) (v : Byte) : (s.pbufWrite i v).tloEn = s.tloEn := rfl
@[simp] theorem State.pbufWrite_thiEn (s : State) (i : Nat) (v : Byte) : (s.pbufWrite i v).thiEn = s.thiEn := rfl
@[simp] theorem State.pbufWrite_thiCascade (s : State) (i : Nat) (v : Byte) : (s.pbufWrite i v).thiCascade = s.thiCascade := rfl
@[simp] theorem State.pbufWrite_tmrState (s : State) (i : Nat) (v : Byte) : (s.pbufWrite i v).tmrState = s.tmrState := rfl
@[simp] theorem State.pbufWrite_ime (s : State) (i : Nat) (v : Byte) : (s.pbufWrite i v).ime = s.ime := rfl
@[simp] theorem State.pbufWrite_flashId (s : State) (i : Nat) (v : Byte) : (s.pbufWrite i v).flashId = s.flashId := rfl
@[simp] theorem State.pbufWrite_pbuf (s : State) (i : Nat) (v : Byte) : (s.pbufWrite i v).pbuf = storeWrite s.pbuf i v := rfl
@[simp] theorem State.pbufWrite_samp (s : State) (i : Nat) (v : Byte) : (s.pbufWrite i v).samp = s.samp := rfl
@[simp] theorem State.pbufWrite_result (s : State) (i : Nat) (v : Byte) : (s.pbufWrite i v).result = s.result := rfl
@[simp] theorem State.pbufWrite_opsel (s : State) (i : Nat) (v : Byte) : (s.pbufWrite i v).opsel = s.opsel := rfl
@[simp] theorem State.pbufWrite_arg0 (s : State) (i : Nat) (v : Byte) : (s.pbufWrite i v).arg0 = s.arg0 := rfl
@[simp] theorem State.pbufWrite_arg1 (s : State) (i : Nat) (v : Byte) : (s.pbufWrite i v).arg1 = s.arg1 := rfl
@[simp] theorem State.pbufWrite_arg2 (s : State) (i : Nat) (v : Byte) : (s.pbufWrite i v).arg2 = s.arg2 := rfl
@[simp] theorem State.pbufWrite_res (s : State) (i : Nat) (v : Byte) : (s.pbufWrite i v).res = s.res := rfl
@[simp] theorem State.pbufWrite_seq (s : State) (i : Nat) (v : Byte) : (s.pbufWrite i v).seq = s.seq := rfl
@[simp] theorem State.pbufWrite_chip (s : State) (i : Nat) (v : Byte) : (s.pbufWrite i v).chip = s.chip := rfl
@[simp] theorem State.pbufWrite_bus (s : State) (i : Nat) (v : Byte) : (s.pbufWrite i v).bus = s.bus := rfl
@[simp] theorem State.pbufWrite_host (s : State) (i : Nat) (v : Byte) : (s.pbufWrite i v).host = s.host := rfl
@[simp] theorem State.pbufWrite_draws (s : State) (i : Nat) (v : Byte) : (s.pbufWrite i v).draws = s.draws := rfl
@[simp] theorem State.pbufWrite_epoch (s : State) (i : Nat) (v : Byte) : (s.pbufWrite i v).epoch = s.epoch := rfl

/-! ### sampWrite -/

@[simp] theorem State.sampWrite_scr (s : State) (i : Nat) (v : U32) : (s.sampWrite i v).scr = s.scr := rfl
@[simp] theorem State.sampWrite_gen (s : State) (i : Nat) (v : U32) : (s.sampWrite i v).gen = s.gen := rfl
@[simp] theorem State.sampWrite_genInit (s : State) (i : Nat) (v : U32) : (s.sampWrite i v).genInit = s.genInit := rfl
@[simp] theorem State.sampWrite_tloCnt (s : State) (i : Nat) (v : U32) : (s.sampWrite i v).tloCnt = s.tloCnt := rfl
@[simp] theorem State.sampWrite_thiCnt (s : State) (i : Nat) (v : U32) : (s.sampWrite i v).thiCnt = s.thiCnt := rfl
@[simp] theorem State.sampWrite_tloEn (s : State) (i : Nat) (v : U32) : (s.sampWrite i v).tloEn = s.tloEn := rfl
@[simp] theorem State.sampWrite_thiEn (s : State) (i : Nat) (v : U32) : (s.sampWrite i v).thiEn = s.thiEn := rfl
@[simp] theorem State.sampWrite_thiCascade (s : State) (i : Nat) (v : U32) : (s.sampWrite i v).thiCascade = s.thiCascade := rfl
@[simp] theorem State.sampWrite_tmrState (s : State) (i : Nat) (v : U32) : (s.sampWrite i v).tmrState = s.tmrState := rfl
@[simp] theorem State.sampWrite_ime (s : State) (i : Nat) (v : U32) : (s.sampWrite i v).ime = s.ime := rfl
@[simp] theorem State.sampWrite_flashId (s : State) (i : Nat) (v : U32) : (s.sampWrite i v).flashId = s.flashId := rfl
@[simp] theorem State.sampWrite_pbuf (s : State) (i : Nat) (v : U32) : (s.sampWrite i v).pbuf = s.pbuf := rfl
@[simp] theorem State.sampWrite_samp (s : State) (i : Nat) (v : U32) : (s.sampWrite i v).samp = storeWrite s.samp i v := rfl
@[simp] theorem State.sampWrite_result (s : State) (i : Nat) (v : U32) : (s.sampWrite i v).result = s.result := rfl
@[simp] theorem State.sampWrite_opsel (s : State) (i : Nat) (v : U32) : (s.sampWrite i v).opsel = s.opsel := rfl
@[simp] theorem State.sampWrite_arg0 (s : State) (i : Nat) (v : U32) : (s.sampWrite i v).arg0 = s.arg0 := rfl
@[simp] theorem State.sampWrite_arg1 (s : State) (i : Nat) (v : U32) : (s.sampWrite i v).arg1 = s.arg1 := rfl
@[simp] theorem State.sampWrite_arg2 (s : State) (i : Nat) (v : U32) : (s.sampWrite i v).arg2 = s.arg2 := rfl
@[simp] theorem State.sampWrite_res (s : State) (i : Nat) (v : U32) : (s.sampWrite i v).res = s.res := rfl
@[simp] theorem State.sampWrite_seq (s : State) (i : Nat) (v : U32) : (s.sampWrite i v).seq = s.seq := rfl
@[simp] theorem State.sampWrite_chip (s : State) (i : Nat) (v : U32) : (s.sampWrite i v).chip = s.chip := rfl
@[simp] theorem State.sampWrite_bus (s : State) (i : Nat) (v : U32) : (s.sampWrite i v).bus = s.bus := rfl
@[simp] theorem State.sampWrite_host (s : State) (i : Nat) (v : U32) : (s.sampWrite i v).host = s.host := rfl
@[simp] theorem State.sampWrite_draws (s : State) (i : Nat) (v : U32) : (s.sampWrite i v).draws = s.draws := rfl
@[simp] theorem State.sampWrite_epoch (s : State) (i : Nat) (v : U32) : (s.sampWrite i v).epoch = s.epoch := rfl

/-! ### resultWrite -/

@[simp] theorem State.resultWrite_scr (s : State) (b : Battery) (sector : Sector) (r : Record) : (s.resultWrite b sector r).scr = s.scr := rfl
@[simp] theorem State.resultWrite_gen (s : State) (b : Battery) (sector : Sector) (r : Record) : (s.resultWrite b sector r).gen = s.gen := rfl
@[simp] theorem State.resultWrite_genInit (s : State) (b : Battery) (sector : Sector) (r : Record) : (s.resultWrite b sector r).genInit = s.genInit := rfl
@[simp] theorem State.resultWrite_tloCnt (s : State) (b : Battery) (sector : Sector) (r : Record) : (s.resultWrite b sector r).tloCnt = s.tloCnt := rfl
@[simp] theorem State.resultWrite_thiCnt (s : State) (b : Battery) (sector : Sector) (r : Record) : (s.resultWrite b sector r).thiCnt = s.thiCnt := rfl
@[simp] theorem State.resultWrite_tloEn (s : State) (b : Battery) (sector : Sector) (r : Record) : (s.resultWrite b sector r).tloEn = s.tloEn := rfl
@[simp] theorem State.resultWrite_thiEn (s : State) (b : Battery) (sector : Sector) (r : Record) : (s.resultWrite b sector r).thiEn = s.thiEn := rfl
@[simp] theorem State.resultWrite_thiCascade (s : State) (b : Battery) (sector : Sector) (r : Record) : (s.resultWrite b sector r).thiCascade = s.thiCascade := rfl
@[simp] theorem State.resultWrite_tmrState (s : State) (b : Battery) (sector : Sector) (r : Record) : (s.resultWrite b sector r).tmrState = s.tmrState := rfl
@[simp] theorem State.resultWrite_ime (s : State) (b : Battery) (sector : Sector) (r : Record) : (s.resultWrite b sector r).ime = s.ime := rfl
@[simp] theorem State.resultWrite_flashId (s : State) (b : Battery) (sector : Sector) (r : Record) : (s.resultWrite b sector r).flashId = s.flashId := rfl
@[simp] theorem State.resultWrite_pbuf (s : State) (b : Battery) (sector : Sector) (r : Record) : (s.resultWrite b sector r).pbuf = s.pbuf := rfl
@[simp] theorem State.resultWrite_samp (s : State) (b : Battery) (sector : Sector) (r : Record) : (s.resultWrite b sector r).samp = s.samp := rfl
@[simp] theorem State.resultWrite_result (s : State) (b : Battery) (sector : Sector) (r : Record) : (s.resultWrite b sector r).result = storeWrite s.result (resultIndex b sector) r := rfl
@[simp] theorem State.resultWrite_opsel (s : State) (b : Battery) (sector : Sector) (r : Record) : (s.resultWrite b sector r).opsel = s.opsel := rfl
@[simp] theorem State.resultWrite_arg0 (s : State) (b : Battery) (sector : Sector) (r : Record) : (s.resultWrite b sector r).arg0 = s.arg0 := rfl
@[simp] theorem State.resultWrite_arg1 (s : State) (b : Battery) (sector : Sector) (r : Record) : (s.resultWrite b sector r).arg1 = s.arg1 := rfl
@[simp] theorem State.resultWrite_arg2 (s : State) (b : Battery) (sector : Sector) (r : Record) : (s.resultWrite b sector r).arg2 = s.arg2 := rfl
@[simp] theorem State.resultWrite_res (s : State) (b : Battery) (sector : Sector) (r : Record) : (s.resultWrite b sector r).res = s.res := rfl
@[simp] theorem State.resultWrite_seq (s : State) (b : Battery) (sector : Sector) (r : Record) : (s.resultWrite b sector r).seq = s.seq := rfl
@[simp] theorem State.resultWrite_chip (s : State) (b : Battery) (sector : Sector) (r : Record) : (s.resultWrite b sector r).chip = s.chip := rfl
@[simp] theorem State.resultWrite_bus (s : State) (b : Battery) (sector : Sector) (r : Record) : (s.resultWrite b sector r).bus = s.bus := rfl
@[simp] theorem State.resultWrite_host (s : State) (b : Battery) (sector : Sector) (r : Record) : (s.resultWrite b sector r).host = s.host := rfl
@[simp] theorem State.resultWrite_draws (s : State) (b : Battery) (sector : Sector) (r : Record) : (s.resultWrite b sector r).draws = s.draws := rfl
@[simp] theorem State.resultWrite_epoch (s : State) (b : Battery) (sector : Sector) (r : Record) : (s.resultWrite b sector r).epoch = s.epoch := rfl

/-! ### resultClear -/

@[simp] theorem State.resultClear_scr (s : State) : s.resultClear.scr = s.scr := by cases s; rfl
@[simp] theorem State.resultClear_gen (s : State) : s.resultClear.gen = s.gen := by cases s; rfl
@[simp] theorem State.resultClear_genInit (s : State) : s.resultClear.genInit = s.genInit := by cases s; rfl
@[simp] theorem State.resultClear_tloCnt (s : State) : s.resultClear.tloCnt = s.tloCnt := by cases s; rfl
@[simp] theorem State.resultClear_thiCnt (s : State) : s.resultClear.thiCnt = s.thiCnt := by cases s; rfl
@[simp] theorem State.resultClear_tloEn (s : State) : s.resultClear.tloEn = s.tloEn := by cases s; rfl
@[simp] theorem State.resultClear_thiEn (s : State) : s.resultClear.thiEn = s.thiEn := by cases s; rfl
@[simp] theorem State.resultClear_thiCascade (s : State) : s.resultClear.thiCascade = s.thiCascade := by cases s; rfl
@[simp] theorem State.resultClear_tmrState (s : State) : s.resultClear.tmrState = s.tmrState := by cases s; rfl
@[simp] theorem State.resultClear_ime (s : State) : s.resultClear.ime = s.ime := by cases s; rfl
@[simp] theorem State.resultClear_flashId (s : State) : s.resultClear.flashId = s.flashId := by cases s; rfl
@[simp] theorem State.resultClear_pbuf (s : State) : s.resultClear.pbuf = s.pbuf := by cases s; rfl
@[simp] theorem State.resultClear_samp (s : State) : s.resultClear.samp = s.samp := by cases s; rfl
@[simp] theorem State.resultClear_opsel (s : State) : s.resultClear.opsel = s.opsel := by cases s; rfl
@[simp] theorem State.resultClear_arg0 (s : State) : s.resultClear.arg0 = s.arg0 := by cases s; rfl
@[simp] theorem State.resultClear_arg1 (s : State) : s.resultClear.arg1 = s.arg1 := by cases s; rfl
@[simp] theorem State.resultClear_arg2 (s : State) : s.resultClear.arg2 = s.arg2 := by cases s; rfl
@[simp] theorem State.resultClear_res (s : State) : s.resultClear.res = s.res := by cases s; rfl
@[simp] theorem State.resultClear_seq (s : State) : s.resultClear.seq = s.seq := by cases s; rfl
@[simp] theorem State.resultClear_chip (s : State) : s.resultClear.chip = s.chip := by cases s; rfl
@[simp] theorem State.resultClear_bus (s : State) : s.resultClear.bus = s.bus := by cases s; rfl
@[simp] theorem State.resultClear_host (s : State) : s.resultClear.host = s.host := by cases s; rfl
@[simp] theorem State.resultClear_draws (s : State) : s.resultClear.draws = s.draws := by cases s; rfl
@[simp] theorem State.resultClear_epoch (s : State) : s.resultClear.epoch = s.epoch := by cases s; rfl

/-! ### saveResults -/

@[simp] theorem State.saveResults_scr (s : State) (b : Battery) (sector : Sector) (n m : Nat) : (s.saveResults b sector n m).scr = s.scr := by simp [State.saveResults]
@[simp] theorem State.saveResults_gen (s : State) (b : Battery) (sector : Sector) (n m : Nat) : (s.saveResults b sector n m).gen = s.gen := by simp [State.saveResults]
@[simp] theorem State.saveResults_genInit (s : State) (b : Battery) (sector : Sector) (n m : Nat) : (s.saveResults b sector n m).genInit = s.genInit := by simp [State.saveResults]
@[simp] theorem State.saveResults_tloCnt (s : State) (b : Battery) (sector : Sector) (n m : Nat) : (s.saveResults b sector n m).tloCnt = s.tloCnt := by simp [State.saveResults]
@[simp] theorem State.saveResults_thiCnt (s : State) (b : Battery) (sector : Sector) (n m : Nat) : (s.saveResults b sector n m).thiCnt = s.thiCnt := by simp [State.saveResults]
@[simp] theorem State.saveResults_tloEn (s : State) (b : Battery) (sector : Sector) (n m : Nat) : (s.saveResults b sector n m).tloEn = s.tloEn := by simp [State.saveResults]
@[simp] theorem State.saveResults_thiEn (s : State) (b : Battery) (sector : Sector) (n m : Nat) : (s.saveResults b sector n m).thiEn = s.thiEn := by simp [State.saveResults]
@[simp] theorem State.saveResults_thiCascade (s : State) (b : Battery) (sector : Sector) (n m : Nat) : (s.saveResults b sector n m).thiCascade = s.thiCascade := by simp [State.saveResults]
@[simp] theorem State.saveResults_tmrState (s : State) (b : Battery) (sector : Sector) (n m : Nat) : (s.saveResults b sector n m).tmrState = s.tmrState := by simp [State.saveResults]
@[simp] theorem State.saveResults_ime (s : State) (b : Battery) (sector : Sector) (n m : Nat) : (s.saveResults b sector n m).ime = s.ime := by simp [State.saveResults]
@[simp] theorem State.saveResults_flashId (s : State) (b : Battery) (sector : Sector) (n m : Nat) : (s.saveResults b sector n m).flashId = s.flashId := by simp [State.saveResults]
@[simp] theorem State.saveResults_pbuf (s : State) (b : Battery) (sector : Sector) (n m : Nat) : (s.saveResults b sector n m).pbuf = s.pbuf := by simp [State.saveResults]
@[simp] theorem State.saveResults_samp (s : State) (b : Battery) (sector : Sector) (n m : Nat) : (s.saveResults b sector n m).samp = s.samp := by simp [State.saveResults]
@[simp] theorem State.saveResults_result (s : State) (b : Battery) (sector : Sector) (n m : Nat) : (s.saveResults b sector n m).result =
    storeWrite s.result (resultIndex b sector) (summarise (s.samples n) m) := by simp [State.saveResults]
@[simp] theorem State.saveResults_opsel (s : State) (b : Battery) (sector : Sector) (n m : Nat) : (s.saveResults b sector n m).opsel = s.opsel := by simp [State.saveResults]
@[simp] theorem State.saveResults_arg0 (s : State) (b : Battery) (sector : Sector) (n m : Nat) : (s.saveResults b sector n m).arg0 = s.arg0 := by simp [State.saveResults]
@[simp] theorem State.saveResults_arg1 (s : State) (b : Battery) (sector : Sector) (n m : Nat) : (s.saveResults b sector n m).arg1 = s.arg1 := by simp [State.saveResults]
@[simp] theorem State.saveResults_arg2 (s : State) (b : Battery) (sector : Sector) (n m : Nat) : (s.saveResults b sector n m).arg2 = s.arg2 := by simp [State.saveResults]
@[simp] theorem State.saveResults_res (s : State) (b : Battery) (sector : Sector) (n m : Nat) : (s.saveResults b sector n m).res = s.res := by simp [State.saveResults]
@[simp] theorem State.saveResults_seq (s : State) (b : Battery) (sector : Sector) (n m : Nat) : (s.saveResults b sector n m).seq = s.seq := by simp [State.saveResults]
@[simp] theorem State.saveResults_chip (s : State) (b : Battery) (sector : Sector) (n m : Nat) : (s.saveResults b sector n m).chip = s.chip := by simp [State.saveResults]
@[simp] theorem State.saveResults_bus (s : State) (b : Battery) (sector : Sector) (n m : Nat) : (s.saveResults b sector n m).bus = s.bus := by simp [State.saveResults]
@[simp] theorem State.saveResults_host (s : State) (b : Battery) (sector : Sector) (n m : Nat) : (s.saveResults b sector n m).host = s.host := by simp [State.saveResults]
@[simp] theorem State.saveResults_draws (s : State) (b : Battery) (sector : Sector) (n m : Nat) : (s.saveResults b sector n m).draws = s.draws := by simp [State.saveResults]
@[simp] theorem State.saveResults_epoch (s : State) (b : Battery) (sector : Sector) (n m : Nat) : (s.saveResults b sector n m).epoch = s.epoch := by simp [State.saveResults]

/-! ### scramble -/

@[simp] theorem State.scramble_scr (s : State) : s.scramble.scr = Params.scrInc + s.scr := rfl
@[simp] theorem State.scramble_gen (s : State) : s.scramble.gen = s.gen := rfl
@[simp] theorem State.scramble_genInit (s : State) : s.scramble.genInit = s.genInit := rfl
@[simp] theorem State.scramble_tloCnt (s : State) : s.scramble.tloCnt = s.tloCnt := rfl
@[simp] theorem State.scramble_thiCnt (s : State) : s.scramble.thiCnt = s.thiCnt := rfl
@[simp] theorem State.scramble_tloEn (s : State) : s.scramble.tloEn = s.tloEn := rfl
@[simp] theorem State.scramble_thiEn (s : State) : s.scramble.thiEn = s.thiEn := rfl
@[simp] theorem State.scramble_thiCascade (s : State) : s.scramble.thiCascade = s.thiCascade := rfl
@[simp] theorem State.scramble_tmrState (s : State) : s.scramble.tmrState = s.tmrState := rfl
@[simp] theorem State.scramble_ime (s : State) : s.scramble.ime = s.ime := rfl
@[simp] theorem State.scramble_flashId (s : State) : s.scramble.flashId = s.flashId := rfl
@[simp] theorem State.scramble_pbuf (s : State) : s.scramble.pbuf = s.pbuf := rfl
@[simp] theorem State.scramble_samp (s : State) : s.scramble.samp = s.samp := rfl
@[simp] theorem State.scramble_result (s : State) : s.scramble.result = s.result := rfl
@[simp] theorem State.scramble_opsel (s : State) : s.scramble.opsel = s.opsel := rfl
@[simp] theorem State.scramble_arg0 (s : State) : s.scramble.arg0 = s.arg0 := rfl
@[simp] theorem State.scramble_arg1 (s : State) : s.scramble.arg1 = s.arg1 := rfl
@[simp] theorem State.scramble_arg2 (s : State) : s.scramble.arg2 = s.arg2 := rfl
@[simp] theorem State.scramble_res (s : State) : s.scramble.res = s.res := rfl
@[simp] theorem State.scramble_seq (s : State) : s.scramble.seq = s.seq := rfl
@[simp] theorem State.scramble_chip (s : State) : s.scramble.chip = s.chip := rfl
@[simp] theorem State.scramble_bus (s : State) : s.scramble.bus = s.bus := rfl
@[simp] theorem State.scramble_host (s : State) : s.scramble.host = s.host := rfl
@[simp] theorem State.scramble_draws (s : State) : s.scramble.draws = s.draws := rfl
@[simp] theorem State.scramble_epoch (s : State) : s.scramble.epoch = s.epoch := rfl

/-! ### seedAttempt -/

@[simp] theorem State.seedAttempt_tloCnt (s : State) : s.seedAttempt.tloCnt = s.tloCnt := by simp [State.seedAttempt]
@[simp] theorem State.seedAttempt_thiCnt (s : State) : s.seedAttempt.thiCnt = s.thiCnt := by simp [State.seedAttempt]
@[simp] theorem State.seedAttempt_tloEn (s : State) : s.seedAttempt.tloEn = s.tloEn := by simp [State.seedAttempt]
@[simp] theorem State.seedAttempt_thiEn (s : State) : s.seedAttempt.thiEn = s.thiEn := by simp [State.seedAttempt]
@[simp] theorem State.seedAttempt_thiCascade (s : State) : s.seedAttempt.thiCascade = s.thiCascade := by simp [State.seedAttempt]
@[simp] theorem State.seedAttempt_tmrState (s : State) : s.seedAttempt.tmrState = s.tmrState := by simp [State.seedAttempt]
@[simp] theorem State.seedAttempt_ime (s : State) : s.seedAttempt.ime = s.ime := by simp [State.seedAttempt]
@[simp] theorem State.seedAttempt_flashId (s : State) : s.seedAttempt.flashId = s.flashId := by simp [State.seedAttempt]
@[simp] theorem State.seedAttempt_pbuf (s : State) : s.seedAttempt.pbuf = s.pbuf := by simp [State.seedAttempt]
@[simp] theorem State.seedAttempt_samp (s : State) : s.seedAttempt.samp = s.samp := by simp [State.seedAttempt]
@[simp] theorem State.seedAttempt_result (s : State) : s.seedAttempt.result = s.result := by simp [State.seedAttempt]
@[simp] theorem State.seedAttempt_opsel (s : State) : s.seedAttempt.opsel = s.opsel := by simp [State.seedAttempt]
@[simp] theorem State.seedAttempt_arg0 (s : State) : s.seedAttempt.arg0 = s.arg0 := by simp [State.seedAttempt]
@[simp] theorem State.seedAttempt_arg1 (s : State) : s.seedAttempt.arg1 = s.arg1 := by simp [State.seedAttempt]
@[simp] theorem State.seedAttempt_arg2 (s : State) : s.seedAttempt.arg2 = s.arg2 := by simp [State.seedAttempt]
@[simp] theorem State.seedAttempt_res (s : State) : s.seedAttempt.res = s.res := by simp [State.seedAttempt]
@[simp] theorem State.seedAttempt_seq (s : State) : s.seedAttempt.seq = s.seq := by simp [State.seedAttempt]
@[simp] theorem State.seedAttempt_chip (s : State) : s.seedAttempt.chip = s.chip := by simp [State.seedAttempt]
@[simp] theorem State.seedAttempt_bus (s : State) : s.seedAttempt.bus = s.bus := by simp [State.seedAttempt]
@[simp] theorem State.seedAttempt_host (s : State) : s.seedAttempt.host = s.host := by simp [State.seedAttempt]
@[simp] theorem State.seedAttempt_draws (s : State) : s.seedAttempt.draws = s.draws := by simp [State.seedAttempt]
@[simp] theorem State.seedAttempt_epoch (s : State) : s.seedAttempt.epoch = s.epoch := by simp [State.seedAttempt]

/-! ### seeded -/

@[simp] theorem State.seeded_tloCnt (s : State) : s.seeded.tloCnt = s.tloCnt := by simp only [State.seeded]; split <;> simp
@[simp] theorem State.seeded_thiCnt (s : State) : s.seeded.thiCnt = s.thiCnt := by simp only [State.seeded]; split <;> simp
@[simp] theorem State.seeded_tloEn (s : State) : s.seeded.tloEn = s.tloEn := by simp only [State.seeded]; split <;> simp
@[simp] theorem State.seeded_thiEn (s : State) : s.seeded.thiEn = s.thiEn := by simp only [State.seeded]; split <;> simp
@[simp] theorem State.seeded_thiCascade (s : State) : s.seeded.thiCascade = s.thiCascade := by simp only [State.seeded]; split <;> simp
@[simp] theorem State.seeded_tmrState (s : State) : s.seeded.tmrState = s.tmrState := by simp only [State.seeded]; split <;> simp
@[simp] theorem State.seeded_ime (s : State) : s.seeded.ime = s.ime := by simp only [State.seeded]; split <;> simp
@[simp] theorem State.seeded_flashId (s : State) : s.seeded.flashId = s.flashId := by simp only [State.seeded]; split <;> simp
@[simp] theorem State.seeded_pbuf (s : State) : s.seeded.pbuf = s.pbuf := by simp only [State.seeded]; split <;> simp
@[simp] theorem State.seeded_samp (s : State) : s.seeded.samp = s.samp := by simp only [State.seeded]; split <;> simp
@[simp] theorem State.seeded_result (s : State) : s.seeded.result = s.result := by simp only [State.seeded]; split <;> simp
@[simp] theorem State.seeded_opsel (s : State) : s.seeded.opsel = s.opsel := by simp only [State.seeded]; split <;> simp
@[simp] theorem State.seeded_arg0 (s : State) : s.seeded.arg0 = s.arg0 := by simp only [State.seeded]; split <;> simp
@[simp] theorem State.seeded_arg1 (s : State) : s.seeded.arg1 = s.arg1 := by simp only [State.seeded]; split <;> simp
@[simp] theorem State.seeded_arg2 (s : State) : s.seeded.arg2 = s.arg2 := by simp only [State.seeded]; split <;> simp
@[simp] theorem State.seeded_res (s : State) : s.seeded.res = s.res := by simp only [State.seeded]; split <;> simp
@[simp] theorem State.seeded_seq (s : State) : s.seeded.seq = s.seq := by simp only [State.seeded]; split <;> simp
@[simp] theorem State.seeded_chip (s : State) : s.seeded.chip = s.chip := by simp only [State.seeded]; split <;> simp
@[simp] theorem State.seeded_bus (s : State) : s.seeded.bus = s.bus := by simp only [State.seeded]; split <;> simp
@[simp] theorem State.seeded_host (s : State) : s.seeded.host = s.host := by simp only [State.seeded]; split <;> simp
@[simp] theorem State.seeded_draws (s : State) : s.seeded.draws = s.draws := by simp only [State.seeded]; split <;> simp
@[simp] theorem State.seeded_epoch (s : State) : s.seeded.epoch = s.epoch := by simp only [State.seeded]; split <;> simp

/-! ### genStep -/

@[simp] theorem State.genStep_scr (s : State) : s.genStep.scr = s.scr := rfl
@[simp] theorem State.genStep_gen (s : State) : s.genStep.gen = genAdvance s.gen := rfl
@[simp] theorem State.genStep_genInit (s : State) : s.genStep.genInit = s.genInit := rfl
@[simp] theorem State.genStep_tloCnt (s : State) : s.genStep.tloCnt = s.tloCnt := rfl
@[simp] theorem State.genStep_thiCnt (s : State) : s.genStep.thiCnt = s.thiCnt := rfl
@[simp] theorem State.genStep_tloEn (s : State) : s.genStep.tloEn = s.tloEn := rfl
@[simp] theorem State.genStep_thiEn (s : State) : s.genStep.thiEn = s.thiEn := rfl
@[simp] theorem State.genStep_thiCascade (s : State) : s.genStep.thiCascade = s.thiCascade := rfl
@[simp] theorem State.genStep_tmrState (s : State) : s.genStep.tmrState = s.tmrState := rfl
@[simp] theorem State.genStep_ime (s : State) : s.genStep.ime = s.ime := rfl
@[simp] theorem State.genStep_flashId (s : State) : s.genStep.flashId = s.flashId := rfl
@[simp] theorem State.genStep_pbuf (s : State) : s.genStep.pbuf = s.pbuf := rfl
@[simp] theorem State.genStep_samp (s : State) : s.genStep.samp = s.samp := rfl
@[simp] theorem State.genStep_result (s : State) : s.genStep.result = s.result := rfl
@[simp] theorem State.genStep_opsel (s : State) : s.genStep.opsel = s.opsel := rfl
@[simp] theorem State.genStep_arg0 (s : State) : s.genStep.arg0 = s.arg0 := rfl
@[simp] theorem State.genStep_arg1 (s : State) : s.genStep.arg1 = s.arg1 := rfl
@[simp] theorem State.genStep_arg2 (s : State) : s.genStep.arg2 = s.arg2 := rfl
@[simp] theorem State.genStep_res (s : State) : s.genStep.res = s.res := rfl
@[simp] theorem State.genStep_seq (s : State) : s.genStep.seq = s.seq := rfl
@[simp] theorem State.genStep_chip (s : State) : s.genStep.chip = s.chip := rfl
@[simp] theorem State.genStep_bus (s : State) : s.genStep.bus = s.bus := rfl
@[simp] theorem State.genStep_host (s : State) : s.genStep.host = s.host := rfl
@[simp] theorem State.genStep_draws (s : State) : s.genStep.draws = s.draws := rfl
@[simp] theorem State.genStep_epoch (s : State) : s.genStep.epoch = s.epoch := rfl

/-! ### setupTimer -/

@[simp] theorem State.setupTimer_scr (s : State) : s.setupTimer.scr = s.scr := by simp [State.setupTimer, State.tick, State.advanceCounters]
@[simp] theorem State.setupTimer_gen (s : State) : s.setupTimer.gen = s.gen := by simp [State.setupTimer, State.tick, State.advanceCounters]
@[simp] theorem State.setupTimer_genInit (s : State) : s.setupTimer.genInit = s.genInit := by simp [State.setupTimer, State.tick, State.advanceCounters]
@[simp] theorem State.setupTimer_tloCnt (s : State) : s.setupTimer.tloCnt = 0 := by simp [State.setupTimer, State.tick, State.advanceCounters]
@[simp] theorem State.setupTimer_thiCnt (s : State) : s.setupTimer.thiCnt = 0 := by simp [State.setupTimer, State.tick, State.advanceCounters]
@[simp] theorem State.setupTimer_tloEn (s : State) : s.setupTimer.tloEn = false := by simp [State.setupTimer, State.tick, State.advanceCounters]
@[simp] theorem State.setupTimer_thiEn (s : State) : s.setupTimer.thiEn = true := by simp [State.setupTimer, State.tick, State.advanceCounters]
@[simp] theorem State.setupTimer_thiCascade (s : State) : s.setupTimer.thiCascade = true := by simp [State.setupTimer, State.tick, State.advanceCounters]
@[simp] theorem State.setupTimer_tmrState (s : State) : s.setupTimer.tmrState = .armed := by simp [State.setupTimer, State.tick, State.advanceCounters]
@[simp] theorem State.setupTimer_ime (s : State) : s.setupTimer.ime = false := by simp [State.setupTimer, State.tick, State.advanceCounters]
@[simp] theorem State.setupTimer_flashId (s : State) : s.setupTimer.flashId = s.flashId := by simp [State.setupTimer, State.tick, State.advanceCounters]
@[simp] theorem State.setupTimer_pbuf (s : State) : s.setupTimer.pbuf = s.pbuf := by simp [State.setupTimer, State.tick, State.advanceCounters]
@[simp] theorem State.setupTimer_samp (s : State) : s.setupTimer.samp = s.samp := by simp [State.setupTimer, State.tick, State.advanceCounters]
@[simp] theorem State.setupTimer_result (s : State) : s.setupTimer.result = s.result := by simp [State.setupTimer, State.tick, State.advanceCounters]
@[simp] theorem State.setupTimer_opsel (s : State) : s.setupTimer.opsel = s.opsel := by simp [State.setupTimer, State.tick, State.advanceCounters]
@[simp] theorem State.setupTimer_arg0 (s : State) : s.setupTimer.arg0 = s.arg0 := by simp [State.setupTimer, State.tick, State.advanceCounters]
@[simp] theorem State.setupTimer_arg1 (s : State) : s.setupTimer.arg1 = s.arg1 := by simp [State.setupTimer, State.tick, State.advanceCounters]
@[simp] theorem State.setupTimer_arg2 (s : State) : s.setupTimer.arg2 = s.arg2 := by simp [State.setupTimer, State.tick, State.advanceCounters]
@[simp] theorem State.setupTimer_res (s : State) : s.setupTimer.res = s.res := by simp [State.setupTimer, State.tick, State.advanceCounters]
@[simp] theorem State.setupTimer_seq (s : State) : s.setupTimer.seq = s.seq := by simp [State.setupTimer, State.tick, State.advanceCounters]
@[simp] theorem State.setupTimer_chip (s : State) : s.setupTimer.chip = s.chip := by simp [State.setupTimer, State.tick, State.advanceCounters]
@[simp] theorem State.setupTimer_bus (s : State) : s.setupTimer.bus = s.bus := by simp [State.setupTimer, State.tick, State.advanceCounters]
@[simp] theorem State.setupTimer_host (s : State) : s.setupTimer.host = s.host := by simp [State.setupTimer, State.tick, State.advanceCounters]
@[simp] theorem State.setupTimer_draws (s : State) : s.setupTimer.draws = s.draws + 1 := by simp [State.setupTimer, State.tick, State.advanceCounters]
@[simp] theorem State.setupTimer_epoch (s : State) : s.setupTimer.epoch = s.epoch := by simp [State.setupTimer, State.tick, State.advanceCounters]

/-! ### startTimer -/

@[simp] theorem State.startTimer_scr (s : State) : s.startTimer.scr = s.scr := by simp [State.startTimer]
@[simp] theorem State.startTimer_gen (s : State) : s.startTimer.gen = s.gen := by simp [State.startTimer]
@[simp] theorem State.startTimer_genInit (s : State) : s.startTimer.genInit = s.genInit := by simp [State.startTimer]
@[simp] theorem State.startTimer_tloEn (s : State) : s.startTimer.tloEn = true := by simp [State.startTimer]
@[simp] theorem State.startTimer_thiEn (s : State) : s.startTimer.thiEn = s.thiEn := by simp [State.startTimer]
@[simp] theorem State.startTimer_thiCascade (s : State) : s.startTimer.thiCascade = s.thiCascade := by simp [State.startTimer]
@[simp] theorem State.startTimer_tmrState (s : State) : s.startTimer.tmrState = if s.tmrState = .armed then .running else .idle := by simp [State.startTimer]
@[simp] theorem State.startTimer_ime (s : State) : s.startTimer.ime = s.ime := by simp [State.startTimer]
@[simp] theorem State.startTimer_flashId (s : State) : s.startTimer.flashId = s.flashId := by simp [State.startTimer]
@[simp] theorem State.startTimer_pbuf (s : State) : s.startTimer.pbuf = s.pbuf := by simp [State.startTimer]
@[simp] theorem State.startTimer_samp (s : State) : s.startTimer.samp = s.samp := by simp [State.startTimer]
@[simp] theorem State.startTimer_result (s : State) : s.startTimer.result = s.result := by simp [State.startTimer]
@[simp] theorem State.startTimer_opsel (s : State) : s.startTimer.opsel = s.opsel := by simp [State.startTimer]
@[simp] theorem State.startTimer_arg0 (s : State) : s.startTimer.arg0 = s.arg0 := by simp [State.startTimer]
@[simp] theorem State.startTimer_arg1 (s : State) : s.startTimer.arg1 = s.arg1 := by simp [State.startTimer]
@[simp] theorem State.startTimer_arg2 (s : State) : s.startTimer.arg2 = s.arg2 := by simp [State.startTimer]
@[simp] theorem State.startTimer_res (s : State) : s.startTimer.res = s.res := by simp [State.startTimer]
@[simp] theorem State.startTimer_seq (s : State) : s.startTimer.seq = s.seq := by simp [State.startTimer]
@[simp] theorem State.startTimer_chip (s : State) : s.startTimer.chip = s.chip := by simp [State.startTimer]
@[simp] theorem State.startTimer_bus (s : State) : s.startTimer.bus = s.bus := by simp [State.startTimer]
@[simp] theorem State.startTimer_host (s : State) : s.startTimer.host = s.host := by simp [State.startTimer]
@[simp] theorem State.startTimer_draws (s : State) : s.startTimer.draws = s.draws + 1 := by simp [State.startTimer]
@[simp] theorem State.startTimer_epoch (s : State) : s.startTimer.epoch = s.epoch := by simp [State.startTimer]

/-! ### endTimer -/

@[simp] theorem State.endTimer_scr (s : State) : s.endTimer.scr = s.scr := by simp [State.endTimer, State.tick, State.advanceCounters]
@[simp] theorem State.endTimer_gen (s : State) : s.endTimer.gen = s.gen := by simp [State.endTimer, State.tick, State.advanceCounters]
@[simp] theorem State.endTimer_genInit (s : State) : s.endTimer.genInit = s.genInit := by simp [State.endTimer, State.tick, State.advanceCounters]
@[simp] theorem State.endTimer_tloCnt (s : State) : s.endTimer.tloCnt = s.tloCnt := by simp [State.endTimer, State.tick, State.advanceCounters]
@[simp] theorem State.endTimer_thiCnt (s : State) : s.endTimer.thiCnt = s.thiCnt := by simp [State.endTimer, State.tick, State.advanceCounters]
@[simp] theorem State.endTimer_tloEn (s : State) : s.endTimer.tloEn = false := by simp [State.endTimer, State.tick, State.advanceCounters]
@[simp] theorem State.endTimer_thiEn (s : State) : s.endTimer.thiEn = s.thiEn := by simp [State.endTimer, State.tick, State.advanceCounters]
@[simp] theorem State.endTimer_thiCascade (s : State) : s.endTimer.thiCascade = s.thiCascade := by simp [State.endTimer, State.tick, State.advanceCounters]
@[simp] theorem State.endTimer_tmrState (s : State) : s.endTimer.tmrState = if s.tmrState = .running then .stopped else .idle := by simp [State.endTimer, State.tick, State.advanceCounters]
@[simp] theorem State.endTimer_ime (s : State) : s.endTimer.ime = true := by simp [State.endTimer, State.tick, State.advanceCounters]
@[simp] theorem State.endTimer_flashId (s : State) : s.endTimer.flashId = s.flashId := by simp [State.endTimer, State.tick, State.advanceCounters]
@[simp] theorem State.endTimer_pbuf (s : State) : s.endTimer.pbuf = s.pbuf := by simp [State.endTimer, State.tick, State.advanceCounters]
@[simp] theorem State.endTimer_samp (s : State) : s.endTimer.samp = s.samp := by simp [State.endTimer, State.tick, State.advanceCounters]
@[simp] theorem State.endTimer_result (s : State) : s.endTimer.result = s.result := by simp [State.endTimer, State.tick, State.advanceCounters]
@[simp] theorem State.endTimer_opsel (s : State) : s.endTimer.opsel = s.opsel := by simp [State.endTimer, State.tick, State.advanceCounters]
@[simp] theorem State.endTimer_arg0 (s : State) : s.endTimer.arg0 = s.arg0 := by simp [State.endTimer, State.tick, State.advanceCounters]
@[simp] theorem State.endTimer_arg1 (s : State) : s.endTimer.arg1 = s.arg1 := by simp [State.endTimer, State.tick, State.advanceCounters]
@[simp] theorem State.endTimer_arg2 (s : State) : s.endTimer.arg2 = s.arg2 := by simp [State.endTimer, State.tick, State.advanceCounters]
@[simp] theorem State.endTimer_res (s : State) : s.endTimer.res = s.res := by simp [State.endTimer, State.tick, State.advanceCounters]
@[simp] theorem State.endTimer_seq (s : State) : s.endTimer.seq = s.seq := by simp [State.endTimer, State.tick, State.advanceCounters]
@[simp] theorem State.endTimer_chip (s : State) : s.endTimer.chip = s.chip := by simp [State.endTimer, State.tick, State.advanceCounters]
@[simp] theorem State.endTimer_bus (s : State) : s.endTimer.bus = s.bus := by simp [State.endTimer, State.tick, State.advanceCounters]
@[simp] theorem State.endTimer_host (s : State) : s.endTimer.host = s.host := by simp [State.endTimer, State.tick, State.advanceCounters]
@[simp] theorem State.endTimer_draws (s : State) : s.endTimer.draws = s.draws + 1 := by simp [State.endTimer, State.tick, State.advanceCounters]
@[simp] theorem State.endTimer_epoch (s : State) : s.endTimer.epoch = s.epoch := by simp [State.endTimer, State.tick, State.advanceCounters]

/-! ### afterTimerResult -/

@[simp] theorem State.afterTimerResult_scr (s : State) : s.afterTimerResult.scr = s.scr := by unfold State.afterTimerResult; split <;> rfl
@[simp] theorem State.afterTimerResult_gen (s : State) : s.afterTimerResult.gen = s.gen := by unfold State.afterTimerResult; split <;> rfl
@[simp] theorem State.afterTimerResult_genInit (s : State) : s.afterTimerResult.genInit = s.genInit := by unfold State.afterTimerResult; split <;> rfl
@[simp] theorem State.afterTimerResult_tloCnt (s : State) : s.afterTimerResult.tloCnt = s.tloCnt := by unfold State.afterTimerResult; split <;> rfl
@[simp] theorem State.afterTimerResult_thiCnt (s : State) : s.afterTimerResult.thiCnt = s.thiCnt := by unfold State.afterTimerResult; split <;> rfl
@[simp] theorem State.afterTimerResult_tloEn (s : State) : s.afterTimerResult.tloEn = s.tloEn := by unfold State.afterTimerResult; split <;> rfl
@[simp] theorem State.afterTimerResult_thiEn (s : State) : s.afterTimerResult.thiEn = s.thiEn := by unfold State.afterTimerResult; split <;> rfl
@[simp] theorem State.afterTimerResult_thiCascade (s : State) : s.afterTimerResult.thiCascade = s.thiCascade := by unfold State.afterTimerResult; split <;> rfl
@[simp] theorem State.afterTimerResult_tmrState (s : State) : s.afterTimerResult.tmrState = s.tmrState := by unfold State.afterTimerResult; split <;> rfl
@[simp] theorem State.afterTimerResult_ime (s : State) : s.afterTimerResult.ime = s.ime := by unfold State.afterTimerResult; split <;> rfl
@[simp] theorem State.afterTimerResult_flashId (s : State) : s.afterTimerResult.flashId = s.flashId := by unfold State.afterTimerResult; split <;> rfl
@[simp] theorem State.afterTimerResult_pbuf (s : State) : s.afterTimerResult.pbuf = s.pbuf := by unfold State.afterTimerResult; split <;> rfl
@[simp] theorem State.afterTimerResult_samp (s : State) : s.afterTimerResult.samp = s.samp := by unfold State.afterTimerResult; split <;> rfl
@[simp] theorem State.afterTimerResult_result (s : State) : s.afterTimerResult.result = s.result := by unfold State.afterTimerResult; split <;> rfl
@[simp] theorem State.afterTimerResult_opsel (s : State) : s.afterTimerResult.opsel = s.opsel := by unfold State.afterTimerResult; split <;> rfl
@[simp] theorem State.afterTimerResult_arg0 (s : State) : s.afterTimerResult.arg0 = s.arg0 := by unfold State.afterTimerResult; split <;> rfl
@[simp] theorem State.afterTimerResult_arg1 (s : State) : s.afterTimerResult.arg1 = s.arg1 := by unfold State.afterTimerResult; split <;> rfl
@[simp] theorem State.afterTimerResult_arg2 (s : State) : s.afterTimerResult.arg2 = s.arg2 := by unfold State.afterTimerResult; split <;> rfl
@[simp] theorem State.afterTimerResult_res (s : State) : s.afterTimerResult.res = s.res := by unfold State.afterTimerResult; split <;> rfl
@[simp] theorem State.afterTimerResult_seq (s : State) : s.afterTimerResult.seq = s.seq := by unfold State.afterTimerResult; split <;> rfl
@[simp] theorem State.afterTimerResult_chip (s : State) : s.afterTimerResult.chip = s.chip := by unfold State.afterTimerResult; split <;> rfl
@[simp] theorem State.afterTimerResult_bus (s : State) : s.afterTimerResult.bus = s.bus := by unfold State.afterTimerResult; split <;> rfl
@[simp] theorem State.afterTimerResult_host (s : State) : s.afterTimerResult.host = s.host := by unfold State.afterTimerResult; split <;> rfl
@[simp] theorem State.afterTimerResult_epoch (s : State) : s.afterTimerResult.epoch = s.epoch := by unfold State.afterTimerResult; split <;> rfl

/-! ### present -/

@[simp] theorem State.present_scr (s : State) (r : Request) : (s.present r).scr = s.scr := rfl
@[simp] theorem State.present_gen (s : State) (r : Request) : (s.present r).gen = s.gen := rfl
@[simp] theorem State.present_genInit (s : State) (r : Request) : (s.present r).genInit = s.genInit := rfl
@[simp] theorem State.present_tloCnt (s : State) (r : Request) : (s.present r).tloCnt = s.tloCnt := rfl
@[simp] theorem State.present_thiCnt (s : State) (r : Request) : (s.present r).thiCnt = s.thiCnt := rfl
@[simp] theorem State.present_tloEn (s : State) (r : Request) : (s.present r).tloEn = s.tloEn := rfl
@[simp] theorem State.present_thiEn (s : State) (r : Request) : (s.present r).thiEn = s.thiEn := rfl
@[simp] theorem State.present_thiCascade (s : State) (r : Request) : (s.present r).thiCascade = s.thiCascade := rfl
@[simp] theorem State.present_tmrState (s : State) (r : Request) : (s.present r).tmrState = s.tmrState := rfl
@[simp] theorem State.present_ime (s : State) (r : Request) : (s.present r).ime = s.ime := rfl
@[simp] theorem State.present_flashId (s : State) (r : Request) : (s.present r).flashId = s.flashId := rfl
@[simp] theorem State.present_pbuf (s : State) (r : Request) : (s.present r).pbuf = s.pbuf := rfl
@[simp] theorem State.present_samp (s : State) (r : Request) : (s.present r).samp = s.samp := rfl
@[simp] theorem State.present_result (s : State) (r : Request) : (s.present r).result = s.result := rfl
@[simp] theorem State.present_opsel (s : State) (r : Request) : (s.present r).opsel = r.opsel := rfl
@[simp] theorem State.present_arg0 (s : State) (r : Request) : (s.present r).arg0 = r.arg0 := rfl
@[simp] theorem State.present_arg1 (s : State) (r : Request) : (s.present r).arg1 = r.arg1 := rfl
@[simp] theorem State.present_arg2 (s : State) (r : Request) : (s.present r).arg2 = r.arg2 := rfl
@[simp] theorem State.present_res (s : State) (r : Request) : (s.present r).res = s.res := rfl
@[simp] theorem State.present_seq (s : State) (r : Request) : (s.present r).seq = s.seq := rfl
@[simp] theorem State.present_chip (s : State) (r : Request) : (s.present r).chip = s.chip := rfl
@[simp] theorem State.present_bus (s : State) (r : Request) : (s.present r).bus = s.bus := rfl
@[simp] theorem State.present_host (s : State) (r : Request) : (s.present r).host = s.host := rfl
@[simp] theorem State.present_draws (s : State) (r : Request) : (s.present r).draws = s.draws := rfl
@[simp] theorem State.present_epoch (s : State) (r : Request) : (s.present r).epoch = s.epoch := rfl

/-! ### externalReset -/

@[simp] theorem State.externalReset_scr (s : State) : s.externalReset.scr = Config.scrSeed := rfl
@[simp] theorem State.externalReset_genInit (s : State) : s.externalReset.genInit = false := rfl
@[simp] theorem State.externalReset_tloEn (s : State) : s.externalReset.tloEn = false := rfl
@[simp] theorem State.externalReset_thiEn (s : State) : s.externalReset.thiEn = false := rfl
@[simp] theorem State.externalReset_thiCascade (s : State) : s.externalReset.thiCascade = false := rfl
@[simp] theorem State.externalReset_tmrState (s : State) : s.externalReset.tmrState = .idle := rfl
@[simp] theorem State.externalReset_pbuf (s : State) : s.externalReset.pbuf = [] := rfl
@[simp] theorem State.externalReset_samp (s : State) : s.externalReset.samp = [] := rfl
@[simp] theorem State.externalReset_result (s : State) : s.externalReset.result = [] := rfl
@[simp] theorem State.externalReset_seq (s : State) : s.externalReset.seq = Sequencer.empty := rfl
@[simp] theorem State.externalReset_chip (s : State) : s.externalReset.chip = s.chip := rfl
@[simp] theorem State.externalReset_bus (s : State) : s.externalReset.bus = .resetHere :: s.bus := rfl
@[simp] theorem State.externalReset_host (s : State) : s.externalReset.host = s.host := rfl
@[simp] theorem State.externalReset_draws (s : State) : s.externalReset.draws = s.draws := rfl
@[simp] theorem State.externalReset_epoch (s : State) : s.externalReset.epoch = s.epoch + 1 := rfl

end Sys2Proof.Machine
end

