-- ==== Sys2Proof/Laws/Store.lean ====
section
/-! SUPPORT. The sparse arrays and the device's byte array: a read after a write, and every operation
keeps the canonical form. -/

namespace Sys2Proof.Machine

variable {α : Type}

/-! ## Sparse arrays -/

@[simp] theorem storeRead_nil (a : Nat) : storeRead ([] : List (Nat × α)) a = none := rfl

theorem storeRead_cons (k : Nat) (v : α) (m : List (Nat × α)) (a : Nat) :
    storeRead ((k, v) :: m) a = if k = a then some v else storeRead m a := rfl

theorem storeRead_write (m : List (Nat × α)) (a b : Nat) (v : α) :
    storeRead (storeWrite m a v) b = if a = b then some v else storeRead m b := by
  induction m with
  | nil => simp [storeWrite, storeRead_cons]
  | cons c m ih =>
    obtain ⟨k, w⟩ := c
    simp only [storeWrite]
    split
    · simp only [storeRead_cons]
    · split
      · subst_vars
        simp only [storeRead_cons]
        split <;> simp_all
      · simp only [storeRead_cons, ih]
        split <;> split <;> simp_all

@[simp] theorem storeRead_write_same (m : List (Nat × α)) (a : Nat) (v : α) :
    storeRead (storeWrite m a v) a = some v := by simp [storeRead_write]

theorem storeRead_write_other (m : List (Nat × α)) {a b : Nat} (v : α) (h : a ≠ b) :
    storeRead (storeWrite m a v) b = storeRead m b := by simp [storeRead_write, h]

theorem storeAbove_write (m : List (Nat × α)) {a b : Nat} (v : α) (hb : b < a)
    (h : storeAbove b m = true) : storeAbove b (storeWrite m a v) = true := by
  induction m with
  | nil => simp [storeWrite, storeAbove, hb]
  | cons c m ih =>
    obtain ⟨k, w⟩ := c
    simp only [storeAbove, Bool.and_eq_true, decide_eq_true_eq] at h
    simp only [storeWrite]
    split
    · simp [storeAbove, hb, h]
    · split
      · simp [storeAbove, hb, h]
      · simp [storeAbove, h, ih h.2]

theorem storeAbove_mono {m : List (Nat × α)} {a b : Nat} (hab : b ≤ a)
    (h : storeAbove a m = true) : storeAbove b m = true := by
  induction m with
  | nil => rfl
  | cons c m ih =>
    obtain ⟨k, w⟩ := c
    simp only [storeAbove, Bool.and_eq_true, decide_eq_true_eq] at h ⊢
    exact ⟨by omega, ih h.2⟩

theorem storeRising_write (m : List (Nat × α)) (a : Nat) (v : α)
    (h : storeRising m = true) : storeRising (storeWrite m a v) = true := by
  induction m with
  | nil => simp [storeWrite, storeRising, storeAbove]
  | cons c m ih =>
    obtain ⟨k, w⟩ := c
    simp only [storeRising, Bool.and_eq_true] at h
    simp only [storeWrite]
    split
    · simp only [storeRising, storeAbove, Bool.and_eq_true, decide_eq_true_eq]
      exact ⟨⟨by assumption, storeAbove_mono (by omega) h.1⟩, h⟩
    · split
      · subst_vars
        simp only [storeRising, Bool.and_eq_true]
        exact h
      · simp only [storeRising, Bool.and_eq_true]
        exact ⟨storeAbove_write m v (by omega) h.1, ih h.2⟩

theorem storeAll_write (p : Nat × α → Bool) (m : List (Nat × α)) (a : Nat) (v : α)
    (h : m.all p = true) (hv : p (a, v) = true) : (storeWrite m a v).all p = true := by
  induction m with
  | nil => simp [storeWrite, hv]
  | cons c m ih =>
    obtain ⟨k, w⟩ := c
    simp only [List.all_cons, Bool.and_eq_true] at h
    simp only [storeWrite]
    split
    · simp only [List.all_cons, Bool.and_eq_true]; exact ⟨hv, h⟩
    · split
      · simp only [List.all_cons, Bool.and_eq_true]; exact ⟨hv, h.2⟩
      · simp only [List.all_cons, Bool.and_eq_true]; exact ⟨h.1, ih h.2⟩

theorem storeWf_write {bound : Nat} {m : List (Nat × α)} {a : Nat} (v : α)
    (h : storeWf bound m = true) (ha : a < bound) : storeWf bound (storeWrite m a v) = true := by
  simp only [storeWf, Bool.and_eq_true] at h ⊢
  exact ⟨storeRising_write m a v h.1, storeAll_write _ m a v h.2 (by simpa using ha)⟩

theorem storeRising_filter (p : Nat × α → Bool) (m : List (Nat × α))
    (h : storeRising m = true) : storeRising (m.filter p) = true := by
  have above : ∀ (m : List (Nat × α)) (a : Nat), storeAbove a m = true →
      storeAbove a (m.filter p) = true := by
    intro m a hm
    induction m with
    | nil => rfl
    | cons c m ih =>
      obtain ⟨k, w⟩ := c
      simp only [storeAbove, Bool.and_eq_true] at hm
      simp only [List.filter_cons]
      split
      · simp only [storeAbove, Bool.and_eq_true]; exact ⟨hm.1, ih hm.2⟩
      · exact ih hm.2
  induction m with
  | nil => rfl
  | cons c m ih =>
    obtain ⟨k, w⟩ := c
    simp only [storeRising, Bool.and_eq_true] at h
    simp only [List.filter_cons]
    split
    · simp only [storeRising, Bool.and_eq_true]; exact ⟨above m k h.1, ih h.2⟩
    · exact ih h.2

theorem storeRead_filter (q : Nat → Bool) (m : List (Nat × α)) (a : Nat) :
    storeRead (m.filter fun c => q c.1) a = if q a then storeRead m a else none := by
  induction m with
  | nil => simp
  | cons c m ih =>
    obtain ⟨k, w⟩ := c
    simp only [List.filter_cons]
    split
    · simp only [storeRead_cons, ih]
      split <;> simp_all
    · simp only [ih, storeRead_cons]
      split
      · split
        · simp_all
        · rfl
      · rfl

/-! ## The byte array of the reference device -/

theorem Memory.read_write (m : Memory) (a b : Nat) (v : Byte) :
    Memory.read (Memory.write m a v) b = if a = b then v else Memory.read m b := by
  unfold Memory.read Memory.write
  split
  · rename_i hv
    rw [storeRead_filter (fun k => k != a)]
    by_cases h : a = b
    · subst h; simp [hv]
    · simp [h, Ne.symm h]
  · rw [storeRead_write]
    split <;> rfl

@[simp] theorem Memory.read_write_same (m : Memory) (a : Nat) (v : Byte) :
    Memory.read (Memory.write m a v) a = v := by simp [Memory.read_write]

theorem Memory.read_write_other (m : Memory) {a b : Nat} (v : Byte) (h : a ≠ b) :
    Memory.read (Memory.write m a v) b = Memory.read m b := by simp [Memory.read_write, h]

theorem Memory.read_eraseSector (m : Memory) (base a : Nat) :
    Memory.read (Memory.eraseSector m base) a =
      if base ≤ a ∧ a < base + Params.sectorSize then Params.erased else Memory.read m a := by
  unfold Memory.read Memory.eraseSector
  rw [storeRead_filter (fun k => decide (k < base) || decide (base + Params.sectorSize ≤ k))]
  by_cases h : base ≤ a ∧ a < base + Params.sectorSize
  · rw [if_pos h, if_neg (by simp; omega)]
    rfl
  · rw [if_neg h, if_pos (by simp; omega)]

theorem Memory.wf_write {m : Memory} {a : Nat} (v : Byte) (h : Memory.wf m = true)
    (ha : a < Params.numBanks * Params.windowSize) : Memory.wf (Memory.write m a v) = true := by
  simp only [Memory.wf, Bool.and_eq_true] at h ⊢
  unfold Memory.write
  split
  · exact ⟨storeRising_filter _ m h.1, by
      rw [List.all_eq_true] at h ⊢
      exact fun c hc => h.2 c (List.mem_filter.mp hc).1⟩
  · rename_i hv
    exact ⟨storeRising_write m a v h.1, storeAll_write _ m a v h.2 (by simp [hv, ha])⟩

theorem Memory.wf_eraseSector {m : Memory} (base : Nat) (h : Memory.wf m = true) :
    Memory.wf (Memory.eraseSector m base) = true := by
  simp only [Memory.wf, Bool.and_eq_true] at h ⊢
  exact ⟨storeRising_filter _ m h.1, by
    rw [List.all_eq_true] at h ⊢
    exact fun c hc => h.2 c (List.mem_filter.mp hc).1⟩

theorem cellAddr_lt (bank : BitVec 1) (off : U16) :
    cellAddr bank off < Params.numBanks * Params.windowSize := by
  have h1 := bank.isLt
  have h2 := off.isLt
  simp only [cellAddr, Params.numBanks, Params.windowSize]
  omega

end Sys2Proof.Machine
end

