-- ==== Sys2Proof/Laws/Run.lean ====
section
/-! SUPPORT. Runs: how they compose, what one step of a running operation is, and how the pending steps
commute with the operations on the rest of the state. -/

namespace Sys2Proof.Machine

/-! ## Composition -/

theorem core_run_succ (k : Nat) (s : State) :
    Host.Core.run core (k + 1) s =
      match step s with
      | .next t => Host.Core.run core k t
      | .fault r => .fault r
      | .refused r => .refused r := by
  have h : core.step s = step s := rfl
  simp only [Host.Core.run, h]
  cases step s <;> rfl

theorem core_run_zero (s : State) : Host.Core.run core 0 s = .next s := rfl

theorem core_run_add (j k : Nat) (s : State) :
    Host.Core.run core (j + k) s =
      match Host.Core.run core j s with
      | .next t => Host.Core.run core k t
      | .fault r => .fault r
      | .refused r => .refused r := by
  induction j generalizing s with
  | zero => simp [core_run_zero]
  | succ j ih =>
    rw [show j + 1 + k = (j + k) + 1 by omega, core_run_succ, core_run_succ]
    cases step s with
    | next t => exact ih t
    | fault r => rfl
    | refused r => rfl

theorem Runs.refl (s : State) : Runs s s := ⟨0, rfl⟩

theorem Runs.trans {s t u : State} (h1 : Runs s t) (h2 : Runs t u) : Runs s u := by
  obtain ⟨j, hj⟩ := h1
  obtain ⟨k, hk⟩ := h2
  exact ⟨j + k, by rw [core_run_add, hj]; exact hk⟩

theorem Runs.head {s t u : State} (h1 : step s = .next t) (h2 : Runs t u) : Runs s u := by
  obtain ⟨k, hk⟩ := h2
  exact ⟨k + 1, by rw [core_run_succ, h1]; exact hk⟩

/-! ## One step of a running operation -/

theorem step_running {s : State} {m : Micro} {rest : List Micro} (hh : s.host = [])
    (ht : s.seq.todo = m :: rest) : step s = runMicro m (s.withTodo rest) := by
  simp [step, hostStep, engineStep, hh, ht]

/-- With no move of the host due and no operation running, FSTE waits (R213). -/
theorem step_waiting {s : State} (hh : s.host = []) (ht : s.seq.todo = []) : step s = .next s := by
  simp [step, hostStep, engineStep, hh, ht]

theorem Runs.micro {s t u : State} {m : Micro} {rest : List Micro} (hh : s.host = [])
    (hm : runMicro m (s.withTodo rest) = .next t) (h : Runs t u) :
    Runs (s.withTodo (m :: rest)) u :=
  Runs.head (by rw [step_running (by simpa using hh) rfl]; exact hm) h

/-! ## Pending steps and the other operations -/

@[simp] theorem State.withTodo_withTodo (s : State) (l k : List Micro) :
    (s.withTodo l).withTodo k = s.withTodo k := rfl

@[simp] theorem State.withTodo_todo (s : State) : s.withTodo s.seq.todo = s := rfl

theorem State.push_eq (s : State) (l : List Micro) : s.push l = s.withTodo (l ++ s.seq.todo) := rfl

@[simp] theorem State.withTodo_push (s : State) (l k : List Micro) :
    (s.withTodo l).push k = s.withTodo (k ++ l) := rfl

@[simp] theorem State.withTodo_setOk (s : State) (l : List Micro) (b : Bool) :
    (s.withTodo l).setOk b = (s.setOk b).withTodo l := rfl

@[simp] theorem State.withTodo_setLast (s : State) (l : List Micro) (b : Byte) :
    (s.withTodo l).setLast b = (s.setLast b).withTodo l := rfl

@[simp] theorem State.withTodo_clearSeq (s : State) (l : List Micro) :
    (s.withTodo l).clearSeq = s.clearSeq := rfl

theorem State.withTodo_advanceCounters (s : State) (l : List Micro) (c : Nat) :
    (s.withTodo l).advanceCounters c = (s.advanceCounters c).withTodo l := by
  by_cases h : s.tloEn = true <;> simp [State.advanceCounters, State.withTodo, h]

@[simp] theorem State.withTodo_tick (s : State) (l : List Micro) :
    (s.withTodo l).tick = s.tick.withTodo l := by
  simp only [State.tick, State.withTodo_draws, State.withTodo_advanceCounters]
  rfl

@[simp] theorem State.withTodo_busWrite (s : State) (l : List Micro) (off : U16) (v : Byte) :
    (s.withTodo l).busWrite off v = (s.busWrite off v).withTodo l := by
  unfold State.busWrite; rw [← State.withTodo_tick]; rfl

@[simp] theorem State.withTodo_busByte (s : State) (l : List Micro) (off : U16) :
    (s.withTodo l).busByte off = s.busByte off := rfl

@[simp] theorem State.withTodo_busRead (s : State) (l : List Micro) (off : U16) :
    (s.withTodo l).busRead off = (s.busRead off).withTodo l := by
  unfold State.busRead; rw [← State.withTodo_tick]; rfl

@[simp] theorem State.withTodo_setupTimer (s : State) (l : List Micro) :
    (s.withTodo l).setupTimer = s.setupTimer.withTodo l := by
  unfold State.setupTimer; rw [← State.withTodo_tick]; rfl

@[simp] theorem State.withTodo_startTimer (s : State) (l : List Micro) :
    (s.withTodo l).startTimer = s.startTimer.withTodo l := by
  unfold State.startTimer; rw [← State.withTodo_tick]; rfl

@[simp] theorem State.withTodo_endTimer (s : State) (l : List Micro) :
    (s.withTodo l).endTimer = s.endTimer.withTodo l := by
  unfold State.endTimer; rw [← State.withTodo_tick]; rfl

@[simp] theorem State.withTodo_load (s : State) (l k : List Micro) :
    (s.withTodo l).load k = s.tick.withTodo (k ++ l) := State.withTodo_tick s _

theorem State.load_eq (s : State) (l : List Micro) : s.load l = s.tick.withTodo (l ++ s.seq.todo) :=
  State.withTodo_tick s _

/-! ## What a Tick does to the counters -/

theorem State.tick_held {s : State} (h : s.tloEn = false) :
    s.tick.tloCnt = s.tloCnt ∧ s.tick.thiCnt = s.thiCnt := by
  simp [State.tick, State.advanceCounters, h, State.drawn]

theorem State.busWrite_held {s : State} (h : s.tloEn = false) (off : U16) (v : Byte) :
    (s.busWrite off v).tloCnt = s.tloCnt ∧ (s.busWrite off v).thiCnt = s.thiCnt :=
  State.tick_held (s := { s with
      chip := (s.chip.write off v s.draws).1
      draws := (s.chip.write off v s.draws).2
      bus := .write off v :: s.bus }) h

theorem State.busRead_held {s : State} (h : s.tloEn = false) (off : U16) :
    (s.busRead off).tloCnt = s.tloCnt ∧ (s.busRead off).thiCnt = s.thiCnt :=
  State.tick_held (s := { s with
      chip := (s.chip.read off s.draws).chip
      draws := (s.chip.read off s.draws).draws
      bus := .read off (s.busByte off) :: s.bus }) h

/-! ## The oracle chip -/

@[simp] theorem Chip.write_oracle (answers : List Byte) (off : U16) (v : Byte) (n : Nat) :
    (Chip.oracle answers).write off v n = (.oracle answers, n) := rfl

@[simp] theorem Chip.read_oracle_cons (b : Byte) (answers : List Byte) (off : U16) (n : Nat) :
    (Chip.oracle (b :: answers)).read off n = ⟨b, .oracle answers, n⟩ := rfl

theorem State.busByte_oracle {s : State} {b : Byte} {answers : List Byte}
    (h : s.chip = .oracle (b :: answers)) (off : U16) : s.busByte off = b := by
  simp [State.busByte, h]

end Sys2Proof.Machine
end

