-- ==== Sys2Proof/Laws/Bus.lean ====
section
/-! SUPPORT. Bus cycles and runs: what a sequence of cycles leaves alone, and what it means that pending
steps, fed some answers of the oracle chip, take one state to another. -/

namespace Sys2Proof.Machine

/-! ## What bus cycles leave alone -/

theorem onlyBus_iff (s u : State) :
    OnlyBus s u ↔
      (u.scr = s.scr ∧
      u.gen = s.gen ∧
      u.genInit = s.genInit ∧
      u.tloEn = s.tloEn ∧
      u.thiEn = s.thiEn ∧
      u.thiCascade = s.thiCascade ∧
      u.tmrState = s.tmrState ∧
      u.ime = s.ime ∧
      u.flashId = s.flashId ∧
      u.pbuf = s.pbuf ∧
      u.samp = s.samp ∧
      u.result = s.result ∧
      u.opsel = s.opsel ∧
      u.arg0 = s.arg0 ∧
      u.arg1 = s.arg1 ∧
      u.arg2 = s.arg2 ∧
      u.res = s.res ∧
      u.seq = s.seq ∧
      u.host = s.host ∧
      u.epoch = s.epoch) ∧
      (s.tloEn = false → u.tloCnt = s.tloCnt ∧ u.thiCnt = s.thiCnt) := by
  unfold OnlyBus
  refine and_congr_left fun _ => ?_
  cases s
  cases u
  simp only [State.mk.injEq, true_and]

theorem OnlyBus.refl (s : State) : OnlyBus s s := ⟨rfl, fun _ => ⟨rfl, rfl⟩⟩

theorem OnlyBus.trans {s t u : State} (h1 : OnlyBus s t) (h2 : OnlyBus t u) : OnlyBus s u := by
  rw [onlyBus_iff] at h1 h2 ⊢
  simp_all

theorem OnlyBus.tick (s : State) : OnlyBus s s.tick := by
  rw [onlyBus_iff]
  exact ⟨by simp, State.tick_held⟩

theorem OnlyBus.busWrite (s : State) (off : U16) (v : Byte) : OnlyBus s (s.busWrite off v) := by
  rw [onlyBus_iff]
  simp only [State.busWrite_scr, State.busWrite_gen, State.busWrite_genInit, State.busWrite_tloEn,
    State.busWrite_thiEn, State.busWrite_thiCascade, State.busWrite_tmrState, State.busWrite_ime,
    State.busWrite_flashId, State.busWrite_pbuf, State.busWrite_samp, State.busWrite_result,
    State.busWrite_opsel, State.busWrite_arg0, State.busWrite_arg1, State.busWrite_arg2,
    State.busWrite_res, State.busWrite_seq, State.busWrite_host, State.busWrite_epoch, and_self,
    true_and]
  exact fun h => State.busWrite_held h off v

theorem OnlyBus.busRead (s : State) (off : U16) : OnlyBus s (s.busRead off) := by
  rw [onlyBus_iff]
  simp only [State.busRead_scr, State.busRead_gen, State.busRead_genInit, State.busRead_tloEn,
    State.busRead_thiEn, State.busRead_thiCascade, State.busRead_tmrState, State.busRead_ime,
    State.busRead_flashId, State.busRead_pbuf, State.busRead_samp, State.busRead_result,
    State.busRead_opsel, State.busRead_arg0, State.busRead_arg1, State.busRead_arg2,
    State.busRead_res, State.busRead_seq, State.busRead_host, State.busRead_epoch, and_self,
    true_and]
  exact fun h => State.busRead_held h off

theorem OnlyBus.host {s u : State} (h : OnlyBus s u) : u.host = s.host :=
  (((onlyBus_iff s u).mp h).1).2.2.2.2.2.2.2.2.2.2.2.2.2.2.2.2.2.2.1

theorem OnlyBus.seq {s u : State} (h : OnlyBus s u) : u.seq = s.seq :=
  (((onlyBus_iff s u).mp h).1).2.2.2.2.2.2.2.2.2.2.2.2.2.2.2.2.2.1

theorem OnlyBus.setLast {s u : State} (h : OnlyBus s u) (b : Byte) :
    OnlyBus (s.setLast b) (u.setLast b) := by
  have hs := h.seq
  rw [onlyBus_iff] at h ⊢
  simpa [hs] using h

theorem OnlyBus.setOk {s u : State} (h : OnlyBus s u) (b : Bool) :
    OnlyBus (s.setOk b) (u.setOk b) := by
  have hs := h.seq
  rw [onlyBus_iff] at h ⊢
  simpa [hs] using h

/-! ## A trace of cycles, the chip aside -/

/-- One cycle seen, and its Tick. -/
def State.saw (s : State) (e : BusEvent) : State := State.tick { s with bus := e :: s.bus }

/-- A trace of cycles seen, oldest first. -/
def State.sawAll (s : State) (l : List BusEvent) : State := l.foldl State.saw s

/-- The same state with another chip. -/
def State.withChip (s : State) (c : Chip) : State := { s with chip := c }

@[simp] theorem State.withChip_scr (s : State) (c : Chip) : (s.withChip c).scr = s.scr := rfl
@[simp] theorem State.withChip_gen (s : State) (c : Chip) : (s.withChip c).gen = s.gen := rfl
@[simp] theorem State.withChip_genInit (s : State) (c : Chip) : (s.withChip c).genInit = s.genInit := rfl
@[simp] theorem State.withChip_tloCnt (s : State) (c : Chip) : (s.withChip c).tloCnt = s.tloCnt := rfl
@[simp] theorem State.withChip_thiCnt (s : State) (c : Chip) : (s.withChip c).thiCnt = s.thiCnt := rfl
@[simp] theorem State.withChip_tloEn (s : State) (c : Chip) : (s.withChip c).tloEn = s.tloEn := rfl
@[simp] theorem State.withChip_thiEn (s : State) (c : Chip) : (s.withChip c).thiEn = s.thiEn := rfl
@[simp] theorem State.withChip_thiCascade (s : State) (c : Chip) : (s.withChip c).thiCascade = s.thiCascade := rfl
@[simp] theorem State.withChip_tmrState (s : State) (c : Chip) : (s.withChip c).tmrState = s.tmrState := rfl
@[simp] theorem State.withChip_ime (s : State) (c : Chip) : (s.withChip c).ime = s.ime := rfl
@[simp] theorem State.withChip_flashId (s : State) (c : Chip) : (s.withChip c).flashId = s.flashId := rfl
@[simp] theorem State.withChip_pbuf (s : State) (c : Chip) : (s.withChip c).pbuf = s.pbuf := rfl
@[simp] theorem State.withChip_samp (s : State) (c : Chip) : (s.withChip c).samp = s.samp := rfl
@[simp] theorem State.withChip_result (s : State) (c : Chip) : (s.withChip c).result = s.result := rfl
@[simp] theorem State.withChip_opsel (s : State) (c : Chip) : (s.withChip c).opsel = s.opsel := rfl
@[simp] theorem State.withChip_arg0 (s : State) (c : Chip) : (s.withChip c).arg0 = s.arg0 := rfl
@[simp] theorem State.withChip_arg1 (s : State) (c : Chip) : (s.withChip c).arg1 = s.arg1 := rfl
@[simp] theorem State.withChip_arg2 (s : State) (c : Chip) : (s.withChip c).arg2 = s.arg2 := rfl
@[simp] theorem State.withChip_res (s : State) (c : Chip) : (s.withChip c).res = s.res := rfl
@[simp] theorem State.withChip_seq (s : State) (c : Chip) : (s.withChip c).seq = s.seq := rfl
@[simp] theorem State.withChip_chip (s : State) (c : Chip) : (s.withChip c).chip = c := rfl
@[simp] theorem State.withChip_bus (s : State) (c : Chip) : (s.withChip c).bus = s.bus := rfl
@[simp] theorem State.withChip_host (s : State) (c : Chip) : (s.withChip c).host = s.host := rfl
@[simp] theorem State.withChip_draws (s : State) (c : Chip) : (s.withChip c).draws = s.draws := rfl
@[simp] theorem State.withChip_epoch (s : State) (c : Chip) : (s.withChip c).epoch = s.epoch := rfl

@[simp] theorem State.withChip_tick (s : State) (c : Chip) :
    (s.withChip c).tick = s.tick.withChip c := by
  unfold State.tick State.advanceCounters
  by_cases h : s.tloEn = true <;> simp [h, State.drawn, State.withChip]

@[simp] theorem State.sawAll_nil (s : State) : s.sawAll [] = s := rfl

@[simp] theorem State.sawAll_cons (s : State) (e : BusEvent) (l : List BusEvent) :
    s.sawAll (e :: l) = (s.saw e).sawAll l := rfl

theorem State.sawAll_append (s : State) (l k : List BusEvent) :
    s.sawAll (l ++ k) = (s.sawAll l).sawAll k := List.foldl_append

theorem State.saw_held {s : State} (h : s.tloEn = false) (e : BusEvent) :
    (s.saw e).tloCnt = s.tloCnt ∧ (s.saw e).thiCnt = s.thiCnt :=
  State.tick_held (s := { s with bus := e :: s.bus }) h

theorem OnlyBus.saw (s : State) (e : BusEvent) : OnlyBus s (s.saw e) := by
  rw [onlyBus_iff]
  refine ⟨?_, fun h => State.saw_held h e⟩
  simp [State.saw]

theorem OnlyBus.sawAll (s : State) (l : List BusEvent) : OnlyBus s (s.sawAll l) := by
  induction l generalizing s with
  | nil => exact OnlyBus.refl s
  | cons e l ih => exact (OnlyBus.saw s e).trans (ih _)

@[simp] theorem State.sawAll_host (s : State) (l : List BusEvent) : (s.sawAll l).host = s.host :=
  (OnlyBus.sawAll s l).host

@[simp] theorem State.sawAll_seq (s : State) (l : List BusEvent) : (s.sawAll l).seq = s.seq :=
  (OnlyBus.sawAll s l).seq

@[simp] theorem State.saw_bus (s : State) (e : BusEvent) : (s.saw e).bus = e :: s.bus := by
  simp [State.saw]

@[simp] theorem State.saw_chip (s : State) (e : BusEvent) : (s.saw e).chip = s.chip := by
  simp [State.saw]

@[simp] theorem State.saw_draws (s : State) (e : BusEvent) : (s.saw e).draws = s.draws + 1 := by
  simp [State.saw]

theorem State.sawAll_bus (s : State) (l : List BusEvent) :
    (s.sawAll l).bus = l.reverse ++ s.bus := by
  induction l generalizing s with
  | nil => rfl
  | cons e l ih => simp [ih]

theorem State.sawAll_draws (s : State) (l : List BusEvent) :
    (s.sawAll l).draws = s.draws + l.length := by
  induction l generalizing s with
  | nil => rfl
  | cons e l ih => rw [State.sawAll_cons, ih, State.saw_draws, List.length_cons]; omega

/-- A field of the sequencer, set before the cycle or after it. -/
theorem State.saw_withSeq (s : State) (q : Sequencer) (e : BusEvent) :
    ({ s with seq := q } : State).saw e = { s.saw e with seq := q } := by
  unfold State.saw State.tick State.advanceCounters
  by_cases h : s.tloEn = true <;> simp [h, State.drawn]

theorem State.sawAll_withSeq (s : State) (q : Sequencer) (l : List BusEvent) :
    ({ s with seq := q } : State).sawAll l = { s.sawAll l with seq := q } := by
  induction l generalizing s with
  | nil => rfl
  | cons e l ih => rw [State.sawAll_cons, State.saw_withSeq, ih, State.sawAll_cons]

@[simp] theorem State.withTodo_saw (s : State) (l : List Micro) (e : BusEvent) :
    (s.withTodo l).saw e = (s.saw e).withTodo l := by
  unfold State.saw; rw [← State.withTodo_tick]; rfl

/-! ## What steps do to a state, fed by the oracle -/

/-- Fed the bytes `needed`, the steps `l` take `s` to `u`, whatever bytes and steps come after; `u` stands
for the state but for its chip and its pending steps. -/
def Feeds (l : List Micro) (needed : List Byte) (s u : State) : Prop :=
  ∀ (answers : List Byte) (rest : List Micro),
    Runs ((s.withChip (.oracle (needed ++ answers))).withTodo (l ++ rest))
      ((u.withChip (.oracle answers)).withTodo rest)

theorem Feeds.nil (s : State) : Feeds [] [] s s := fun _ _ => Runs.refl _

theorem Feeds.append {l k : List Micro} {a b : List Byte} {s t u : State} (h1 : Feeds l a s t)
    (h2 : Feeds k b t u) : Feeds (l ++ k) (a ++ b) s u := by
  intro answers rest
  rw [List.append_assoc, List.append_assoc]
  exact (h1 _ _).trans (h2 _ _)

theorem Feeds.cons {m : Micro} {l : List Micro} {a b : List Byte} {s t u : State}
    (h1 : Feeds [m] a s t) (h2 : Feeds l b t u) : Feeds (m :: l) (a ++ b) s u := h1.append h2

/-- A step that needs no answer, with its own Tick in it. -/
theorem Feeds.timerCall {m : Micro} {s u : State} (hh : s.host = [])
    (hm : ∀ (c : Chip) (rest : List Micro), runMicro m ((s.withChip c).withTodo rest) =
      .next ((u.withChip c).withTodo rest)) : Feeds [m] [] s u :=
  fun _ _ => Runs.micro (s := s.withChip _) hh (hm _ _) (Runs.refl _)

/-- An internal step that goes to `t`, puts the steps `l` in front and ends in a Tick. -/
theorem Feeds.expand {m : Micro} {l : List Micro} {a : List Byte} {s t u : State} (hh : s.host = [])
    (hm : ∀ (c : Chip) (rest : List Micro), runMicro m ((s.withChip c).withTodo rest) =
      .next ((t.withChip c).withTodo (l ++ rest)).tick)
    (h : Feeds l a t.tick u) : Feeds [m] a s u :=
  fun answers rest => Runs.micro (s := s.withChip _) hh (hm _ _)
    (by rw [State.withTodo_tick, State.withChip_tick]; exact h answers rest)

/-- An internal step that goes to `u`, puts nothing in front and ends in a Tick. -/
theorem Feeds.step {m : Micro} {s u : State} (hh : s.host = [])
    (hm : ∀ (c : Chip) (rest : List Micro), runMicro m ((s.withChip c).withTodo rest) =
      .next ((u.withChip c).withTodo rest).tick) : Feeds [m] [] s u.tick :=
  Feeds.expand hh hm (Feeds.nil u.tick)

theorem State.busWrite_withChip (s : State) (a : List Byte) (off : U16) (v : Byte) :
    (s.withChip (.oracle a)).busWrite off v = (s.saw (.write off v)).withChip (.oracle a) := by
  unfold State.busWrite State.saw State.tick State.advanceCounters
  by_cases h : s.tloEn = true <;> simp [h, State.drawn, State.withChip]

theorem State.busRead_withChip (s : State) (b : Byte) (a : List Byte) (off : U16) :
    (s.withChip (.oracle (b :: a))).busRead off = (s.saw (.read off b)).withChip (.oracle a) := by
  unfold State.busRead State.saw State.tick State.advanceCounters
  by_cases h : s.tloEn = true <;> simp [h, State.drawn, State.withChip, State.busByte]

/-- A write cycle. -/
theorem Feeds.write {i : Instr} {off : U16} {v : Byte} {s : State} (hh : s.host = [])
    (hi : ∀ t, exec i t = .next (t.busWrite off v)) :
    Feeds [.cycle i] [] s (s.saw (.write off v)) := fun answers rest =>
  Runs.micro (s := s.withChip _) hh (hi _)
    (by rw [State.withTodo_busWrite, State.busWrite_withChip]; exact Runs.refl _)

/-- A read cycle whose byte goes to the latch that polls and readbacks use. -/
theorem Feeds.read {i : Instr} {off : U16} {b : Byte} {s : State} (hh : s.host = [])
    (hi : ∀ t, exec i t = .next ((t.busRead off).setLast (t.busByte off))) :
    Feeds [.cycle i] [b] s ((s.saw (.read off b)).setLast b) := fun answers rest =>
  Runs.micro (s := s.withChip _) hh (hi _)
    (by
      have hb : (s.withChip (.oracle ([b] ++ answers))).busByte off = b := rfl
      rw [State.withTodo_busByte, hb, State.withTodo_busRead, List.singleton_append,
        State.busRead_withChip, State.withTodo_setLast]
      exact Runs.refl _)

/-- The unlock sequence (R140). -/
theorem Feeds.unlock {s : State} (hh : s.host = []) :
    Feeds unlockSteps [] s (s.sawAll [.write 0x5555 0xAA, .write 0x2AAA 0x55]) :=
  Feeds.cons (Feeds.write hh fun _ => rfl)
    (Feeds.write (by simpa using (OnlyBus.saw s _).host.trans hh) fun _ => rfl)

/-! ## From issue to return -/

/-- What the steps do after the Tick of the issue does not depend on the chip at the issue. -/
theorem Feeds.ofChip {l : List Micro} {needed : List Byte} {s u : State} (h : Feeds l needed s.tick u)
    (c : Chip) : Feeds l needed (s.withChip c).tick u := by
  rw [State.withChip_tick]; exact h

/-- An operation issued in `s0` that sets the state to `s` and loads the steps `l` and a return, fed what
they need, goes on to the state they lead to and returns there. -/
theorem Feeds.returns {s0 s u : State} {i : Instr} {l : List Micro} {kind : RetKind}
    {needed answers : List Byte} (hi : Idle s) (hc : s.chip = .oracle (needed ++ answers))
    (he : exec i s0 = .next (s.load (l ++ [.ret kind]))) (hf : Feeds l needed s.tick u)
    (hu : u.host = []) :
    Returns i s0 (((u.withChip (.oracle answers)).withTodo []).finish kind).tick := by
  refine ⟨_, he, ?_⟩
  have hs : s.load (l ++ [.ret kind]) =
      (s.tick.withChip (.oracle (needed ++ answers))).withTodo (l ++ [.ret kind]) := by
    have ht : s.seq.todo = [] := by rw [hi.2]; rfl
    rw [State.load_eq, ht, List.append_nil, ← hc, ← State.withChip_tick]
    rfl
  rw [hs]
  exact (hf answers _).trans (Runs.micro (s := u.withChip _) hu rfl (Runs.refl _))

end Sys2Proof.Machine
end

