-- ==== Sys2Proof/Laws/Fcp.lean ====
section
/-! SUPPORT. Window addresses in numbers, and what the erase and program commands do when the oracle
answers their polls, untimed and timed. -/

namespace Sys2Proof.Machine

/-! ## Addresses -/

theorem windowAddr_toNat (sec : BankSector) (offset : Offset) :
    (windowAddr sec offset).toNat = sec.toNat * 4096 + offset.toNat := by
  have h1 := sec.isLt
  have h2 := offset.isLt
  have hs : (sec.setWidth 16 <<< 12 : U16).toNat = sec.toNat <<< 12 := by
    simp only [BitVec.toNat_shiftLeft, BitVec.toNat_setWidth]
    rw [Nat.mod_eq_of_lt (by omega : sec.toNat < 2 ^ 16), Nat.shiftLeft_eq, Nat.mod_eq_of_lt (by omega)]
  have ho : (offset.setWidth 16 : U16).toNat = offset.toNat := by
    simp only [BitVec.toNat_setWidth]; omega
  unfold windowAddr
  rw [BitVec.toNat_or, hs, ho, ← Nat.shiftLeft_add_eq_or_of_lt (by omega), Nat.shiftLeft_eq]

theorem sectorInBank_toNat (sector : Sector) : (sectorInBank sector).toNat = sector.toNat % 16 := by
  simp [sectorInBank]

theorem byteAddr_eq_flashAddr (sector : Sector) (offset : Offset) :
    byteAddr sector offset = flashAddr sector offset.toNat := by
  apply BitVec.eq_of_toNat_eq
  have h2 := offset.isLt
  simp only [byteAddr, windowAddr_toNat, sectorInBank_toNat, flashAddr, BitVec.toNat_ofNat,
    Params.sectorsPerBank, Params.sectorSize]
  omega

theorem windowAddr_eq_flashAddr (sector : Sector) (offset : Offset) :
    windowAddr (sectorInBank sector) offset = flashAddr sector offset.toNat :=
  byteAddr_eq_flashAddr sector offset

theorem windowAddr_ofNat (sector : Sector) {o : Nat} (ho : o < 4096) :
    windowAddr (sectorInBank sector) (BitVec.ofNat 12 o) = flashAddr sector o := by
  rw [windowAddr_eq_flashAddr, BitVec.toNat_ofNat, Nat.mod_eq_of_lt (by omega)]

/-! ## States that differ by a trace and the latches -/

/-- `u` is `s` after exactly the trace `l` and its Ticks, with the sequencer's latches possibly changed. -/
def Traced (l : List BusEvent) (s u : State) : Prop :=
  ∃ (last : Byte) (ok clean : Bool) (matched : Nat), u = { s.sawAll l with
    seq := { s.seq with last := last, ok := ok, clean := clean, matched := matched } }

theorem Traced.trace (s : State) (l : List BusEvent) : Traced l s (s.sawAll l) :=
  ⟨s.seq.last, s.seq.ok, s.seq.clean, s.seq.matched, by
    have h : (s.sawAll l).seq = s.seq := State.sawAll_seq s l
    calc s.sawAll l = { s.sawAll l with seq := (s.sawAll l).seq } := rfl
      _ = _ := by rw [h]⟩

theorem Traced.trans {l k : List BusEvent} {s t u : State} (h1 : Traced l s t) (h2 : Traced k t u) :
    Traced (l ++ k) s u := by
  obtain ⟨a, b, c, d, rfl⟩ := h1
  obtain ⟨a', b', c', d', rfl⟩ := h2
  exact ⟨a', b', c', d', by rw [State.sawAll_withSeq, State.sawAll_append]⟩

theorem Traced.setLast {l : List BusEvent} {s u : State} (h : Traced l s u) (b : Byte) :
    Traced l s (u.setLast b) := by
  obtain ⟨_, b', c', d', rfl⟩ := h
  exact ⟨b, b', c', d', rfl⟩

theorem Traced.setOk {l : List BusEvent} {s u : State} (h : Traced l s u) (b : Bool) :
    Traced l s (u.setOk b) := by
  obtain ⟨a', _, c', d', rfl⟩ := h
  exact ⟨a', b, c', d', rfl⟩

/-- `u` is `s` after the trace `l` and internal steps between its cycles: nothing of FSTE changes but the
counters that run and the sequencer's latches. -/
structure Saw (l : List BusEvent) (s u : State) : Prop where
  bus : u.bus = l.reverse ++ s.bus
  only : OnlyBus { s with seq := u.seq } u
  n : u.seq.n = s.seq.n

theorem OnlyBus.withSeq {s u : State} (h : OnlyBus s u) (q : Sequencer) :
    OnlyBus { s with seq := q } { u with seq := q } := by
  have hs := h.seq
  rw [onlyBus_iff] at h ⊢
  simpa [hs] using h

theorem Traced.saw {l : List BusEvent} {s u : State} (h : Traced l s u) : Saw l s u := by
  obtain ⟨a, b, c, d, rfl⟩ := h
  exact ⟨State.sawAll_bus s l, (OnlyBus.sawAll s l).withSeq _, rfl⟩

theorem Saw.trace (s : State) (l : List BusEvent) : Saw l s (s.sawAll l) := (Traced.trace s l).saw

theorem Saw.refl (s : State) : Saw [] s s := Saw.trace s []

theorem Saw.trans {l k : List BusEvent} {s t u : State} (h1 : Saw l s t) (h2 : Saw k t u) :
    Saw (l ++ k) s u where
  bus := by rw [h2.bus, h1.bus, List.reverse_append, List.append_assoc]
  only := (h1.only.withSeq u.seq).trans h2.only
  n := h2.n.trans h1.n

theorem Saw.tick {l : List BusEvent} {s u : State} (h : Saw l s u) : Saw l s u.tick where
  bus := by simpa using h.bus
  only := by simpa using h.only.trans (OnlyBus.tick u)
  n := by simpa using h.n

/-- From a state one Tick earlier. -/
theorem Saw.after {l : List BusEvent} {s u : State} (h : Saw l s.tick u) : Saw l s u :=
  (Saw.refl s).tick.trans h

theorem Saw.host {l : List BusEvent} {s u : State} (h : Saw l s u) : u.host = s.host := h.only.host

/-- A latch of the sequencer, the count of samples aside, is not looked at. -/
theorem Saw.latch {l : List BusEvent} {s u : State} (h : Saw l s u) (q : Sequencer)
    (hq : q.n = s.seq.n) : Saw l s { u with seq := q } :=
  ⟨h.bus, h.only.withSeq q, hq⟩

/-! ## Polls -/

theorem pollStatus_completed_iff (expected b : Byte) :
    pollStatus expected b = .completed ↔ b = expected := by
  unfold pollStatus
  split
  · simp [*]
  · split <;> simp [*]

theorem pollStatus_pending_iff (expected b : Byte) :
    pollStatus expected b = .pending ↔ b ≠ expected ∧ b &&& 0x20 = 0 := by
  unfold pollStatus
  split
  · simp [*]
  · split
    · rename_i h
      exact ⟨fun h => PollStatus.noConfusion h, fun hx => absurd hx.2 h⟩
    · rename_i hne h
      exact ⟨fun _ => ⟨hne, Decidable.not_not.mp h⟩, fun _ => rfl⟩

/-- The cycles of a poll that reads the bytes `l`. -/
def pollTrace (a : U16) (l : List Byte) : List BusEvent := l.map fun b => .read a b

/-- One turn of a poll that the oracle answers with `b`: the cycle, then the tests. -/
theorem runPoll_oracle (s : State) (sec : BankSector) (offset : Offset) (expected b : Byte)
    (a : List Byte) (rest : List Micro) :
    runPoll sec offset expected ((s.withChip (.oracle (b :: a))).withTodo rest) =
      .next (match pollStatus expected b with
        | .completed => ((((s.saw (.read (windowAddr sec offset) b)).setLast b).setOk true).withChip
            (.oracle a)).withTodo rest
        | .failed => ((((s.saw (.read (windowAddr sec offset) b)).setLast b).setOk false).withChip
            (.oracle a)).withTodo rest
        | .pending => (((s.saw (.read (windowAddr sec offset) b)).setLast b).withChip
            (.oracle a)).withTodo (pollSteps sec offset expected ++ rest)) := by
  show Host.Outcome.next (State.runPollTest _ _ _ _) = _
  have hb : (s.withChip (.oracle (b :: a))).busByte (windowAddr sec offset) = b := rfl
  rw [State.withTodo_busByte, hb, State.withTodo_busRead, State.busRead_withChip]
  unfold State.runPollTest
  generalize s.saw (.read (windowAddr sec offset) b) = t
  show Host.Outcome.next (match pollStatus expected b with
    | .completed => _
    | .failed => _
    | .pending => _) = _
  cases pollStatus expected b <;> rfl

/-- A poll the oracle answers: pending bytes, then one that decides (R141). -/
theorem Feeds.poll {s : State} {sec : BankSector} {offset : Offset} {expected e : Byte}
    {pend : List Byte} (hh : s.host = []) (hp : ∀ b ∈ pend, pollStatus expected b = .pending)
    (he : pollStatus expected e ≠ .pending) :
    ∃ u, Feeds (pollSteps sec offset expected) (pend ++ [e]) s u ∧
      u.seq.ok = decide (pollStatus expected e = .completed) ∧
      Traced (pollTrace (windowAddr sec offset) (pend ++ [e])) s u := by
  induction pend generalizing s with
  | nil =>
    let t := (s.saw (.read (windowAddr sec offset) e)).setLast e
    refine ⟨t.setOk (decide (pollStatus expected e = .completed)), fun answers rest => ?_, rfl,
      ((Traced.trace s [_]).setLast e).setOk _⟩
    refine Runs.micro (s := s.withChip _) hh
      ((runPoll_oracle s sec offset expected e answers rest).trans ?_) (Runs.refl _)
    cases hs : pollStatus expected e with
    | completed => rfl
    | failed => rfl
    | pending => exact absurd hs he
  | cons b pend ih =>
    let t := (s.saw (.read (windowAddr sec offset) b)).setLast b
    have ht : t.host = [] := (OnlyBus.saw s _).host.trans hh
    obtain ⟨u, hu, ho, hs⟩ := ih (s := t) ht fun c hc => hp c (by simp [hc])
    refine ⟨u, fun answers rest => ?_, ho, ((Traced.trace s [_]).setLast b).trans hs⟩
    refine Runs.micro (s := s.withChip _) hh
      ((runPoll_oracle s sec offset expected b (pend ++ [e] ++ answers) rest).trans ?_)
      (hu answers rest)
    rw [hp b (by simp)]

/-- The abort write of a failed command, none of a completed one. -/
def abortTrace (ok : Bool) : List BusEvent := if ok then [] else [.write 0x5555 0xF0]

theorem Feeds.abort {s : State} (hh : s.host = []) :
    Feeds [.abortOnFailure] [] s (s.tick.sawAll (abortTrace s.seq.ok)) := by
  cases hk : s.seq.ok
  · refine Feeds.expand (l := [.cycle .abort]) (t := s) hh (fun c rest => ?_)
      (Feeds.write (by simpa using hh) fun _ => rfl)
    show Host.Outcome.next (State.tick (State.runAbortOnFailure _)) = _
    unfold State.runAbortOnFailure
    rw [if_neg (show ¬ ((s.withChip c).withTodo rest).seq.ok = true from by
      show ¬ s.seq.ok = true; simp [hk])]
    rfl
  · refine Feeds.step hh fun c rest => ?_
    show Host.Outcome.next (State.tick (State.runAbortOnFailure _)) = _
    unfold State.runAbortOnFailure
    rw [if_pos (show ((s.withChip c).withTodo rest).seq.ok = true from hk)]

/-! ## The commands -/

/-- The cycles of an erase whose poll reads the bytes `l` (R144). -/
def eraseTrace (a : U16) (l : List Byte) (ok : Bool) : List BusEvent :=
  [.write 0x5555 0xAA, .write 0x2AAA 0x55, .write 0x5555 0x80, .write 0x5555 0xAA,
    .write 0x2AAA 0x55, .write a 0x30] ++ pollTrace a l ++ abortTrace ok

/-- The cycles of a program whose poll reads the bytes `l` (R146). -/
def programTrace (a : U16) (v : Byte) (l : List Byte) (ok : Bool) : List BusEvent :=
  [.write 0x5555 0xAA, .write 0x2AAA 0x55, .write 0x5555 0xA0, .write a v] ++ pollTrace a l ++
    abortTrace ok

/-- A command: its writes, its poll, and the abort write on failure. -/
theorem Feeds.command {s : State} {l : List Micro} {w : List BusEvent} {sec : BankSector}
    {offset : Offset} {expected e : Byte} {pend : List Byte} (hh : s.host = [])
    (hw : Feeds l [] s (s.sawAll w)) (hp : ∀ b ∈ pend, pollStatus expected b = .pending)
    (he : pollStatus expected e ≠ .pending) :
    ∃ u, Feeds (l ++ pollSteps sec offset expected ++ [.abortOnFailure]) (pend ++ [e]) s u ∧
      u.seq.ok = decide (pollStatus expected e = .completed) ∧
      Saw (w ++ pollTrace (windowAddr sec offset) (pend ++ [e]) ++
        abortTrace (decide (pollStatus expected e = .completed))) s u := by
  obtain ⟨t, ht, hok, hs⟩ := Feeds.poll (sec := sec) (offset := offset)
    ((State.sawAll_host s w).trans hh) hp he
  have f3 := Feeds.abort (hs.saw.host.trans ((State.sawAll_host s w).trans hh))
  rw [hok] at f3
  refine ⟨_, ?_, ?_, ((Saw.trace s w).trans hs.saw).trans (Saw.trace t.tick _).after⟩
  · simpa using (hw.append ht).append f3
  · rw [State.sawAll_seq, State.tick_seq]; exact hok

theorem Feeds.erase {s : State} {sector : Sector} {e : Byte} {pend : List Byte} (hh : s.host = [])
    (hp : ∀ b ∈ pend, pollStatus 0xFF b = .pending) (he : pollStatus 0xFF e ≠ .pending) :
    ∃ u, Feeds (eraseSteps sector) (pend ++ [e]) s u ∧
      u.seq.ok = decide (pollStatus 0xFF e = .completed) ∧
      Saw (eraseTrace (flashAddr sector 0) (pend ++ [e])
        (decide (pollStatus 0xFF e = .completed))) s u := by
  have ha : windowAddr (sectorInBank sector) 0 = flashAddr sector 0 := windowAddr_ofNat sector (by decide)
  have hw : ∀ l, (s.sawAll l).host = [] := fun l => (State.sawAll_host s l).trans hh
  rw [← ha]
  exact Feeds.command hh (((Feeds.unlock hh).append (Feeds.write (hw [_, _]) fun _ => rfl)).append
    (Feeds.unlock (hw [_, _, _])) |>.append (Feeds.write (hw [_, _, _, _, _]) fun _ => rfl)) hp he

theorem Feeds.program {s : State} {sector : Sector} {offset : Offset} {v e : Byte}
    {pend : List Byte} (hh : s.host = []) (hp : ∀ b ∈ pend, pollStatus v b = .pending)
    (he : pollStatus v e ≠ .pending) :
    ∃ u, Feeds (programSteps sector offset v) (pend ++ [e]) s u ∧
      u.seq.ok = decide (pollStatus v e = .completed) ∧
      Saw (programTrace (flashAddr sector offset.toNat) v (pend ++ [e])
        (decide (pollStatus v e = .completed))) s u := by
  have hw : ∀ l, (s.sawAll l).host = [] := fun l => (State.sawAll_host s l).trans hh
  rw [← windowAddr_eq_flashAddr]
  exact Feeds.command hh ((Feeds.unlock hh).append (Feeds.cons (Feeds.write (hw [_, _]) fun _ => rfl)
    (Feeds.write (hw [_, _, _]) fun _ => rfl))) hp he

end Sys2Proof.Machine
end

