-- ==== Sys2Proof/Laws/Prng.lean ====
section
/-! SUPPORT. The PRNG: a seeding attempt, why seeding ends (spec/40_prng.md R111), and the 4096 draws that
fill PBUF (R113). -/

namespace Sys2Proof.Machine

/-! ## Seeding -/

theorem scrAfter_add (scr : U64) (i j : Nat) :
    scrAfter (scrAfter scr i) j = scrAfter scr (i + j) := by
  induction j with
  | zero => rfl
  | succ j ih => rw [← Nat.add_assoc, scrAfter, ih, scrAfter]

theorem four_scrInc : Params.scrInc + (Params.scrInc + (Params.scrInc + Params.scrInc)) =
    BitVec.ofNat 64 4 * Params.scrInc := by decide

theorem scrAfter_eq (scr : U64) (j : Nat) :
    scrAfter scr j = BitVec.ofNat 64 (4 * j) * Params.scrInc + scr := by
  induction j with
  | zero => simp [scrAfter]
  | succ j ih =>
    rw [scrAfter, ih, Nat.mul_add, BitVec.ofNat_add, BitVec.add_mul, Nat.mul_one, ← four_scrInc]
    generalize BitVec.ofNat 64 (4 * j) * Params.scrInc = a
    generalize Params.scrInc = c
    rw [← BitVec.add_assoc, ← BitVec.add_assoc, ← BitVec.add_assoc, ← BitVec.add_assoc,
      BitVec.add_comm a]
    simp only [BitVec.add_assoc]

/-- One seeding attempt, in the terms of the statements. -/
theorem State.seedAttempt_eq (s : State) : s.seedAttempt = { s with
    scr := scrAfter s.scr 1, gen := seedWords s.scr, genInit := (seedWords s.scr).nonzero } := rfl

theorem Gen.nonzero_iff (g : Gen) : g.nonzero = true ↔ g ≠ Gen.zero := by
  obtain ⟨a, b, c, d⟩ := g
  have h : ∀ x y : U32, x ||| y = 0 ↔ x = 0 ∧ y = 0 := fun x y => BitVec.or_eq_zero_iff
  simp only [Gen.nonzero, bne_iff_ne, Gen.zero, ne_eq, Gen.mk.injEq, h, and_assoc]

/-- The inverse of SCR_INC modulo 2^64. -/
def scrIncInverse : U64 := 0xF1DE83E19937733D

theorem scrInc_inverse : scrIncInverse * Params.scrInc = 1#64 := by decide

/-- SCR reaches, four calls at a time, every value whose two low bits allow it. -/
theorem scrAfter_reaches (scr x : U64) (h : (x - scr).toNat % 4 = 0) :
    scrAfter scr (((x - scr) * scrIncInverse).toNat / 4) = x := by
  have hk : ((x - scr) * scrIncInverse).toNat % 4 = 0 := by
    rw [BitVec.toNat_mul, show scrIncInverse.toNat = 0xF1DE83E19937733D from rfl]
    omega
  have h4 : 4 * (((x - scr) * scrIncInverse).toNat / 4) = ((x - scr) * scrIncInverse).toNat := by omega
  rw [scrAfter_eq, h4, BitVec.ofNat_toNat, BitVec.setWidth_eq, BitVec.mul_assoc, scrInc_inverse,
    BitVec.mul_one, BitVec.sub_add_cancel]

theorem seedWords_ne_zero {x : U64} (h : (scrMix (Params.scrInc + x)).setWidth 32 ≠ (0 : U32)) :
    seedWords x ≠ Gen.zero := fun hz => h (congrArg Gen.g0 hz)

/-- Seeding ends: after finitely many rejected attempts one is not all zero (R111). -/
theorem seeding_ends (scr : U64) : ∃ n, seedWords (scrAfter scr n) ≠ Gen.zero := by
  have h : ∃ x : U64, seedWords x ≠ Gen.zero ∧ (x - scr).toNat % 4 = 0 := by
    have hs := scr.isLt
    have : scr.toNat % 4 = 0 ∨ scr.toNat % 4 = 1 ∨ scr.toNat % 4 = 2 ∨ scr.toNat % 4 = 3 := by omega
    rcases this with h | h | h | h
    · exact ⟨0, seedWords_ne_zero (by decide), by rw [BitVec.toNat_sub, show (0 : U64).toNat = 0 from rfl]; omega⟩
    · exact ⟨1, seedWords_ne_zero (by decide), by rw [BitVec.toNat_sub, show (1 : U64).toNat = 1 from rfl]; omega⟩
    · exact ⟨2, seedWords_ne_zero (by decide), by rw [BitVec.toNat_sub, show (2 : U64).toNat = 2 from rfl]; omega⟩
    · exact ⟨3, seedWords_ne_zero (by decide), by rw [BitVec.toNat_sub, show (3 : U64).toNat = 3 from rfl]; omega⟩
  obtain ⟨x, hx, hm⟩ := h
  exact ⟨_, by rw [scrAfter_reaches scr x hm]; exact hx⟩

theorem exists_first {p : Nat → Prop} (h : ∃ n, p n) : ∃ n, (∀ j < n, ¬ p j) ∧ p n := by
  classical
  exact ⟨Nat.find h, fun j hj => Nat.find_min h hj, Nat.find_spec h⟩

/-- The number of rejected attempts before the one that seeds. -/
theorem seeding_first (scr : U64) : ∃ n, (∀ j < n, seedWords (scrAfter scr j) = Gen.zero) ∧
    seedWords (scrAfter scr n) ≠ Gen.zero := by
  obtain ⟨n, h1, h2⟩ := exists_first (seeding_ends scr)
  exact ⟨n, fun j hj => Decidable.not_not.mp (h1 j hj), h2⟩

/-! ## Filling PBUF -/

/-- `u` is `s` after internal steps that write nothing: no cycle, only Ticks. -/
structure Still (s u : State) : Prop where
  only : OnlyBus s u
  bus : u.bus = s.bus

theorem Still.refl (s : State) : Still s s := ⟨OnlyBus.refl s, rfl⟩

theorem Still.trans {s t u : State} (h1 : Still s t) (h2 : Still t u) : Still s u :=
  ⟨h1.only.trans h2.only, h2.bus.trans h1.bus⟩

theorem Still.tick (s : State) : Still s s.tick := ⟨OnlyBus.tick s, by simp⟩

/-- The PRNG registers and PBUF, set before the internal steps or after them. -/
theorem Still.withPrng {s u : State} (h : Still s u) (scr : U64) (gen : Gen) (genInit : Bool)
    (pbuf : List (Nat × Byte)) : Still
      { s with scr := scr, gen := gen, genInit := genInit, pbuf := pbuf }
      { u with scr := scr, gen := gen, genInit := genInit, pbuf := pbuf } := by
  refine ⟨?_, h.bus⟩
  have h := h.only
  rw [onlyBus_iff] at h ⊢
  simp [h.1]
  exact h.2

/-- The state after `k` draws from position `off`, from a seeded generator, each with its Tick, and after
the step that ends the loop. -/
def State.drewPbuf (s : State) (off : Nat) : Nat → State
  | 0 => s.tick
  | k + 1 => (s.genStep.pbufWrite off (genByte s.gen)).tick.drewPbuf (off + 1) k

theorem State.tick_pbufRead (s : State) (o : Nat) : s.tick.pbufRead o = s.pbufRead o := by
  simp [State.pbufRead]

theorem State.drewPbuf_spec (s : State) (off k : Nat) :
    Still { s with gen := genAdvance^[k] s.gen, pbuf := (s.drewPbuf off k).pbuf }
      (s.drewPbuf off k) ∧
    ∀ o, (s.drewPbuf off k).pbufRead o =
      if off ≤ o ∧ o < off + k then streamByte s.gen (o - off) else s.pbufRead o := by
  induction k generalizing s off with
  | zero =>
    refine ⟨?_, fun o => ?_⟩
    · rw [State.drewPbuf, State.tick_pbuf]
      exact Still.tick s
    · rw [if_neg (by omega), State.drewPbuf, State.tick_pbufRead]
  | succ k ih =>
    let t : State := s.genStep.pbufWrite off (genByte s.gen)
    obtain ⟨h1, h2⟩ := ih t.tick (off + 1)
    refine ⟨?_, fun o => ?_⟩
    · have h := (Still.tick t).withPrng s.scr (genAdvance^[k] t.gen) s.genInit
        (t.tick.drewPbuf (off + 1) k).pbuf
      refine Still.trans h ?_
      have hs : t.tick.scr = s.scr := by simp [t]
      have hi : t.tick.genInit = s.genInit := by simp [t]
      have hg : t.tick.gen = t.gen := by simp
      rw [hg] at h1
      show Still _ (t.tick.drewPbuf (off + 1) k)
      have he : ({ t.tick with
          scr := s.scr, gen := genAdvance^[k] t.gen, genInit := s.genInit
          pbuf := (t.tick.drewPbuf (off + 1) k).pbuf } : State) = { t.tick with
          gen := genAdvance^[k] t.gen, pbuf := (t.tick.drewPbuf (off + 1) k).pbuf } := by
        rw [← hs, ← hi]
      rw [he]
      exact h1
    · have hr : t.pbufRead o = if off = o then genByte s.gen else s.pbufRead o := by
        show (storeRead (storeWrite s.pbuf off _) o).getD _ = _
        rw [storeRead_write]
        split <;> rfl
      show (t.tick.drewPbuf (off + 1) k).pbufRead o = _
      rw [h2, State.tick_pbufRead, hr, State.tick_gen]
      by_cases h : off = o
      · subst h
        rw [if_neg (by omega), if_pos rfl, if_pos (by omega), Nat.sub_self]
        rfl
      · rw [if_neg h]
        by_cases h' : off + 1 ≤ o ∧ o < off + 1 + k
        · rw [if_pos h', if_pos (by omega), show o - off = (o - (off + 1)) + 1 by omega]
          rfl
        · rw [if_neg h', if_neg (by omega)]

/-- The draws of a seeded generator. -/
theorem Feeds.drawPbuf_seeded {s : State} (hh : s.host = []) (hg : s.genInit = true) {off k : Nat}
    (hk : off + k = 4096) : Feeds [.drawPbuf off] [] s (s.drewPbuf off k) := by
  induction k generalizing s off with
  | zero =>
    refine Feeds.step hh fun c rest => ?_
    show Host.Outcome.next (State.tick (State.runDrawPbuf _ _)) = _
    unfold State.runDrawPbuf
    rw [if_neg (show ¬ off < Params.sectorSize by simp only [Params.sectorSize]; omega)]
  | succ k ih =>
    refine Feeds.expand (t := s.genStep.pbufWrite off (genByte s.gen)) hh (fun c rest => ?_)
      (ih (s := (s.genStep.pbufWrite off (genByte s.gen)).tick) (by simpa using hh)
        (by simpa using hg) (by omega))
    have hg' : ((s.withChip c).withTodo rest).genInit = true := hg
    show Host.Outcome.next (State.tick (State.runDrawPbuf _ _)) = _
    unfold State.runDrawPbuf State.seeded
    rw [if_pos (show off < Params.sectorSize by simp only [Params.sectorSize]; omega), if_pos hg',
      if_pos hg']
    rfl

/-- The same state with GEN seeded by the first attempt after `n` rejected ones. -/
def State.seededAfter (s : State) (n : Nat) : State := { s with
  scr := scrAfter s.scr (n + 1), gen := seedWords (scrAfter s.scr n), genInit := true }

theorem State.seededAfter_tick (s : State) (n : Nat) :
    s.tick.seededAfter n = (s.seededAfter n).tick := by
  unfold State.seededAfter State.tick State.advanceCounters
  by_cases h : s.tloEn = true <;> simp [h, State.drawn]

/-- The draws of a generator not yet seeded: `n` rejected attempts, then as from a seeded one. -/
theorem Feeds.drawPbuf_unseeded {s : State} (hh : s.host = []) (hg : s.genInit = false) {n k : Nat}
    (hk : k = 4096)
    (hr : ∀ j < n, seedWords (scrAfter s.scr j) = Gen.zero)
    (hn : seedWords (scrAfter s.scr n) ≠ Gen.zero) :
    ∃ v, Still (s.seededAfter n) v ∧ Feeds [.drawPbuf 0] [] s (v.drewPbuf 0 k) := by
  induction n generalizing s with
  | zero =>
    obtain ⟨k, rfl⟩ : ∃ j, k = j + 1 := ⟨4095, hk⟩
    let t : State := (s.seededAfter 0).genStep.pbufWrite 0 (genByte (s.seededAfter 0).gen)
    have h := Feeds.drawPbuf_seeded (s := t.tick) (by rw [State.tick_host]; exact hh)
      (by rw [State.tick_genInit]; rfl)
      (off := 1) (k := k) (by omega)
    refine ⟨_, Still.refl _, Feeds.expand (t := t) hh (fun c rest => ?_) h⟩
    have hg' : ((s.withChip c).withTodo rest).genInit = false := hg
    have hs : ((s.withChip c).withTodo rest).seeded =
        ((s.seededAfter 0).withChip c).withTodo rest := by
      unfold State.seeded
      rw [if_neg (by rw [hg']; decide), State.seedAttempt_eq]
      have hz : (seedWords s.scr).nonzero = true := (Gen.nonzero_iff _).mpr hn
      unfold State.seededAfter
      show ({ (s.withChip c).withTodo rest with
        scr := scrAfter s.scr 1, gen := seedWords s.scr
        genInit := (seedWords s.scr).nonzero } : State) = _
      rw [hz]
      rfl
    show Host.Outcome.next (State.tick (State.runDrawPbuf _ _)) = _
    unfold State.runDrawPbuf
    rw [hs, if_pos (by decide),
      if_pos (show (((s.seededAfter 0).withChip c).withTodo rest).genInit = true from rfl)]
    rfl
  | succ n ih =>
    have h0 : seedWords s.scr = Gen.zero := hr 0 (by omega)
    let t : State := { s with scr := scrAfter s.scr 1, gen := Gen.zero, genInit := false }
    have hst : t.seededAfter n = s.seededAfter (n + 1) := by
      unfold State.seededAfter
      show ({ t with
        scr := scrAfter (scrAfter s.scr 1) (n + 1)
        gen := seedWords (scrAfter (scrAfter s.scr 1) n), genInit := true } : State) = _
      rw [scrAfter_add, scrAfter_add, show 1 + (n + 1) = n + 1 + 1 by omega,
        show 1 + n = n + 1 by omega]
    have hscr : t.tick.scr = scrAfter s.scr 1 := by simp [t]
    obtain ⟨v, hv, h⟩ := ih (s := t.tick) (by simpa [t] using hh) (by simp [t])
      (fun j hj => by
        rw [hscr, scrAfter_add, show 1 + j = j + 1 by omega]
        exact hr _ (by omega))
      (by
        rw [hscr, scrAfter_add, show 1 + n = n + 1 by omega]
        exact hn)
    rw [State.seededAfter_tick, hst] at hv
    refine ⟨v, (Still.tick _).trans hv, Feeds.expand (t := t) hh (fun c rest => ?_) h⟩
    have hg' : ((s.withChip c).withTodo rest).genInit = false := hg
    have hs : ((s.withChip c).withTodo rest).seeded = (t.withChip c).withTodo rest := by
      unfold State.seeded
      rw [if_neg (by rw [hg']; decide), State.seedAttempt_eq]
      show ({ (s.withChip c).withTodo rest with
        scr := scrAfter s.scr 1, gen := seedWords s.scr
        genInit := (seedWords s.scr).nonzero } : State) = _
      rw [h0]
      rfl
    show Host.Outcome.next (State.tick (State.runDrawPbuf _ _)) = _
    unfold State.runDrawPbuf
    rw [hs, if_pos (by decide), if_neg (show ¬ ((t.withChip c).withTodo rest).genInit = true from
      fun h => Bool.noConfusion h)]
    rfl

/-- Every state has a generator its stream comes from. -/
theorem seedsTo_exists (s : State) : ∃ g scr, SeedsTo s g scr := by
  cases hg : s.genInit
  · obtain ⟨n, hr, hn⟩ := seeding_first s.scr
    exact ⟨_, _, fun h => by simp [hg] at h, fun _ => ⟨n, hr, rfl, hn, rfl⟩⟩
  · exact ⟨_, _, fun _ => ⟨rfl, rfl⟩, fun h => by simp [hg] at h⟩

/-- States with the same PRNG registers have the same stream. -/
theorem SeedsTo.congr {s u : State} {g : Gen} {scr : U64} (h : SeedsTo s g scr) (h1 : u.scr = s.scr)
    (h2 : u.gen = s.gen) (h3 : u.genInit = s.genInit) : SeedsTo u g scr := by
  unfold SeedsTo
  rw [h1, h2, h3]
  exact h

/-- All 4096 draws into PBUF: from the generator as it is, or from the one the first use seeds. -/
theorem Feeds.drawPbuf {s : State} {g : Gen} {scr : U64} (hh : s.host = []) (hs : SeedsTo s g scr) :
    ∃ u, Feeds [.drawPbuf 0] [] s u ∧
      Still { s with scr := scr, gen := genAdvance^[4096] g, genInit := true, pbuf := u.pbuf } u ∧
      ∀ o < 4096, u.pbufRead o = streamByte g o := by
  obtain ⟨k, hk⟩ : ∃ k : Nat, k = 4096 := ⟨4096, rfl⟩
  rw [← hk]
  cases hg : s.genInit
  · obtain ⟨n, hr, rfl, hn, rfl⟩ := hs.2 hg
    obtain ⟨w, hw, hf⟩ := Feeds.drawPbuf_unseeded hh hg hk hr hn
    obtain ⟨h1, h2⟩ := State.drewPbuf_spec w 0 k
    have e := (onlyBus_iff _ _).mp hw.only
    have hgen : w.gen = seedWords (scrAfter s.scr n) := e.1.2.1
    rw [hgen] at h1 h2
    generalize w.drewPbuf 0 k = v at *
    have h3 := hw.withPrng w.scr (genAdvance^[k] (seedWords (scrAfter s.scr n))) w.genInit v.pbuf
    have h4 : w.scr = scrAfter s.scr (n + 1) := e.1.1
    have h5 : w.genInit = true := e.1.2.2.1
    refine ⟨v, hf, ?_, fun o ho => ?_⟩
    · have h := h3.trans h1
      rw [h4, h5] at h
      exact h
    · rw [h2, if_pos ⟨by omega, by omega⟩]
      rfl
  · obtain ⟨rfl, rfl⟩ := hs.1 hg
    obtain ⟨h1, h2⟩ := State.drewPbuf_spec s 0 k
    have hf := Feeds.drawPbuf_seeded hh hg (off := 0) (k := k) (by omega)
    generalize s.drewPbuf 0 k = v at *
    refine ⟨v, hf, ?_, fun o ho => ?_⟩
    · rw [← hg]
      exact h1
    · rw [h2, if_pos ⟨by omega, by omega⟩]
      rfl

end Sys2Proof.Machine
end

