-- ==== Sys2Proof/Laws/Cond.lean ====
section
/-! SUPPORT. The conditioning passes when every program and every readback answers the byte put there: one
pass, in ascending order (spec/43_conditioning.md R160 to R162). -/

namespace Sys2Proof.Machine

theorem pollStatus_same (b : Byte) : pollStatus b b = .completed := by simp [pollStatus]

/-- A retried program that succeeds at once (R161). -/
theorem Feeds.retry {s : State} {sector : Sector} {offset : Offset} {v : Byte} (hh : s.host = []) :
    ∃ u, Feeds (retrySteps sector offset v) [v] s u ∧
      Saw (programTrace (flashAddr sector offset.toNat) v [v] true) s u := by
  obtain ⟨t, ht, hok, hs⟩ := Feeds.program (sector := sector) (offset := offset) (v := v) (e := v)
    (pend := []) hh (by simp) (by simp [pollStatus_same])
  simp only [pollStatus_same, decide_true, List.nil_append] at ht hok hs
  refine ⟨t.tick, ?_, hs.tick⟩
  have h := ht.append (Feeds.step (m := .retryProgram sector offset v) (u := t)
    (hs.host.trans hh) fun c rest => by
      show Host.Outcome.next (State.tick (State.runRetryProgram _ _ _ _)) = _
      unfold State.runRetryProgram
      rw [if_pos (show ((t.withChip c).withTodo rest).seq.ok = true from hok)])
  simpa [retrySteps] using h

theorem Saw.fillByte {l : List BusEvent} {s u : State} (h : Saw l s u) (src : Fill) (o : Nat) :
    u.fillByte src o = s.fillByte src o := by
  have e := h.only.1
  have h1 : u.pbuf = s.pbuf := by have h := congrArg State.pbuf e; exact h
  have h2 : u.epoch = s.epoch := by have h := congrArg State.epoch e; exact h
  cases src
  · rfl
  · simp only [State.fillByte, State.pbufRead, h1, h2]

/-! ## The readback -/

/-- All bytes before `off` have read back as they should. -/
def State.cleanTo (s : State) (src : Fill) (off : Nat) : Prop :=
  match src with
  | .zero => s.seq.clean = true
  | .random => s.seq.matched = off

theorem State.cleanTo_tick {s : State} {src : Fill} {off : Nat} :
    s.tick.cleanTo src off ↔ s.cleanTo src off := by
  cases src <;> simp only [State.cleanTo, State.tick_seq]

theorem State.fillByte_tick (s : State) (src : Fill) (o : Nat) :
    s.tick.fillByte src o = s.fillByte src o := (Saw.refl s).tick.fillByte src o

/-- The reads of a readback of the positions `l`. -/
def verifyTrace (sector : Sector) (f : Nat → Byte) (l : List Nat) : List BusEvent :=
  l.map fun o => .read (flashAddr sector o) (f o)

/-- One byte read back as it should be. -/
theorem Feeds.verifyByte {s : State} {src : Fill} {sector : Sector} {off : Nat} {b : Byte}
    (hh : s.host = []) (ho : off < 4096) (hb : s.fillByte src off = b) (hc : s.cleanTo src off) :
    ∃ u, Feeds [.cycle (.rdVerify (sectorInBank sector) (BitVec.ofNat 12 off)), .verifyTest src off]
        [b] s u ∧ u.cleanTo src (off + 1) ∧
      Saw [.read (flashAddr sector off) b] s u := by
  let t := (s.saw (.read (flashAddr sector off) b)).setLast b
  have ht : Saw [.read (flashAddr sector off) b] s t := ((Traced.trace s [_]).setLast b).saw
  have h1 : Feeds [.cycle (.rdVerify (sectorInBank sector) (BitVec.ofNat 12 off))] [b] s t := by
    have h := Feeds.read (i := .rdVerify (sectorInBank sector) (BitVec.ofNat 12 off)) (b := b) hh
      fun _ => rfl
    rw [windowAddr_ofNat sector ho] at h
    exact h
  have hth : t.host = [] := ht.host.trans hh
  cases src with
  | zero =>
    have hb' : b = 0x00 := hb.symm
    refine ⟨t.tick, h1.append (Feeds.step hth fun c rest => ?_), ?_, ht.tick⟩
    · have hl : ((t.withChip c).withTodo rest).seq.last = 0x00 := hb'
      show Host.Outcome.next (State.tick (State.verifyByte _ _ _)) = _
      unfold State.verifyByte
      dsimp only
      rw [if_pos hl]
    · have h := congrArg Sequencer.clean
        (OnlyBus.saw s (.read (flashAddr sector off) b)).seq
      show t.tick.seq.clean = true
      rw [State.tick_seq]
      exact h.trans hc
  | random =>
    have hb' : b = t.pbufRead off := by
      have := ht.fillByte .random off
      exact hb.symm.trans this.symm
    refine ⟨State.tick { t with seq := { t.seq with matched := t.seq.matched + 1 } },
      h1.append (Feeds.step hth fun c rest => ?_), ?_, ?_⟩
    · have hl : ((t.withChip c).withTodo rest).seq.last =
        ((t.withChip c).withTodo rest).pbufRead off := hb'
      show Host.Outcome.next (State.tick (State.verifyByte _ _ _)) = _
      unfold State.verifyByte
      dsimp only
      rw [if_pos hl]
      rfl
    · have h2 := congrArg Sequencer.matched
        (OnlyBus.saw s (.read (flashAddr sector off) b)).seq
      show (State.tick _).seq.matched = _
      rw [State.tick_seq]
      exact congrArg (· + 1) (h2.trans hc)
    · exact (ht.latch { t.seq with matched := t.seq.matched + 1 } ht.n).tick

/-- A readback from `off` to the end that finds what it should. -/
theorem Feeds.verify {s : State} {src : Fill} {sector : Sector} {f : Nat → Byte} {off k : Nat}
    (hh : s.host = []) (hk : off + k = 4096) (hf : ∀ o, s.fillByte src o = f o)
    (hc : s.cleanTo src off) :
    ∃ u, Feeds [.verify src sector off] ((List.range' off k).map f) s u ∧
      Saw (verifyTrace sector f (List.range' off k)) s u := by
  induction k generalizing s off with
  | zero =>
    refine ⟨s.tick, Feeds.step hh fun c rest => ?_, (Saw.refl s).tick⟩
    show Host.Outcome.next (State.tick (State.runVerify _ _ _ _)) = _
    unfold State.runVerify
    rw [if_neg (show ¬ off < Params.sectorSize by simp only [Params.sectorSize]; omega), if_pos]
    cases src with
    | zero => exact hc
    | random =>
      have h : s.seq.matched = off := hc
      show (s.seq.matched == Params.sectorSize) = true
      rw [beq_iff_eq, h]
      simp only [Params.sectorSize]
      omega
  | succ k ih =>
    obtain ⟨t, ht, htc, hts⟩ := Feeds.verifyByte (s := s.tick) (sector := sector)
      ((State.tick_host s).trans hh) (by omega) ((State.fillByte_tick s src off).trans (hf off))
      (State.cleanTo_tick.mpr hc)
    obtain ⟨u, hu, hus⟩ := ih (s := t) (off := off + 1) (hts.after.host.trans hh) (by omega)
      (fun o => (hts.after.fillByte src o).trans (hf o)) htc
    refine ⟨u, ?_, hts.after.trans hus⟩
    refine Feeds.expand hh (fun c rest => ?_) (ht.append hu)
    show Host.Outcome.next (State.tick (State.runVerify _ _ _ _)) = _
    unfold State.runVerify
    rw [if_pos (show off < Params.sectorSize by simp only [Params.sectorSize]; omega)]
    rfl

/-! ## A pass -/

/-- The programs of a pass over the positions `l`. -/
def fillTrace (sector : Sector) (f : Nat → Byte) (l : List Nat) : List BusEvent :=
  l.flatMap fun o => programTrace (flashAddr sector o) (f o) [f o] true

/-- One pass from position `off`: the programs, then the whole readback, which ends it. -/
theorem Feeds.fill {s : State} {src : Fill} {sector : Sector} {f : Nat → Byte} {off k : Nat}
    (hh : s.host = []) (hk : off + k = 4096) (hf : ∀ o, s.fillByte src o = f o) :
    ∃ u, Feeds [.fill src sector off]
        ((List.range' off k).map f ++ (List.range' 0 (off + k)).map f) s u ∧
      Saw (fillTrace sector f (List.range' off k) ++
        verifyTrace sector f (List.range' 0 (off + k))) s u := by
  induction k generalizing s off with
  | zero =>
    have hs : Saw [] s (s.startVerify src) := by
      cases src
      · exact (Saw.refl s).latch { s.seq with clean := true } rfl
      · exact (Saw.refl s).latch { s.seq with matched := 0 } rfl
    have hc : (s.startVerify src).cleanTo src 0 := by cases src <;> rfl
    obtain ⟨u, hu, hus⟩ := Feeds.verify (sector := sector) (k := off + 0)
      (hs.tick.host.trans hh) (by omega) (fun o => (hs.tick.fillByte src o).trans (hf o))
      (State.cleanTo_tick.mpr hc)
    refine ⟨u, Feeds.expand hh (fun c rest => ?_) hu, hs.tick.trans hus⟩
    show Host.Outcome.next (State.tick (State.runFill _ _ _ _)) = _
    unfold State.runFill
    rw [if_neg (show ¬ off < Params.sectorSize by simp only [Params.sectorSize]; omega)]
    cases src <;> rfl
  | succ k ih =>
    obtain ⟨t, ht, hts⟩ := Feeds.retry (s := s.tick) (sector := sector)
      (offset := BitVec.ofNat 12 off) (v := f off) ((State.tick_host s).trans hh)
    replace hts := hts.after
    obtain ⟨u, hu, hus⟩ := ih (s := t) (off := off + 1) (hts.host.trans hh) (by omega)
      (fun o => (hts.fillByte src o).trans (hf o))
    have ho : (BitVec.ofNat 12 off).toNat = off := by
      rw [BitVec.toNat_ofNat]; exact Nat.mod_eq_of_lt (by omega)
    rw [ho] at hts
    rw [show off + 1 + k = off + (k + 1) by omega] at hu hus
    refine ⟨u, ?_, ?_⟩
    · have h : Feeds (retrySteps sector (BitVec.ofNat 12 off) (f off) ++ [.fill src sector (off + 1)])
          _ s.tick u := ht.append hu
      refine Feeds.expand hh (fun c rest => ?_) h
      have hb : ((s.withChip c).withTodo rest).fillByte src off = f off := hf off
      show Host.Outcome.next (State.tick (State.runFill _ _ _ _)) = _
      unfold State.runFill
      rw [if_pos (show off < Params.sectorSize by simp only [Params.sectorSize]; omega), hb]
      rfl
    · have h := hts.trans hus
      rw [← List.append_assoc] at h
      exact h

/-- ZeroSector, one pass (R160). -/
theorem Feeds.zero {s : State} {sector : Sector} (hh : s.host = []) :
    ∃ u, Feeds (zeroSteps sector) (List.replicate 8192 0x00) s u ∧
      Saw (fillTrace sector (fun _ => 0x00) (List.range 4096) ++
        verifyTrace sector (fun _ => 0x00) (List.range 4096)) s u := by
  obtain ⟨k, hk⟩ : ∃ k : Nat, k = 4096 := ⟨4096, rfl⟩
  obtain ⟨u, hu, hus⟩ := Feeds.fill (src := .zero) (sector := sector) (f := fun _ => 0x00)
    (off := 0) (k := k) hh (by omega) (fun _ => rfl)
  rw [Nat.zero_add, ← List.range_eq_range'] at hu hus
  rw [show (8192 : Nat) = k + k by omega, ← hk]
  refine ⟨u, ?_, hus⟩
  simpa [List.map_const', zeroSteps] using hu

/-- RandomizeSector, one pass (R162). -/
theorem Feeds.randomize {s : State} {sector : Sector} {g : Gen} {scr : U64} (hh : s.host = [])
    (hs : SeedsTo s g scr) :
    ∃ t u : State, Feeds [.drawPbuf 0] [] s t ∧
      Feeds (randomizeSteps sector) ((List.range 4096).map (streamByte g) ++
        (List.range 4096).map (streamByte g)) s u ∧
      Still { s with scr := scr, gen := genAdvance^[4096] g, genInit := true, pbuf := t.pbuf } t ∧
      (∀ o < 4096, t.pbufRead o = streamByte g o) ∧
      Saw (fillTrace sector (streamByte g) (List.range 4096) ++
        verifyTrace sector (streamByte g) (List.range 4096)) t u := by
  obtain ⟨t, ht, h3, h4⟩ := Feeds.drawPbuf hh hs
  obtain ⟨k, hk⟩ : ∃ k : Nat, k = 4096 := ⟨4096, rfl⟩
  have hth : t.host = [] := h3.only.host.trans hh
  obtain ⟨u, hu, hus⟩ := Feeds.fill (src := .random) (sector := sector)
    (f := t.fillByte .random) (off := 0) (k := k) hth (by omega) (fun _ => rfl)
  rw [Nat.zero_add, ← List.range_eq_range'] at hu hus
  have hm : ∀ l ∈ List.range k, t.fillByte .random l = streamByte g l := fun l hl =>
    h4 l (by rw [List.mem_range] at hl; omega)
  have e1 : (List.range k).map (t.fillByte .random) = (List.range k).map (streamByte g) :=
    List.map_congr_left hm
  have e2 : fillTrace sector (t.fillByte .random) (List.range k) =
      fillTrace sector (streamByte g) (List.range k) := by
    unfold fillTrace
    rw [List.flatMap_def, List.flatMap_def]
    congr 1
    exact List.map_congr_left fun l hl => by rw [hm l hl]
  have e3 : verifyTrace sector (t.fillByte .random) (List.range k) =
      verifyTrace sector (streamByte g) (List.range k) :=
    List.map_congr_left fun l hl => by rw [hm l hl]
  rw [e1] at hu
  rw [e2, e3] at hus
  refine ⟨t, u, ht, ?_, h3, h4, ?_⟩
  · rw [← hk]
    exact ht.cons hu
  · rw [← hk]
    exact hus

end Sys2Proof.Machine
end

