-- ==== Sys2Proof/Laws/Timer.lean ====
section
/-! SUPPORT. The composite count: its value in numbers, how Ticks add to it (spec/41_timer.md R123, R124),
and what a timed primitive counts (R128). -/

namespace Sys2Proof.Machine

theorem State.count_toNat (s : State) :
    s.count.toNat = s.thiCnt.toNat * 65536 + s.tloCnt.toNat := by
  have h := s.tloCnt.isLt
  unfold State.count
  rw [show (65536 : Nat) = 2 ^ 16 from rfl, ← Nat.shiftLeft_eq, Nat.shiftLeft_add_eq_or_of_lt h]
  exact BitVec.toNat_append _ _

/-- A counted Tick adds its cycles to the count, modulo 2^32. -/
theorem State.tick_count {s : State} (h1 : s.tloEn = true) (h2 : s.thiEn = true)
    (h3 : s.thiCascade = true) :
    s.tick.count.toNat = (s.count.toNat + Config.cycleCost s.draws) % 2 ^ 32 := by
  have hl := s.tloCnt.isLt
  have hh := s.thiCnt.isLt
  rw [State.count_toNat, State.count_toNat]
  simp only [State.tick, State.advanceCounters, State.drawn, h1, h2, h3, if_true, Bool.and_self,
    BitVec.toNat_add, BitVec.toNat_ofNat]
  generalize s.tloCnt.toNat = l at *
  generalize s.thiCnt.toNat = h at *
  generalize Config.cycleCost s.draws = c
  omega

theorem cyclesOf_zero (n : Nat) : cyclesOf n 0 = 0 := rfl

theorem cyclesOf_succ (n k : Nat) : cyclesOf n (k + 1) = cyclesOf n k + Config.cycleCost (n + k) := by
  simp [cyclesOf, List.range_succ]

theorem cyclesOf_add (n j k : Nat) : cyclesOf n (j + k) = cyclesOf n j + cyclesOf (n + j) k := by
  induction k with
  | zero => rfl
  | succ k ih => rw [← Nat.add_assoc, cyclesOf_succ, ih, cyclesOf_succ]; simp [Nat.add_assoc]

/-! ## Traces -/

theorem State.saw_count {s : State} (h1 : s.tloEn = true) (h2 : s.thiEn = true)
    (h3 : s.thiCascade = true) (e : BusEvent) :
    (s.saw e).count.toNat = (s.count.toNat + Config.cycleCost s.draws) % 2 ^ 32 :=
  State.tick_count (s := { s with bus := e :: s.bus }) h1 h2 h3

/-- A trace while the counters run adds the cycles of its Ticks. -/
theorem State.sawAll_count {s : State} (h1 : s.tloEn = true) (h2 : s.thiEn = true)
    (h3 : s.thiCascade = true) (l : List BusEvent) :
    (s.sawAll l).count.toNat = (s.count.toNat + cyclesOf s.draws l.length) % 2 ^ 32 := by
  induction l generalizing s with
  | nil =>
    have := s.count.isLt
    rw [State.sawAll_nil, List.length_nil, cyclesOf_zero, Nat.add_zero, Nat.mod_eq_of_lt this]
  | cons e l ih =>
    have o := ((onlyBus_iff _ _).mp (OnlyBus.saw s e)).1
    rw [State.sawAll_cons, ih (by rw [o.2.2.2.1, h1]) (by rw [o.2.2.2.2.1, h2])
      (by rw [o.2.2.2.2.2.1, h3]), State.saw_count h1 h2 h3, State.saw_draws, List.length_cons,
      Nat.add_comm l.length 1, cyclesOf_add]
    simp only [cyclesOf_succ, cyclesOf_zero, Nat.add_zero]
    omega

/-- A Tick while the low counter is held counts nothing. -/
theorem State.tick_count_held {s : State} (h : s.tloEn = false) : s.tick.count = s.count := by
  simp only [State.count, (State.tick_held h).1, (State.tick_held h).2]

/-- A trace while the low counter is held counts nothing. -/
theorem State.sawAll_held {s : State} (h : s.tloEn = false) (l : List BusEvent) :
    (s.sawAll l).count = s.count := by
  have o := (OnlyBus.sawAll s l).2 h
  simp only [State.count, o.1, o.2]

/-! ## The timed primitives (spec/42_flash_protocol.md R145, R147) -/

theorem Feeds.setupTimer {s : State} (hh : s.host = []) :
    Feeds [.setupTimer] [] s s.setupTimer := Feeds.timerCall hh fun _ _ => rfl

theorem Feeds.startTimer {s : State} (hh : s.host = []) :
    Feeds [.startTimer] [] s s.startTimer := by
  refine Feeds.timerCall hh fun c rest => ?_
  show Host.Outcome.next (State.startTimer _) = _
  rw [State.withTodo_startTimer]
  rfl

theorem Feeds.endTimer {s : State} (hh : s.host = []) :
    Feeds [.endTimer] [] s s.endTimer := Feeds.timerCall hh fun _ _ => rfl

/-- The state when a timed primitive has done its one timed write: SetupTimer, the cycles `w` that are
not counted, StartTimer, the write. -/
def State.timedWrite (s : State) (w : List BusEvent) (a : U16) (v : Byte) : State :=
  (s.setupTimer.sawAll w).startTimer.saw (.write a v)

theorem State.timedWrite_spec (s : State) (w : List BusEvent) (a : U16) (v : Byte) :
    (s.timedWrite w a v).count.toNat = cyclesOf (s.draws + 1 + w.length) 2 % 2 ^ 32 ∧
    (s.timedWrite w a v).draws = s.draws + 3 + w.length ∧
    (s.timedWrite w a v).bus = .write a v :: (w.reverse ++ s.bus) ∧
    s.timedWrite w a v = { s with
      chip := (s.timedWrite w a v).chip
      bus := (s.timedWrite w a v).bus
      draws := (s.timedWrite w a v).draws
      tloCnt := (s.timedWrite w a v).tloCnt
      thiCnt := (s.timedWrite w a v).thiCnt
      tloEn := true
      thiEn := true
      thiCascade := true
      tmrState := .running
      ime := false } := by
  have o := (onlyBus_iff _ _).mp (OnlyBus.sawAll s.setupTimer w)
  have hc : (s.setupTimer.sawAll w).count = 0 := by
    rw [State.sawAll_held (by simp)]
    unfold State.count
    rw [State.setupTimer_tloCnt, State.setupTimer_thiCnt]
    rfl
  have hd : (s.setupTimer.sawAll w).draws = s.draws + 1 + w.length := by
    rw [State.sawAll_draws]; simp
  have hb : (s.setupTimer.sawAll w).bus = w.reverse ++ s.bus := by
    rw [State.sawAll_bus]; simp
  generalize hg : s.setupTimer.sawAll w = t at *
  have htw : s.timedWrite w a v = t.startTimer.saw (.write a v) := by
    unfold State.timedWrite; rw [hg]
  simp only [State.setupTimer_scr, State.setupTimer_gen, State.setupTimer_genInit,
    State.setupTimer_thiEn, State.setupTimer_thiCascade, State.setupTimer_tmrState,
    State.setupTimer_ime, State.setupTimer_flashId, State.setupTimer_pbuf, State.setupTimer_samp,
    State.setupTimer_result, State.setupTimer_opsel, State.setupTimer_arg0, State.setupTimer_arg1,
    State.setupTimer_arg2, State.setupTimer_res, State.setupTimer_seq, State.setupTimer_host,
    State.setupTimer_epoch] at o
  obtain ⟨⟨o1, o2, o3, o4, o5, o6, o7, o8, o9, o10, o11, o12, o13, o14, o15, o16, o17, o18, o19,
    o20⟩, -⟩ := o
  have hs : t.startTimer.count.toNat = Config.cycleCost (s.draws + 1 + w.length) % 2 ^ 32 := by
    have h := State.tick_count (s := { t with
      tloEn := true, tmrState := if t.tmrState = .armed then .running else .idle }) rfl o5 o6
    have hz : ({ t with
      tloEn := true
      tmrState := if t.tmrState = .armed then .running else .idle } : State).count = 0 := hc
    rw [hz] at h
    simpa [State.startTimer, hd] using h
  have x := (onlyBus_iff _ _).mp (OnlyBus.saw t.startTimer (.write a v))
  simp only [State.startTimer_scr, State.startTimer_gen, State.startTimer_genInit,
    State.startTimer_tloEn, State.startTimer_thiEn, State.startTimer_thiCascade,
    State.startTimer_tmrState, State.startTimer_ime, State.startTimer_flashId,
    State.startTimer_pbuf, State.startTimer_samp, State.startTimer_result, State.startTimer_opsel,
    State.startTimer_arg0, State.startTimer_arg1, State.startTimer_arg2, State.startTimer_res,
    State.startTimer_seq, State.startTimer_host, State.startTimer_epoch] at x
  obtain ⟨⟨x1, x2, x3, x4, x5, x6, x7, x8, x9, x10, x11, x12, x13, x14, x15, x16, x17, x18, x19,
    x20⟩, -⟩ := x
  rw [htw]
  refine ⟨?_, ?_, ?_, ?_⟩
  · rw [State.saw_count (by simp) (by simpa using o5) (by simpa using o6), hs]
    simp only [cyclesOf_succ, cyclesOf_zero, State.startTimer_draws, hd, Nat.add_zero]
    omega
  · simp [hd]; omega
  · simp [hb]
  · generalize t.startTimer.saw (.write a v) = u at *
    cases u
    cases s
    simp_all

/-- A timed primitive from its write on: the poll, EndTimer, and the abort write on failure. Its frame is
OnlyTimedBusAndRes, with RES not yet written. -/
theorem Feeds.timed {s : State} {l : List Micro} {w : List BusEvent} {sec : BankSector}
    {offset : Offset} {expected v e : Byte} {pend : List Byte} (hh : s.host = [])
    (hw : Feeds l [] s (s.timedWrite w (windowAddr sec offset) v))
    (hp : ∀ b ∈ pend, pollStatus expected b = .pending) (he : pollStatus expected e ≠ .pending) :
    ∃ u, Feeds (l ++ pollSteps sec offset expected ++ [.endTimer, .abortOnFailure]) (pend ++ [e]) s u ∧
      u.seq.ok = decide (pollStatus expected e = .completed) ∧
      u.bus = (w ++ [BusEvent.write (windowAddr sec offset) v] ++
        pollTrace (windowAddr sec offset) (pend ++ [e]) ++
        abortTrace (decide (pollStatus expected e = PollStatus.completed))).reverse ++ s.bus ∧
      u.count.toNat = cyclesOf (s.draws + 1 + w.length) (pend.length + 3) % 2 ^ 32 ∧
      u.res = s.res ∧ u.seq.n = s.seq.n ∧ OnlyTimedBusAndRes { s with seq := u.seq } u := by
  obtain ⟨c1, d1, b1, f1⟩ := State.timedWrite_spec s w (windowAddr sec offset) v
  generalize s.timedWrite w (windowAddr sec offset) v = a at *
  have ha : a.host = [] := by rw [f1]; exact hh
  obtain ⟨t, ht, hok, hs⟩ := Feeds.poll (sec := sec) (offset := offset) ha hp he
  have hx := hs.saw
  have hth : t.host = [] := hx.host.trans ha
  have heh : t.endTimer.host = [] := by simpa using hth
  have f3 := Feeds.abort heh
  have hok' : t.endTimer.seq.ok = decide (pollStatus expected e = .completed) := by simpa using hok
  rw [hok'] at f3
  have hr : a.tloEn = true ∧ a.thiEn = true ∧ a.thiCascade = true ∧ a.tmrState = .running := by
    rw [f1]; exact ⟨rfl, rfl, rfl, rfl⟩
  have hcnt : t.count.toNat = cyclesOf (s.draws + 1 + w.length) (pend.length + 3) % 2 ^ 32 := by
    obtain ⟨_, _, _, _, rfl⟩ := hs
    show (a.sawAll _).count.toNat = _
    rw [State.sawAll_count hr.1 hr.2.1 hr.2.2.1, c1, d1, show pend.length + 3 = 2 + (pend.length + 1)
      by omega, cyclesOf_add]
    simp only [pollTrace, List.length_map, List.length_append, List.length_singleton]
    rw [show s.draws + 3 + w.length = s.draws + 1 + w.length + 2 by omega]
    omega
  have hend : t.endTimer.count = t.count := by
    have h := State.tick_held (s := { t with
      tloEn := false, ime := true
      tmrState := if t.tmrState = .running then .stopped else .idle }) rfl
    have h1 : t.endTimer.tloCnt = t.tloCnt := h.1
    have h2 : t.endTimer.thiCnt = t.thiCnt := h.2
    unfold State.count
    rw [h1, h2]
  have f := State.ext_iff.mp f1
  have o := ((onlyBus_iff _ _).mp hx.only).1
  have x := ((onlyBus_iff _ _).mp ((OnlyBus.tick t.endTimer).trans (OnlyBus.sawAll t.endTimer.tick
    (abortTrace (decide (pollStatus expected e = .completed)))))).1
  simp only [true_and] at f o
  have y := hx.n
  have b := State.sawAll_bus t.endTimer.tick (abortTrace (decide (pollStatus expected e = .completed)))
  have c := (State.sawAll_held (s := t.endTimer.tick) (by simp)
    (abortTrace (decide (pollStatus expected e = .completed)))).trans
    (State.tick_count_held (s := t.endTimer) (by simp))
  have hf := (hw.append ht).append ((Feeds.endTimer hth).cons f3)
  generalize t.endTimer.tick.sawAll _ = u at *
  refine ⟨u, by simpa using hf, ?_, ?_, ?_, ?_, ?_, ?_⟩
  · simp [x, hok]
  · rw [b, State.tick_bus, State.endTimer_bus, hx.bus, b1]; simp
  · rw [c, hend, hcnt]
  · simp [x, o, f]
  · simp [x, y, f]
  · simp [OnlyTimedBusAndRes, State.ext_iff, x, o, f]

/-- The cycles of an erase before its confirm. -/
def eraseSetupTrace : List BusEvent :=
  [.write 0x5555 0xAA, .write 0x2AAA 0x55, .write 0x5555 0x80, .write 0x5555 0xAA, .write 0x2AAA 0x55]

theorem Feeds.eraseSetup {s : State} (hh : s.host = []) :
    Feeds (unlockSteps ++ [.cycle .cmdEraseSetup] ++ unlockSteps) [] s (s.sawAll eraseSetupTrace) :=
  have hw : ∀ l, (s.sawAll l).host = [] := fun l => (State.sawAll_host s l).trans hh
  ((Feeds.unlock hh).append (Feeds.write (hw [.write 0x5555 0xAA, .write 0x2AAA 0x55])
    fun _ => rfl)).append (Feeds.unlock
      (hw [.write 0x5555 0xAA, .write 0x2AAA 0x55, .write 0x5555 0x80]))

theorem Feeds.eraseTimed {s : State} {sector : Sector} {e : Byte} {pend : List Byte}
    (hh : s.host = []) (hp : ∀ b ∈ pend, pollStatus 0xFF b = .pending)
    (he : pollStatus 0xFF e ≠ .pending) :
    ∃ u, Feeds (eraseTimedSteps sector) (pend ++ [e]) s u ∧
      u.seq.ok = decide (pollStatus 0xFF e = .completed) ∧
      u.bus = (eraseTrace (flashAddr sector 0) (pend ++ [e])
        (decide (pollStatus 0xFF e = PollStatus.completed))).reverse ++ s.bus ∧
      u.count.toNat = cyclesOf (s.draws + 6) (pend.length + 3) % 2 ^ 32 ∧
      u.res = s.res ∧ u.seq.n = s.seq.n ∧ OnlyTimedBusAndRes { s with seq := u.seq } u := by
  have ha : windowAddr (sectorInBank sector) 0 = flashAddr sector 0 := windowAddr_ofNat sector (by decide)
  have h0 : s.setupTimer.host = [] := by simpa using hh
  have h1 : (s.setupTimer.sawAll eraseSetupTrace).host = [] := (State.sawAll_host _ _).trans h0
  have h2 : (s.setupTimer.sawAll eraseSetupTrace).startTimer.host = [] := by simpa using h1
  have f1 := (Feeds.setupTimer hh).append (Feeds.eraseSetup h0)
  have f2 := (Feeds.startTimer h1).cons (Feeds.write (i := .sectorErase (sectorInBank sector))
    (off := windowAddr (sectorInBank sector) 0) (v := 0x30) h2 fun _ => rfl)
  obtain ⟨u, hu, h⟩ := Feeds.timed (w := eraseSetupTrace) hh (f1.append f2) hp he
  rw [ha] at h
  exact ⟨u, by simpa [eraseTimedSteps] using hu, h⟩

/-- The cycles of a program before its data. -/
def programSetupTrace : List BusEvent :=
  [.write 0x5555 0xAA, .write 0x2AAA 0x55, .write 0x5555 0xA0]

theorem Feeds.programSetup {s : State} (hh : s.host = []) :
    Feeds (unlockSteps ++ [.cycle .cmdProgram]) [] s (s.sawAll programSetupTrace) :=
  (Feeds.unlock hh).append (Feeds.write ((State.sawAll_host s
    [.write 0x5555 0xAA, .write 0x2AAA 0x55]).trans hh) fun _ => rfl)

theorem Feeds.programTimed {s : State} {sector : Sector} {offset : Offset} {v e : Byte}
    {pend : List Byte} (hh : s.host = []) (hp : ∀ b ∈ pend, pollStatus v b = .pending)
    (he : pollStatus v e ≠ .pending) :
    ∃ u, Feeds (programTimedSteps sector offset v) (pend ++ [e]) s u ∧
      u.seq.ok = decide (pollStatus v e = .completed) ∧
      u.bus = (programTrace (flashAddr sector offset.toNat) v (pend ++ [e])
        (decide (pollStatus v e = PollStatus.completed))).reverse ++ s.bus ∧
      u.count.toNat = cyclesOf (s.draws + 4) (pend.length + 3) % 2 ^ 32 ∧
      u.res = s.res ∧ u.seq.n = s.seq.n ∧ OnlyTimedBusAndRes { s with seq := u.seq } u := by
  have h0 : s.setupTimer.host = [] := by simpa using hh
  have h1 : (s.setupTimer.sawAll programSetupTrace).host = [] := (State.sawAll_host _ _).trans h0
  have h2 : (s.setupTimer.sawAll programSetupTrace).startTimer.host = [] := by simpa using h1
  have f1 := (Feeds.setupTimer hh).append (Feeds.programSetup h0)
  have f2 := (Feeds.startTimer h1).cons
    (Feeds.write (i := .programData (sectorInBank sector) offset v)
      (off := windowAddr (sectorInBank sector) offset) (v := v) h2 fun _ => rfl)
  obtain ⟨u, hu, h⟩ := Feeds.timed (w := programSetupTrace) hh (f1.append f2) hp he
  rw [windowAddr_eq_flashAddr] at h
  exact ⟨u, by simpa [programTimedSteps] using hu, h⟩

end Sys2Proof.Machine
end

