-- ==== Sys2Proof/Laws/Orch.lean ====
section
/-! SUPPORT. The batteries when every command succeeds at its first poll: what the steps of a trial, of a
sector and of a battery do, cycle by cycle and sample by sample (spec/45_orchestrator.md R181 to R191). -/

namespace Sys2Proof.Machine

/-! ## What the steps of a battery may change -/

/-- Every sample of this sector so far is the cycles of three Ticks in a row. -/
def State.samplesTimed (s : State) : Prop :=
  ∀ i < s.seq.n, ∃ d, (s.sampRead i).toNat = cyclesOf d 3 % 2 ^ 32

/-- `u` is `s` after the cycles `tr` and `k` draws of the generator, but for the sequencer and what
OnlyBattery lets change; `random` says whether the PRNG and PBUF may have changed, and RESULT is as it
was. -/
structure Worked (random : Bool) (tr : List BusEvent) (k : Nat) (s u : State) : Prop where
  flashId : u.flashId = s.flashId
  result : u.result = s.result
  opsel : u.opsel = s.opsel
  arg0 : u.arg0 = s.arg0
  arg1 : u.arg1 = s.arg1
  arg2 : u.arg2 = s.arg2
  res : u.res = s.res
  host : u.host = s.host
  epoch : u.epoch = s.epoch
  bus : u.bus = tr.reverse ++ s.bus
  prng : random = false → u.scr = s.scr ∧ u.gen = s.gen ∧ u.genInit = s.genInit ∧ u.pbuf = s.pbuf
  stream : ∀ g scr, SeedsTo s g scr → SeedsTo u (genAdvance^[k] g) scr
  drawn : s.genInit = true ∨ 0 < k → u.genInit = true
  timed : s.samplesTimed → u.samplesTimed

/-- The timer as a timed primitive leaves it. -/
def State.settled (s : State) : Prop :=
  s.tloEn = false ∧ s.thiEn = true ∧ s.thiCascade = true ∧ s.tmrState = .stopped ∧ s.ime = true

theorem State.samplesTimed_congr {s u : State} (h1 : u.samp = s.samp) (h2 : u.epoch = s.epoch)
    (h3 : u.seq.n = s.seq.n) (h : s.samplesTimed) : u.samplesTimed := by
  intro i hi
  rw [h3] at hi
  simpa only [State.sampRead, h1, h2] using h i hi

/-- Steps that touch no draw, buffer or sample. -/
theorem Worked.still {r : Bool} {tr : List BusEvent} {s u : State}
    (h : u = { s with
      chip := u.chip, bus := u.bus, draws := u.draws, tloCnt := u.tloCnt, thiCnt := u.thiCnt
      tloEn := u.tloEn, thiEn := u.thiEn, thiCascade := u.thiCascade, tmrState := u.tmrState
      ime := u.ime, seq := u.seq })
    (hn : u.seq.n = s.seq.n) (hb : u.bus = tr.reverse ++ s.bus) : Worked r tr 0 s u := by
  generalize u.chip = a1, u.bus = a2, u.draws = a3, u.tloCnt = a4, u.thiCnt = a5, u.tloEn = a6,
    u.thiEn = a7, u.thiCascade = a8, u.tmrState = a9, u.ime = a10, u.seq = a11 at h hn hb
  subst h
  exact ⟨rfl, rfl, rfl, rfl, rfl, rfl, rfl, rfl, rfl, hb, fun _ => ⟨rfl, rfl, rfl, rfl⟩,
    fun _ _ h => h, fun h => h.resolve_right (Nat.lt_irrefl 0),
    State.samplesTimed_congr rfl rfl hn⟩

theorem Worked.refl (r : Bool) (s : State) : Worked r [] 0 s s := Worked.still rfl rfl rfl

theorem Worked.trans {r : Bool} {tr tr' : List BusEvent} {k k' : Nat} {s t u : State}
    (h1 : Worked r tr k s t) (h2 : Worked r tr' k' t u) : Worked r (tr ++ tr') (k + k') s u where
  flashId := h2.flashId.trans h1.flashId
  result := h2.result.trans h1.result
  opsel := h2.opsel.trans h1.opsel
  arg0 := h2.arg0.trans h1.arg0
  arg1 := h2.arg1.trans h1.arg1
  arg2 := h2.arg2.trans h1.arg2
  res := h2.res.trans h1.res
  host := h2.host.trans h1.host
  epoch := h2.epoch.trans h1.epoch
  bus := by rw [h2.bus, h1.bus, List.reverse_append, List.append_assoc]
  prng := fun h =>
    ⟨(h2.prng h).1.trans (h1.prng h).1, (h2.prng h).2.1.trans (h1.prng h).2.1,
      (h2.prng h).2.2.1.trans (h1.prng h).2.2.1, (h2.prng h).2.2.2.trans (h1.prng h).2.2.2⟩
  stream := fun g scr h => by
    rw [Nat.add_comm, Function.iterate_add_apply]
    exact h2.stream _ _ (h1.stream _ _ h)
  drawn := fun h => by
    by_cases hk : 0 < k'
    · exact h2.drawn (.inr hk)
    · exact h2.drawn (.inl (h1.drawn (h.imp_right fun h => by omega)))
  timed := fun h => h2.timed (h1.timed h)

/-- The same with the trace and the number of draws written otherwise. -/
theorem Worked.cast {r : Bool} {tr tr' : List BusEvent} {k k' : Nat} {s u : State}
    (h : Worked r tr k s u) (ht : tr = tr') (hk : k = k') : Worked r tr' k' s u := ht ▸ hk ▸ h

theorem Worked.weaken {tr : List BusEvent} {k : Nat} {s u : State} (h : Worked false tr k s u)
    (r : Bool) : Worked r tr k s u := { h with prng := fun _ => h.prng rfl }

theorem Saw.worked {l : List BusEvent} {s u : State} (h : Saw l s u) (r : Bool) :
    Worked r l 0 s u := by
  refine Worked.still ?_ h.n h.bus
  have f := ((onlyBus_iff _ _).mp h.only).1
  cases u
  cases s
  simp_all

theorem Saw.settled {l : List BusEvent} {s u : State} (h : Saw l s u) (hs : s.settled) :
    u.settled := by
  have f := ((onlyBus_iff _ _).mp h.only).1
  simpa [State.settled, f] using hs

theorem Worked.tick {r : Bool} {tr : List BusEvent} {k : Nat} {s u : State} (h : Worked r tr k s u) :
    Worked r tr k s u.tick :=
  (h.trans ((Saw.refl u).tick.worked r)).cast (List.append_nil tr) rfl

/-- From a state one Tick earlier. -/
theorem Worked.after {r : Bool} {tr : List BusEvent} {k : Nat} {s u : State}
    (h : Worked r tr k s.tick u) : Worked r tr k s u :=
  ((Worked.refl r s).tick.trans h).cast rfl (Nat.zero_add k)

theorem State.settled_tick {s : State} : s.tick.settled ↔ s.settled := by simp [State.settled]

theorem State.tick_n (s : State) : s.tick.seq.n = s.seq.n := by rw [State.tick_seq]

theorem State.tick_idle {s : State} (h : s.host = []) : s.tick.host = [] := (State.tick_host s).trans h

theorem timed_worked {tr : List BusEvent} {s u : State}
    (h : OnlyTimedBusAndRes { s with seq := u.seq } u) (hr : u.res = s.res)
    (hn : u.seq.n = s.seq.n) (hb : u.bus = tr.reverse ++ s.bus) (r : Bool) :
    Worked r tr 0 s u ∧ u.settled := by
  refine ⟨Worked.still ?_ hn hb, ?_⟩
  · rw [OnlyTimedBusAndRes, hr] at h
    rw [h]
  · rw [h]
    exact ⟨rfl, rfl, rfl, rfl, rfl⟩

/-! ## Gate, sample collection, trials -/

/-- An erase gate passed at once (R184). -/
theorem Feeds.gate {s : State} {sector : Sector} (hh : s.host = []) :
    ∃ u : State, Feeds (gateSteps sector) [0xFF] s u ∧ Saw (eraseCycles sector) s u := by
  obtain ⟨t, ht, hok, hs⟩ := Feeds.erase (sector := sector) (e := 0xFF) (pend := []) hh
    (by simp) (by simp [pollStatus_same])
  simp only [pollStatus_same, decide_true] at hok
  refine ⟨t.tick, ?_, hs.tick⟩
  have h := ht.append (Feeds.step (m := .eraseGate sector) (u := t) (hs.host.trans hh)
    fun c rest => by
      show Host.Outcome.next (State.tick (State.runEraseGate _ _)) = _
      unfold State.runEraseGate
      rw [if_pos (show ((t.withChip c).withTodo rest).seq.ok = true from hok)])
  simpa [gateSteps] using h

/-- A sample collected after a timed primitive that succeeded (R182). -/
theorem Feeds.collect {s : State} (hh : s.host = []) (hok : s.seq.ok = true)
    (ht : s.tmrState = .stopped) (hn : s.seq.n < 40960) :
    Feeds [.collect] [] s (State.tick { s with
      samp := storeWrite s.samp s.seq.n s.count, seq := { s.seq with n := s.seq.n + 1 } }) := by
  refine Feeds.step hh fun c rest => ?_
  have h1 : ((s.withChip c).withTodo rest).seq.ok = true := hok
  have h2 : ((s.withChip c).withTodo rest).seq.n < Params.sampleCap := hn
  have h3 : ((s.withChip c).withTodo rest).tmrState = .stopped := ht
  show State.runCollect _ = _
  unfold State.runCollect
  rw [if_pos h1, if_pos h2]
  unfold State.appendSample State.afterTimerResult State.timerResult
  rw [if_pos h3, if_pos h3]
  rfl

/-- A timed primitive that succeeded, and its sample. -/
theorem Feeds.sample {s t : State} {l : List Micro} {a : List Byte} {tr : List BusEvent} {d : Nat}
    (hh : s.host = []) (hl : Feeds l a s t) (hok : t.seq.ok = true) (hn : t.seq.n = s.seq.n)
    (hs : s.seq.n < 40960) (hw : Worked false tr 0 s t) (hset : t.settled)
    (hc : t.count.toNat = cyclesOf d 3 % 2 ^ 32) :
    ∃ u, Feeds (l ++ [.collect]) a s u ∧ u.seq.n = s.seq.n + 1 ∧ Worked false tr 0 s u ∧
      u.settled := by
  have hf := Feeds.collect (hw.host.trans hh) hok hset.2.2.2.1 (hn ▸ hs)
  have h := hl.append hf
  rw [List.append_nil] at h
  refine ⟨_, h, ?_, Worked.tick ?_, State.settled_tick.mpr hset⟩
  · rw [State.tick_n]
    exact congrArg (· + 1) hn
  · refine { hw with timed := fun hx i hi => ?_ }
    show ∃ d, ((storeRead (storeWrite t.samp t.seq.n t.count) i).getD _).toNat = _
    rw [storeRead_write]
    by_cases he : t.seq.n = i
    · rw [if_pos he]
      exact ⟨d, hc⟩
    · rw [if_neg he]
      have : i < t.seq.n + 1 := hi
      exact hw.timed hx i (by omega)

theorem Feeds.eraseSample {s : State} {sector : Sector} (hh : s.host = []) (hs : s.seq.n < 40960) :
    ∃ u, Feeds (eraseTimedSteps sector ++ [.collect]) [0xFF] s u ∧ u.seq.n = s.seq.n + 1 ∧
      Worked false (eraseCycles sector) 0 s u ∧ u.settled := by
  obtain ⟨t, ht, hok, hb, hc, hr, hn, hf⟩ := Feeds.eraseTimed (sector := sector) (e := 0xFF)
    (pend := []) hh (by simp) (by simp [pollStatus_same])
  simp only [pollStatus_same, decide_true] at hok
  obtain ⟨hw, hset⟩ := timed_worked (tr := eraseCycles sector) hf hr hn hb false
  exact Feeds.sample hh ht hok hn hs hw hset hc

theorem Feeds.programSample {s : State} {sector : Sector} {off : Nat} {v : Byte} (ho : off < 4096)
    (hh : s.host = []) (hs : s.seq.n < 40960) :
    ∃ u, Feeds (programTimedSteps sector (BitVec.ofNat 12 off) v ++ [.collect]) [v] s u ∧
      u.seq.n = s.seq.n + 1 ∧ Worked false (programCycles sector off v) 0 s u ∧ u.settled := by
  obtain ⟨t, ht, hok, hb, hc, hr, hn, hf⟩ := Feeds.programTimed (sector := sector)
    (offset := BitVec.ofNat 12 off) (v := v) (e := v) (pend := []) hh (by simp)
    (by simp [pollStatus_same])
  rw [show (BitVec.ofNat 12 off).toNat = off by
    rw [BitVec.toNat_ofNat]; exact Nat.mod_eq_of_lt (by omega)] at hb
  simp only [pollStatus_same, decide_true] at hok hb
  obtain ⟨hw, hset⟩ := timed_worked (tr := programCycles sector off v) hf hr hn hb false
  exact Feeds.sample hh ht hok hn hs hw hset hc

theorem Worked.targetByte {tr : List BusEvent} {k : Nat} {s u : State} (h : Worked false tr k s u)
    (b : Battery) (o : Nat) : u.targetByte b o = s.targetByte b o := by
  cases b <;> simp only [State.targetByte, State.pbufRead, (h.prng rfl).2.2.2, h.epoch]

/-- The timed program loop from `off` to the end: one sample a byte (R188 to R190). -/
theorem Feeds.programLoop {s : State} {b : Battery} {sector : Sector} {off k : Nat}
    (hh : s.host = []) (hk : off + k = 4096) (hset : 0 < k ∨ s.settled)
    (hs : s.seq.n + k ≤ 40960) :
    ∃ (a : List Byte) (u : State), Feeds [.programLoop b sector off] a s u ∧
      u.seq.n = s.seq.n + k ∧
      Worked false ((List.range' off k).flatMap fun o => programCycles sector o (s.targetByte b o)) 0
        s u ∧ u.settled := by
  induction k generalizing s off with
  | zero =>
    refine ⟨[], s.tick, Feeds.step hh fun c rest => ?_, State.tick_n s, (Worked.refl false s).tick,
      State.settled_tick.mpr (by simpa using hset)⟩
    show Host.Outcome.next (State.tick (State.runProgramLoop _ _ _ _)) = _
    unfold State.runProgramLoop
    rw [if_neg (show ¬ off < Params.sectorSize by simp only [Params.sectorSize]; omega)]
  | succ k ih =>
    obtain ⟨t, ht, hn, hw, hts⟩ := Feeds.programSample (s := s.tick) (sector := sector) (off := off)
      (v := s.targetByte b off) (by omega) (State.tick_idle hh) (by rw [State.tick_n]; omega)
    rw [State.tick_n] at hn
    replace hw := hw.after
    obtain ⟨a, u, hu, hun, huw, hus⟩ := ih (s := t) (off := off + 1) (hw.host.trans hh) (by omega)
      (.inr hts) (by omega)
    simp only [hw.targetByte] at huw
    refine ⟨_, u, Feeds.expand hh (fun c rest => ?_) (ht.append hu), by omega, hw.trans huw, hus⟩
    show Host.Outcome.next (State.tick (State.runProgramLoop _ _ _ _)) = _
    unfold State.runProgramLoop
    rw [if_pos (show off < Params.sectorSize by simp only [Params.sectorSize]; omega)]
    have hb : ((s.withChip c).withTodo rest).targetByte b off = s.targetByte b off := by
      cases b <;> rfl
    rw [hb]
    simp only [State.withTodo_push, List.append_assoc, List.cons_append, List.nil_append]

/-- The whole program loop, with the byte of each position. -/
theorem Feeds.programAll {s : State} {b : Battery} {sector : Sector} {f : Nat → Byte}
    (hh : s.host = []) (hs : s.seq.n + 4096 ≤ 40960) (hf : ∀ o < 4096, s.targetByte b o = f o) :
    ∃ (a : List Byte) (u : State), Feeds [.programLoop b sector 0] a s u ∧
      u.seq.n = s.seq.n + 4096 ∧ Worked false (programAllCycles sector f) 0 s u ∧ u.settled := by
  unfold programAllCycles
  obtain ⟨k, hk⟩ : ∃ k : Nat, k = 4096 := ⟨4096, rfl⟩
  rw [← hk] at hs hf ⊢
  obtain ⟨a, u, hu, hun, huw, hus⟩ := Feeds.programLoop (b := b) (sector := sector) (off := 0)
    (k := k) hh (by omega) (.inl (by omega)) hs
  refine ⟨a, u, hu, hun, huw.cast ?_ rfl, hus⟩
  rw [← List.range_eq_range', List.flatMap_def, List.flatMap_def]
  congr 1
  exact List.map_congr_left fun o ho => by rw [hf o (List.mem_range.mp ho)]

/-- The two batteries that draw from the PRNG (R187, R190). -/
def Battery.random : Battery → Bool
  | .eraseAfterRandom | .programRandom => true
  | .eraseAfterFF | .eraseAfter00 | .programFF | .program00 => false

/-- How many bytes of the stream one trial draws (R187, R190). -/
def Battery.drawsPerTrial (b : Battery) : Nat := if b.random then 4096 else 0

theorem drew_worked {s u : State} {g : Gen} {scr : U64} (hs : SeedsTo s g scr)
    (h : Still { s with scr := scr, gen := genAdvance^[4096] g, genInit := true, pbuf := u.pbuf } u) :
    u.seq.n = s.seq.n ∧ Worked true [] 4096 s u := by
  have hq : u.seq.n = s.seq.n := congrArg Sequencer.n h.only.seq
  refine ⟨hq, ?_⟩
  have hu : ∀ g' scr', SeedsTo s g' scr' → g' = g ∧ scr' = scr := by
    intro g' scr' h'
    cases hg : s.genInit
    · obtain ⟨n, hr, rfl, hn, rfl⟩ := hs.2 hg
      obtain ⟨m, hr', rfl, hm, rfl⟩ := h'.2 hg
      have : m = n := by
        rcases Nat.lt_trichotomy m n with hlt | he | hlt
        · exact absurd (hr m hlt) hm
        · exact he
        · exact absurd (hr' n hlt) hn
      subst this
      exact ⟨rfl, rfl⟩
    · obtain ⟨rfl, rfl⟩ := hs.1 hg
      obtain ⟨rfl, rfl⟩ := h'.1 hg
      exact ⟨rfl, rfl⟩
  obtain ⟨k, hk⟩ : ∃ k : Nat, k = 4096 := ⟨4096, rfl⟩
  rw [← hk] at h ⊢
  have e := ((onlyBus_iff _ _).mp h.only).1
  refine ⟨by simp [e], by simp [e], by simp [e], by simp [e], by simp [e], by simp [e], by simp [e],
    by simp [e], by simp [e], by simpa using h.bus, fun h => Bool.noConfusion h,
    fun g' scr' h' => ?_, fun _ => by simp [e],
    State.samplesTimed_congr (by simp [e]) (by simp [e]) hq⟩
  obtain ⟨rfl, rfl⟩ := hu g' scr' h'
  exact ⟨fun _ => ⟨e.2.1.symm, e.1.symm⟩, fun hx => by rw [e.2.2.1] at hx; exact Bool.noConfusion hx⟩

theorem passTrace_eq (sector : Sector) (f : Nat → Byte) :
    fillTrace sector f (List.range 4096) ++ verifyTrace sector f (List.range 4096) =
      passCycles sector f := by
  unfold fillTrace verifyTrace passCycles programAllCycles
  generalize List.range 4096 = l
  rfl

theorem passCycles_congr (sector : Sector) {f f' : Nat → Byte} (h : ∀ o < 4096, f o = f' o) :
    passCycles sector f = passCycles sector f' := by
  have h1 : ∀ o ∈ List.range 4096, f o = f' o := fun o ho => h o (List.mem_range.mp ho)
  unfold passCycles programAllCycles
  generalize List.range 4096 = l at h1
  rw [List.flatMap_def, List.flatMap_def,
    List.map_congr_left fun o ho => by rw [h1 o ho]]
  exact congrArg _ (List.map_congr_left fun o ho => by rw [h1 o ho])

/-- One trial of a battery: its cycles, and as many samples as it can give (R185 to R190). -/
theorem Feeds.trialSteps {s : State} {b : Battery} {sector : Sector} {g : Gen} {scr : U64}
    {f : Nat → Byte} (hh : s.host = []) (hs : s.seq.n + samplesPerTrial b ≤ 40960)
    (hg : SeedsTo s g scr) (hf : b.random = true → ∀ o < 4096, f o = streamByte g o) :
    ∃ (a : List Byte) (u : State), Feeds (trialSteps b sector) a s u ∧
      u.seq.n = s.seq.n + samplesPerTrial b ∧
      Worked b.random (trialCycles b sector f) b.drawsPerTrial s u ∧ u.settled := by
  have gated : ∀ {s : State} {v : Byte}, s.host = [] → s.seq.n + 4096 ≤ 40960 →
      (∀ (s : State) (o : Nat), s.targetByte b o = v) →
      ∃ (a : List Byte) (u : State), Feeds (gateSteps sector ++ [.programLoop b sector 0]) a s u ∧
        u.seq.n = s.seq.n + 4096 ∧
        Worked false (eraseCycles sector ++ programAllCycles sector fun _ => v) 0 s u ∧
        u.settled := by
    intro s v hh hs hv
    obtain ⟨t, ht, hts⟩ := Feeds.gate (sector := sector) hh
    have hn : t.seq.n = s.seq.n := hts.n
    obtain ⟨a, u, hu, hun, huw, hus⟩ := Feeds.programAll (b := b) (sector := sector)
      (f := fun _ => v) (hts.host.trans hh) (by omega) fun o _ => hv t o
    exact ⟨_, u, ht.append hu, by omega, (hts.worked false).trans huw, hus⟩
  cases b with
  | eraseAfterFF =>
    obtain ⟨u, hu, hn, hw, hset⟩ := Feeds.eraseSample (sector := sector) hh
      (by simp only [samplesPerTrial] at hs; omega)
    exact ⟨_, u, hu, hn, hw, hset⟩
  | eraseAfter00 =>
    obtain ⟨t, ht, hts⟩ := Feeds.zero (sector := sector) hh
    rw [passTrace_eq] at hts
    have hn := hts.n
    obtain ⟨u, hu, hun, hw, hset⟩ := Feeds.eraseSample (s := t) (sector := sector)
      (hts.host.trans hh) (by simp only [samplesPerTrial] at hs; omega)
    have h := ht.append hu
    rw [← List.append_assoc] at h
    exact ⟨_, u, h, by simp only [samplesPerTrial]; omega, (hts.worked _).trans hw, hset⟩
  | eraseAfterRandom =>
    obtain ⟨t, v, -, hv, ht, -, hvs⟩ := Feeds.randomize (sector := sector) hh hg
    obtain ⟨hq, hw1⟩ := drew_worked hg ht
    have he := passCycles_congr sector fun o ho => (hf rfl o ho).symm
    rw [passTrace_eq, he] at hvs
    have hn : v.seq.n = s.seq.n := by exact hvs.n.trans hq
    obtain ⟨u, hu, hun, hw, hset⟩ := Feeds.eraseSample (s := v) (sector := sector)
      (hvs.host.trans (hw1.host.trans hh)) (by simp only [samplesPerTrial] at hs; omega)
    have h := hv.append hu
    rw [← List.append_assoc] at h
    refine ⟨_, u, h, by simp only [samplesPerTrial]; omega,
      ((hw1.trans (hvs.worked _)).trans (hw.weaken true)).cast ?_ ?_, hset⟩
    · rw [List.nil_append]
      rfl
    · rw [Battery.drawsPerTrial]
      rfl
  | programFF => exact gated hh hs fun _ _ => rfl
  | program00 => exact gated hh hs fun _ _ => rfl
  | programRandom =>
    obtain ⟨t, ht, hts⟩ := Feeds.gate (sector := sector) hh
    have hn : t.seq.n = s.seq.n := hts.n
    have htg : SeedsTo t g scr := (hts.worked false).stream _ _ hg
    obtain ⟨v, hv, hvd, hvp⟩ := Feeds.drawPbuf (hts.host.trans hh) htg
    obtain ⟨hvq, hvw⟩ := drew_worked htg hvd
    have hq : v.seq.n = t.seq.n := hvq
    simp only [samplesPerTrial, Params.sectorSize] at hs
    obtain ⟨a, u, hu, hun, huw, hus⟩ := Feeds.programAll (b := .programRandom) (sector := sector)
      (f := f) (hvw.host.trans (hts.host.trans hh)) (by omega)
      fun o ho => (hvp o ho).trans (hf rfl o ho).symm
    refine ⟨_, u, ht.append (hv.cons hu), ?_,
      (((hts.worked true).trans hvw).trans (huw.weaken true)).cast ?_ rfl, hus⟩
    · simp only [samplesPerTrial, Params.sectorSize]
      omega
    · rw [List.append_nil]
      rfl

/-- The generator of a state after `k` draws, in the stream it came from. -/
theorem streamByte_advance (g : Gen) (k m : Nat) :
    streamByte (genAdvance^[k] g) m = streamByte g (k + m) := by
  unfold streamByte
  rw [Nat.add_comm, Function.iterate_add_apply]

/-- The trial loop with `k` trials left (R185 to R190). -/
theorem Feeds.trial {s : State} {b : Battery} {sector : Sector} {t k : Nat} {g : Gen} {scr : U64}
    {f : Nat → Byte} (hh : s.host = []) (hk : t + k = b.trials) (hset : 0 < k ∨ s.settled)
    (hs : s.seq.n + k * samplesPerTrial b ≤ 40960) (hg : SeedsTo s g scr)
    (hf : b.random = true → ∀ m, f (t * 4096 + m) = streamByte g m) :
    ∃ (a : List Byte) (u : State), Feeds [.trial b sector t] a s u ∧
      u.seq.n = s.seq.n + k * samplesPerTrial b ∧
      Worked b.random ((List.range' t k).flatMap fun t =>
        trialCycles b sector fun o => f (t * 4096 + o)) (k * b.drawsPerTrial) s u ∧ u.settled := by
  induction k generalizing s t g with
  | zero =>
    refine ⟨[], s.tick, Feeds.step hh fun c rest => ?_, by rw [State.tick_n]; omega,
      (Worked.refl _ s).tick.cast rfl (by omega), State.settled_tick.mpr (by simpa using hset)⟩
    show Host.Outcome.next (State.tick (State.runTrial _ _ _ _)) = _
    unfold State.runTrial
    rw [if_neg (by omega)]
  | succ k ih =>
    rw [Nat.succ_mul] at hs
    obtain ⟨a1, v, hv, hvn, hvw, hvs⟩ := Feeds.trialSteps (s := s.tick) (sector := sector)
      (f := fun o => f (t * 4096 + o)) (State.tick_idle hh)
      (show s.tick.seq.n + samplesPerTrial b ≤ 40960 by rw [State.tick_n]; omega)
      (hg.congr (by simp) (by simp) (by simp)) fun hr o _ => hf hr o
    rw [State.tick_n] at hvn
    replace hvw := hvw.after
    obtain ⟨a2, u, hu, hun, huw, hus⟩ := ih (s := v) (t := t + 1) (hvw.host.trans hh) (by omega)
      (.inr hvs) (by omega) (hvw.stream _ _ hg) fun hr m => by
        rw [streamByte_advance, ← hf hr, Battery.drawsPerTrial, if_pos hr]
        exact congrArg f (by rw [Nat.succ_mul t]; omega)
    refine ⟨_, u, Feeds.expand hh (fun c rest => ?_) (hv.append hu), ?_,
      (hvw.trans huw).cast rfl (by rw [Nat.succ_mul, Nat.add_comm]), hus⟩
    · show Host.Outcome.next (State.tick (State.runTrial _ _ _ _)) = _
      unfold State.runTrial
      rw [if_pos (by omega)]
      simp only [State.withTodo_push]
    · rw [Nat.succ_mul]; omega

/-! ## Sectors and batteries -/

theorem trials_samples (b : Battery) : b.trials * samplesPerTrial b = b.maxPossible := by
  cases b <;> rfl

theorem maxPossible_le (b : Battery) : b.maxPossible ≤ 40960 := by cases b <;> decide

/-- A sector body: its cycles and the greatest possible number of samples (R185 to R190). -/
theorem Feeds.sectorBody {s : State} {b : Battery} {sector : Sector} {g : Gen} {scr : U64}
    {f : Nat → Byte} (hh : s.host = []) (hg : SeedsTo s g scr)
    (hf : b.random = true → ∀ m, f m = streamByte g m) :
    ∃ (a : List Byte) (u : State), Feeds [.sectorBody b sector] a s u ∧
      u.seq.n = b.maxPossible ∧
      Worked b.random (bodyCycles b sector f) (10 * b.drawsPerTrial) s u ∧ u.settled ∧
      u.samplesTimed := by
  let s0 : State := { s with seq := { s.seq with n := 0 } }
  have t0 : s0.samplesTimed := fun i hi => absurd hi (Nat.not_lt_zero i)
  have w0 : Worked b.random [] 0 s s0 :=
    ⟨rfl, rfl, rfl, rfl, rfl, rfl, rfl, rfl, rfl, rfl, fun _ => ⟨rfl, rfl, rfl, rfl⟩,
      fun _ _ h => h, fun h => h.resolve_right (Nat.lt_irrefl 0), fun _ => t0⟩
  have hp : b.trials = 10 := by cases b <;> rfl
  have hm := trials_samples b
  rw [hp] at hm
  have hl := maxPossible_le b
  have trials : ∀ {s : State}, s.host = [] → s.seq.n = 0 → SeedsTo s g scr →
      ∃ (a : List Byte) (u : State), Feeds [.trial b sector 0] a s u ∧
        u.seq.n = b.maxPossible ∧
        Worked b.random ((List.range 10).flatMap fun t =>
          trialCycles b sector fun o => f (t * 4096 + o)) (10 * b.drawsPerTrial) s u ∧
        u.settled := by
    intro s hh hn hg
    obtain ⟨a, u, hu, hun, huw, hus⟩ := Feeds.trial (b := b) (sector := sector) (t := 0) (k := 10)
      (f := f) hh (by rw [hp]) (.inl (by decide)) (by rw [hn, hm, Nat.zero_add]; exact hl) hg
      fun hr m => by rw [Nat.zero_mul, Nat.zero_add]; exact hf hr m
    exact ⟨a, u, hu, by rw [hun, hn, hm, Nat.zero_add], huw, hus⟩
  by_cases hb : b = .eraseAfterFF
  · subst hb
    obtain ⟨t, ht, hts⟩ := Feeds.gate (s := s0.tick) (sector := sector) (State.tick_idle hh)
    replace hts := hts.after
    have w1 := hts.worked (Battery.random .eraseAfterFF)
    obtain ⟨a, u, hu, hun, huw, hus⟩ := trials (s := t) (hts.host.trans hh) hts.n
      (w1.stream _ _ hg)
    exact ⟨_, u, Feeds.expand (t := s0) hh (fun c rest => by rfl) (ht.append hu), hun,
      ((w0.trans w1).trans huw).cast rfl (by omega), hus, huw.timed (w1.timed t0)⟩
  · obtain ⟨a, u, hu, hun, huw, hus⟩ := trials (s := s0.tick) (State.tick_idle hh)
      (State.tick_n s0) (hg.congr (State.tick_scr s0) (State.tick_gen s0) (State.tick_genInit s0))
    replace huw := huw.after
    refine ⟨a, u, Feeds.expand (t := s0) hh (fun c rest => ?_) hu, hun,
      (w0.trans huw).cast ?_ (by omega), hus, huw.timed t0⟩
    · cases b <;> first | rfl | exact absurd rfl hb
    · unfold bodyCycles
      rw [if_neg hb]

/-- The bank switch, where the sector loop makes one (R183). -/
theorem Feeds.switchBank {s : State} {bank : BitVec 1} (hh : s.host = []) :
    ∃ u, Feeds (switchBankSteps bank) [] s u ∧
      Saw [.write 0x5555 0xAA, .write 0x2AAA 0x55, .write 0x5555 0xB0,
        .write 0x0000 (bank.setWidth 8)] s u := by
  refine ⟨s.sawAll _, ?_, Saw.trace s _⟩
  have hw : ∀ l, (s.sawAll l).host = [] := fun l => (State.sawAll_host s l).trans hh
  exact (Feeds.unlock hh).append ((Feeds.write (hw [.write 0x5555 0xAA, .write 0x2AAA 0x55])
    fun _ => rfl).cons (Feeds.write (hw [.write 0x5555 0xAA, .write 0x2AAA 0x55,
      .write 0x5555 0xB0]) fun _ => rfl))

/-- What SaveResults writes for a full set of samples: no failures. -/
theorem summarise_fail {l : List U32} (h : l ≠ []) : (summarise l l.length).fail = 0 := by
  cases l with
  | nil => exact absurd rfl h
  | cons x l => exact BitVec.sub_self _

theorem Measured.fail {r : Record} {n : Nat} (h : Measured r n) (hn : 0 < n) : r.fail = 0 := by
  obtain ⟨l, rfl, -, rfl⟩ := h
  exact summarise_fail fun he => by simp [he] at hn

/-- What the sector loop changes from sector `i` on: besides what `Worked` names, the records of those
sectors of the battery, each of them measured, with no failure. -/
structure SectorsDone (b : Battery) (i : Nat) (tr : List BusEvent) (k : Nat) (s u : State) : Prop where
  worked : ∀ r : List (Nat × Record),
    Worked b.random tr k { s with result := r } { u with result := r }
  settled : u.settled
  done : ∀ sector : Sector, i ≤ sector.toNat → Measured (u.resultRead b sector) b.maxPossible
  kept : ∀ sector : Sector, sector.toNat < i → u.resultRead b sector = s.resultRead b sector
  others : ∀ (b' : Battery) (sector : Sector), b' ≠ b →
    u.resultRead b' sector = s.resultRead b' sector

theorem resultIndex_inj {b b' : Battery} {sector sector' : Sector}
    (h : resultIndex b sector = resultIndex b' sector') : b = b' ∧ sector = sector' := by
  have h1 := sector.isLt
  have h2 := sector'.isLt
  have hb : b.index = b'.index ∧ sector.toNat = sector'.toNat := by
    simp only [resultIndex, Params.numSectors] at h
    omega
  refine ⟨?_, BitVec.eq_of_toNat_eq hb.2⟩
  have := hb.1
  revert this
  cases b <;> cases b' <;> simp [Battery.index]

theorem State.resultRead_write (s : State) (b b' : Battery) (sector sector' : Sector) (r : Record) :
    (s.resultWrite b sector r).resultRead b' sector' =
      if b = b' ∧ sector = sector' then r else s.resultRead b' sector' := by
  show (storeRead (storeWrite s.result _ r) _).getD _ = _
  rw [storeRead_write]
  by_cases h : b = b' ∧ sector = sector'
  · obtain ⟨rfl, rfl⟩ := h
    rw [if_pos rfl, if_pos ⟨rfl, rfl⟩]
    rfl
  · rw [if_neg h, if_neg fun hi => h (resultIndex_inj hi)]
    rfl

theorem Worked.resultRead {r : Bool} {tr : List BusEvent} {k : Nat} {s u : State}
    (h : Worked r tr k s u) (b : Battery) (sector : Sector) :
    u.resultRead b sector = s.resultRead b sector := by
  simp only [State.resultRead, h.result, h.epoch]

theorem Worked.withResult {r : Bool} {tr : List BusEvent} {k : Nat} {s u : State}
    (h : Worked r tr k s u) (l : List (Nat × Record)) :
    Worked r tr k { s with result := l } { u with result := l } :=
  ⟨h.flashId, rfl, h.opsel, h.arg0, h.arg1, h.arg2, h.res, h.host, h.epoch, h.bus, h.prng, h.stream,
    h.drawn, h.timed⟩

theorem State.tick_withResult (s : State) (l : List (Nat × Record)) :
    ({ s with result := l } : State).tick = { s.tick with result := l } := by
  unfold State.tick State.advanceCounters
  by_cases h : s.tloEn = true <;> simp [h, State.drawn]

theorem Worked.tickResult {r : Bool} {tr : List BusEvent} {k : Nat} {s u : State}
    {l : List (Nat × Record)} (h : Worked r tr k s { u with result := l }) :
    Worked r tr k s { u.tick with result := l } := by
  rw [← State.tick_withResult]
  exact h.tick

theorem State.tick_resultRead (s : State) (b : Battery) (sector : Sector) :
    s.tick.resultRead b sector = s.resultRead b sector := (Worked.refl true s).tick.resultRead b sector

/-- The sector loop with `k` sectors left (R181, R183). -/
theorem Feeds.sectorLoop {s : State} {b : Battery} {i k : Nat} {g : Gen} {scr : U64}
    {f : Nat → Byte} (hh : s.host = []) (hk : i + k = 32) (hset : 0 < k ∨ s.settled)
    (hg : SeedsTo s g scr) (hf : b.random = true → ∀ m, f (i * 40960 + m) = streamByte g m) :
    ∃ (a : List Byte) (u : State), Feeds [.sectorLoop b i] a s u ∧
      SectorsDone b i ((List.range' i k).flatMap (sectorCycles b f)) (k * (10 * b.drawsPerTrial))
        s u := by
  induction k generalizing s i g with
  | zero =>
    refine ⟨[], s.tick, Feeds.step hh fun c rest => ?_, ?_⟩
    · show Host.Outcome.next (State.tick (State.runSectorLoop _ _ _)) = _
      unfold State.runSectorLoop
      rw [if_neg (show ¬ i < Params.numSectors by simp only [Params.numSectors]; omega)]
    · exact ⟨fun r => (Worked.refl _ { s with result := r }).tickResult.cast rfl (by omega),
        State.settled_tick.mpr (by simpa using hset),
        fun sector h => by have := sector.isLt; omega, fun sector _ => s.tick_resultRead b sector,
        fun b' sector _ => s.tick_resultRead b' sector⟩
  | succ k ih =>
    let sector : Sector := BitVec.ofNat 5 i
    have hsec : sector.toNat = i := by
      show (BitVec.ofNat 5 i).toNat = i
      rw [BitVec.toNat_ofNat]; exact Nat.mod_eq_of_lt (by omega)
    have hsw : ∃ t : State,
        Feeds (if i % Params.sectorsPerBank = 0 then
          switchBankSteps (BitVec.ofNat 1 (i / Params.sectorsPerBank)) else []) [] s.tick t ∧
        Saw (if i = 0 ∨ i = 16 then
          [.write 0x5555 0xAA, .write 0x2AAA 0x55, .write 0x5555 0xB0,
            .write 0x0000 (if i = 0 then 0 else 1)] else []) s.tick t := by
      by_cases h0 : i = 0 ∨ i = 16
      · rw [if_pos h0, if_pos (show i % Params.sectorsPerBank = 0 by
          simp only [Params.sectorsPerBank]; omega)]
        obtain ⟨t, ht, hs⟩ := Feeds.switchBank (s := s.tick)
          (bank := BitVec.ofNat 1 (i / Params.sectorsPerBank)) (State.tick_idle hh)
        refine ⟨t, ht, ?_⟩
        rcases h0 with rfl | rfl <;> exact hs
      · rw [if_neg h0, if_neg (show ¬ i % Params.sectorsPerBank = 0 by
          simp only [Params.sectorsPerBank]; omega)]
        exact ⟨s.tick, Feeds.nil _, Saw.refl _⟩
    obtain ⟨t, ht, hts⟩ := hsw
    replace hts := hts.after
    have htw := hts.worked b.random
    obtain ⟨a1, v, hv, hvn, hvw, hvs, hvt⟩ := Feeds.sectorBody (b := b) (sector := sector)
      (f := fun m => f (i * 40960 + m)) (hts.host.trans hh) (htw.stream _ _ hg) hf
    let w := (v.saveResults b sector v.seq.n b.maxPossible).tick
    have hvh : v.host = [] := hvw.host.trans (hts.host.trans hh)
    have hw : Feeds [.saveSector b sector] [] v w := Feeds.step hvh fun c rest => rfl
    have hsv := htw.trans hvw
    have hwg : SeedsTo w (genAdvance^[10 * b.drawsPerTrial] g) scr := by
      have h := hsv.stream _ _ hg
      rw [Nat.zero_add] at h
      exact h.congr (State.tick_scr _) (State.tick_gen _) (State.tick_genInit _)
    obtain ⟨a2, u, hu, hud⟩ := ih (s := w) (i := i + 1) (State.tick_idle hvh) (by omega)
      (.inr (State.settled_tick.mpr hvs)) hwg fun hr m => by
      rw [streamByte_advance, ← hf hr, Battery.drawsPerTrial, if_pos hr]
      exact congrArg f (by rw [Nat.succ_mul i]; omega)
    have hrec : Measured (w.resultRead b sector) b.maxPossible := by
      show Measured ((v.resultWrite b sector _).tick.resultRead b sector) _
      rw [State.tick_resultRead, State.resultRead_write, if_pos ⟨rfl, rfl⟩]
      refine ⟨v.samples v.seq.n, by simp [State.samples, hvn], fun x hx => ?_, rfl⟩
      obtain ⟨j, hj, rfl⟩ := List.mem_map.mp hx
      exact hvt j (List.mem_range.mp hj)
    have hkeep : ∀ (b' : Battery) (sector' : Sector), ¬ (b = b' ∧ sector = sector') →
        w.resultRead b' sector' = s.resultRead b' sector' := by
      intro b' sector' hne
      rw [← hsv.resultRead b' sector']
      show (v.resultWrite b sector _).tick.resultRead b' sector' = _
      rw [State.tick_resultRead, State.resultRead_write, if_neg hne]
    refine ⟨_, u, Feeds.expand hh (fun c rest => ?_) (ht.append (hv.cons (hw.cons hu))), ?_⟩
    · show Host.Outcome.next (State.tick (State.runSectorLoop _ _ _)) = _
      unfold State.runSectorLoop
      rw [if_pos (show i < Params.numSectors by simp only [Params.numSectors]; omega)]
      rfl
    · refine ⟨fun r => ((Worked.tickResult (u := v.saveResults b sector v.seq.n b.maxPossible)
          (hsv.withResult r)).trans (hud.worked r)).cast ?_ ?_, hud.settled,
        fun sector' h => ?_, fun sector' h => ?_, fun b' sector' h => ?_⟩
      · rfl
      · rw [Nat.succ_mul k]; omega
      · by_cases he : sector' = sector
        · rw [he, hud.kept sector (by omega)]
          exact hrec
        · refine hud.done sector' ?_
          have : sector'.toNat ≠ sector.toNat := fun h => he (BitVec.eq_of_toNat_eq h)
          omega
      · rw [hud.kept sector' (by omega)]
        refine hkeep b sector' fun hx => ?_
        rw [← hx.2] at h
        omega
      · rw [hud.others b' sector' h]
        exact hkeep b' sector' fun hx => h hx.1.symm

/-- A whole battery (R181). -/
theorem Feeds.battery {s : State} {b : Battery} {g : Gen} {scr : U64} {f : Nat → Byte}
    (hh : s.host = []) (hg : SeedsTo s g scr) (hf : b.random = true → ∀ m, f m = streamByte g m) :
    ∃ (a : List Byte) (u : State), Feeds (batterySteps b) a s u ∧
      SectorsDone b 0 (batteryCycles b f) (320 * b.drawsPerTrial) s u := by
  obtain ⟨a, u, hu, hd⟩ := Feeds.sectorLoop (b := b) (i := 0) (k := 32) (f := f) hh rfl
    (.inl (by decide)) hg fun hr m => by rw [Nat.zero_mul, Nat.zero_add]; exact hf hr m
  exact ⟨a, u, hu, fun r => (hd.worked r).cast rfl (by omega), hd.settled, hd.done, hd.kept,
    hd.others⟩

/-- What the chip sees of a list of batteries; `f` is the random byte at a position of the stream. -/
def batteriesCycles (f : Nat → Byte) : List Battery → List BusEvent
  | [] => []
  | b :: l => batteryCycles b f ++ batteriesCycles (fun m => f (320 * b.drawsPerTrial + m)) l

/-- How many bytes of the stream a list of batteries draws. -/
def batteriesDraws : List Battery → Nat
  | [] => 0
  | b :: l => 320 * b.drawsPerTrial + batteriesDraws l

/-- A battery that draws nothing does the same whatever the stream. -/
theorem batteryCycles_congr {b : Battery} (h : b.random = false) (f f' : Nat → Byte) :
    batteryCycles b f = batteryCycles b f' := by
  unfold batteryCycles sectorCycles bodyCycles
  cases b <;> first | exact absurd h (by decide) | simp only [trialCycles]

theorem batteriesCycles_all (f : Nat → Byte) : batteriesCycles f allBatteries = fullTestCycles f := by
  simp only [allBatteries, batteriesCycles, Battery.drawsPerTrial, Battery.random, reduceIte,
    fullTestCycles, List.append_assoc, List.append_nil, Bool.false_eq_true, Nat.mul_zero,
    Nat.zero_add]
  rw [batteryCycles_congr (b := .programFF) rfl _ f, batteryCycles_congr (b := .program00) rfl _ f]

/-- The battery loop of RunFullTest (R191): the batteries of the list in order. -/
theorem Feeds.batteries {s : State} {l : List Battery} {g : Gen} {scr : U64} {f : Nat → Byte}
    (hl : l.Nodup) (hh : s.host = []) (hset : l ≠ [] ∨ s.settled) (hg : SeedsTo s g scr)
    (hf : ∀ m, f m = streamByte g m) :
    ∃ (a : List Byte) (u : State), Feeds [.batteries l] a s u ∧
      (∀ r : List (Nat × Record), Worked true (batteriesCycles f l) (batteriesDraws l)
        { s with result := r } { u with result := r }) ∧
      u.settled ∧
      (∀ b ∈ l, ∀ sector, Measured (u.resultRead b sector) b.maxPossible) ∧
      ∀ b, b ∉ l → ∀ sector, u.resultRead b sector = s.resultRead b sector := by
  induction l generalizing s g f with
  | nil =>
    exact ⟨[], s.tick, Feeds.step hh fun c rest => rfl,
      fun r => (Worked.refl _ { s with result := r }).tickResult,
      State.settled_tick.mpr (hset.resolve_left (· rfl)), fun _ h => absurd h List.not_mem_nil,
      fun b _ sector => s.tick_resultRead b sector⟩
  | cons b l ih =>
    obtain ⟨hb, hl⟩ := List.nodup_cons.mp hl
    have hg1 : SeedsTo s.tick g scr :=
      hg.congr (State.tick_scr s) (State.tick_gen s) (State.tick_genInit s)
    obtain ⟨a1, t, ht, htd⟩ := Feeds.battery (b := b) (State.tick_idle hh) hg1 fun _ => hf
    have htw := htd.worked s.result
    have htg : SeedsTo t (genAdvance^[320 * b.drawsPerTrial] g) scr :=
      (htw.stream g scr (hg1.congr rfl rfl rfl)).congr rfl rfl rfl
    obtain ⟨a2, u, hu, huw, hus, hud, huk⟩ := ih (s := t) hl (htw.host.trans (State.tick_idle hh)) (.inr htd.settled) htg
      fun m => (hf _).trans (streamByte_advance g _ m).symm
    refine ⟨_, u, Feeds.expand hh (fun c rest => rfl) (ht.append hu), fun r => ?_, hus, ?_, ?_⟩
    · have hw := htd.worked r
      rw [← State.tick_withResult] at hw
      exact Worked.trans { hw.after with prng := fun h => absurd h (by decide) } (huw r)
    · intro b' h sector
      rcases List.mem_cons.mp h with rfl | h
      · rw [huk _ hb sector]
        exact htd.done sector (Nat.zero_le _)
      · exact hud b' h sector
    · intro b' h sector
      rw [List.mem_cons, not_or] at h
      exact ((huk b' h.2 sector).trans (htd.others b' sector h.1)).trans (s.tick_resultRead b' sector)

end Sys2Proof.Machine
end

