-- ==== Sys2Proof/Laws/PerInstr.lean ====
section
/-! SUPPORT. One lemma per constructor of Instr: each is written down in exactly one of the two ways of
spec/30_encoding.md, as a request with an OPSEL of R92 or as a bus cycle with the fixed bits of its row
of R94. -/

namespace Sys2Proof.Laws.OneEncoding

/-- An instruction has a request or a bus row, not both; it has a 24-bit word exactly if it has a row,
and that word has the row's fixed bits whatever the chip answers. -/
def Statement (i : Instr) : Prop :=
  (encodeRequest i).isSome = i.busRow.isNone ∧
  (∀ answer : Byte, (encodeCycle answer i).isSome = i.busRow.isSome) ∧
  ∀ (answer : Byte) (row : BusRow) (w : BitVec 24), i.busRow = some row →
    encodeCycle answer i = some w → w &&& row.mask = row.bits

/-- An operation has no bus row, so nothing is to be shown of its word. -/
theorem of_operation {i : Instr} (h1 : (encodeRequest i).isSome = true) (h2 : i.busRow = none)
    (h3 : ∀ answer : Byte, encodeCycle answer i = none) : Statement i := by
  refine ⟨by simp [h1, h2], fun answer => by simp [h2, h3], fun answer row w h => ?_⟩
  simp [h2] at h

/-- A bus cycle has no request, and its word is the one to be looked at. -/
theorem of_cycle {i : Instr} {r : BusRow} (word : Byte → BitVec 24) (h1 : encodeRequest i = none)
    (h2 : i.busRow = some r) (h3 : ∀ answer : Byte, encodeCycle answer i = some (word answer))
    (h4 : ∀ answer : Byte, word answer &&& r.mask = r.bits) : Statement i := by
  refine ⟨by simp [h1, h2], fun answer => by simp [h2, h3], fun answer row w hr hw => ?_⟩
  rw [h2, Option.some.injEq] at hr
  rw [h3, Option.some.injEq] at hw
  rw [← hr, ← hw]
  exact h4 answer

theorem scramblerNext : Statement .scramblerNext := of_operation rfl rfl fun _ => rfl
theorem generatorNext : Statement .generatorNext := of_operation rfl rfl fun _ => rfl
theorem setupTimer : Statement .setupTimer := of_operation rfl rfl fun _ => rfl
theorem startTimer : Statement .startTimer := of_operation rfl rfl fun _ => rfl
theorem endTimer : Statement .endTimer := of_operation rfl rfl fun _ => rfl
theorem getTimerResult : Statement .getTimerResult := of_operation rfl rfl fun _ => rfl
theorem readFlashID : Statement .readFlashID := of_operation rfl rfl fun _ => rfl
theorem switchFlashBank (bank : BitVec 1) : Statement (.switchFlashBank bank) :=
  of_operation rfl rfl fun _ => rfl
theorem eraseSector (sector : Sector) : Statement (.eraseSector sector) :=
  of_operation rfl rfl fun _ => rfl
theorem eraseSectorTimed (sector : Sector) : Statement (.eraseSectorTimed sector) :=
  of_operation rfl rfl fun _ => rfl
theorem programByte (sector : Sector) (offset : Offset) (value : Byte) :
    Statement (.programByte sector offset value) := of_operation rfl rfl fun _ => rfl
theorem programByteTimed (sector : Sector) (offset : Offset) (value : Byte) :
    Statement (.programByteTimed sector offset value) := of_operation rfl rfl fun _ => rfl
theorem zeroSector (sector : Sector) : Statement (.zeroSector sector) :=
  of_operation rfl rfl fun _ => rfl
theorem randomizeSector (sector : Sector) : Statement (.randomizeSector sector) :=
  of_operation rfl rfl fun _ => rfl
theorem saveResults (battery : BitVec 3) (sector : Sector) (numSuccessful maxPossible : U16) :
    Statement (.saveResults battery sector numSuccessful maxPossible) :=
  of_operation rfl rfl fun _ => rfl
theorem runBattery (battery : BitVec 3) : Statement (.runBattery battery) :=
  of_operation rfl rfl fun _ => rfl
theorem runFullTest : Statement .runFullTest := of_operation rfl rfl fun _ => rfl

theorem unlock1 : Statement .unlock1 := of_cycle _ rfl rfl (fun _ => rfl) fun _ => rfl
theorem unlock2 : Statement .unlock2 := of_cycle _ rfl rfl (fun _ => rfl) fun _ => rfl
theorem cmdIdEntry : Statement .cmdIdEntry := of_cycle _ rfl rfl (fun _ => rfl) fun _ => rfl
theorem cmdIdExit : Statement .cmdIdExit := of_cycle _ rfl rfl (fun _ => rfl) fun _ => rfl
theorem cmdBank : Statement .cmdBank := of_cycle _ rfl rfl (fun _ => rfl) fun _ => rfl
theorem bankData (bank : BitVec 1) : Statement (.bankData bank) :=
  of_cycle (fun _ => (0x0000 : U16) ++ bank.setWidth 8) rfl rfl (fun _ => rfl)
    fun _ => by revert bank; decide
theorem cmdEraseSetup : Statement .cmdEraseSetup := of_cycle _ rfl rfl (fun _ => rfl) fun _ => rfl
theorem sectorErase (sec : BankSector) : Statement (.sectorErase sec) :=
  of_cycle (fun _ => sec ++ (0 : Offset) ++ (0x30 : Byte)) rfl rfl (fun _ => rfl)
    fun _ => by revert sec; decide
theorem cmdProgram : Statement .cmdProgram := of_cycle _ rfl rfl (fun _ => rfl) fun _ => rfl
theorem programData (sec : BankSector) (offset : Offset) (value : Byte) :
    Statement (.programData sec offset value) :=
  of_cycle (fun _ => sec ++ offset ++ value) rfl rfl (fun _ => rfl)
    fun _ => BitVec.and_zero
theorem abort : Statement .abort := of_cycle _ rfl rfl (fun _ => rfl) fun _ => rfl
theorem rdId0 : Statement .rdId0 :=
  of_cycle (fun answer => (0x0000 : U16) ++ answer) rfl rfl (fun _ => rfl) (by decide)
theorem rdId1 : Statement .rdId1 :=
  of_cycle (fun answer => (0x0001 : U16) ++ answer) rfl rfl (fun _ => rfl) (by decide)
theorem rdPoll (sec : BankSector) (offset : Offset) : Statement (.rdPoll sec offset) :=
  of_cycle (fun answer => sec ++ offset ++ answer) rfl rfl (fun _ => rfl) fun _ => BitVec.and_zero
theorem rdVerify (sec : BankSector) (offset : Offset) : Statement (.rdVerify sec offset) :=
  of_cycle (fun answer => sec ++ offset ++ answer) rfl rfl (fun _ => rfl) fun _ => BitVec.and_zero

end Sys2Proof.Laws.OneEncoding
end

