-- ==== Sys2Proof/Tests/Slice0.lean ====
section
/-! SUPPORT. The model's own tests. Expected values come from spec/95_test_vectors.md (the vector is
named in the comment) or from the tables of spec/30_encoding.md; then one witness for every obligation
that has hypotheses. -/

namespace Sys2Proof.Tests

open Sys2Proof Sys2Proof.Machine

/-! ## Helpers -/

/-- A state with every register known and nothing running. -/
def plain : State :=
  { scr := 0, gen := ⟨1, 2, 3, 4⟩, genInit := true, tloCnt := 0, thiCnt := 0, tloEn := false
    thiEn := false, thiCascade := false, tmrState := .idle, ime := true, flashId := 0, pbuf := []
    samp := [], result := [], opsel := 0, arg0 := 0, arg1 := 0, arg2 := 0, res := 0
    seq := Sequencer.empty, chip := .oracle [], bus := [], host := [], draws := 0, epoch := 0 }

/-- `plain` in the timer bracket. -/
def timing : State :=
  { plain with tloEn := true, thiEn := true, thiCascade := true, tmrState := .running, ime := false }

/-- What `f` sees of the next state. -/
def after {α : Type} (o : Host.Outcome State Fault Refusal) (f : State → α) : Option α :=
  match o with
  | .next t => some (f t)
  | .fault _ | .refused _ => none

/-- The refusal an outcome is. -/
def refusal (o : Host.Outcome State Fault Refusal) : Option Refusal :=
  match o with
  | .refused r => some r
  | .next _ | .fault _ => none

/-- The operation of a request, without the reason where there is none. -/
def op (opsel : Byte) (arg0 arg1 arg2 : U32) : Option Instr :=
  (decodeRequest ⟨opsel, arg0, arg1, arg2⟩).toOption

/-- The bus cycle of a word at its place. -/
def cyc (row : BusRow) (w : BitVec 24) : Option Instr := (decodeCycle row row.direction w).toOption

/-- Steps pending after an operation is issued in `plain`. -/
def todoOf (i : Instr) : Option (List Micro) := after (exec i plain) fun t => t.seq.todo

/-- `plain` with one step pending. -/
def pending (m : Micro) : State := plain.withTodo [m, .ret .none]

/-- The record SaveResults makes of samples, as four numbers. -/
def rec4 (samples : List U32) (maxPossible : Nat) : Nat × Nat × Nat × Nat :=
  let r := summarise samples maxPossible
  (r.min.toNat, r.max.toNat, r.mean.toNat, r.fail.toNat)

/-- The reference device of V-F1 to V-F9: BANK `bank`, array mode, the array given by what is listed. -/
def device (bank : BitVec 1) (arr : List Host.Cell) (script : List (Nat × Bool)) : Device :=
  { manuf := 0xC2, device := 0x09, script := script, ideal := true, quiet := true, arr := arr
    bank := bank, mode := .array, seq := .s0, op := none }

/-- The device after write cycles. -/
def writes (d : Device) (l : List (U16 × Byte)) : Device :=
  l.foldl (fun d w => (d.write w.1 w.2 0).1) d

/-- The bytes the device answers to `k` reads at one offset, and the device then. -/
def reads (off : U16) : Nat → Device → List Byte × Device
  | 0, d => ([], d)
  | k + 1, d =>
    let a := d.read off 0
    let r := reads off k a.chip
    (a.byte :: r.1, r.2)

/-! ## Well-formedness (R97, V-E2) -/

theorem test_wf_runBattery : (Instr.runBattery 5).wf = true ∧ (Instr.runBattery 6).wf = false ∧
    (Instr.runBattery 7).wf = false := by decide

theorem test_wf_saveResults_battery : (Instr.saveResults 6 0 0 0).wf = false ∧
    (Instr.saveResults 5 31 0 0).wf = true := by decide

theorem test_wf_saveResults_counts : (Instr.saveResults 0 0 3 2).wf = false ∧
    (Instr.saveResults 0 0 0 40961).wf = false ∧
    (Instr.saveResults 0 0 40960 40960).wf = true := by decide

/-! ## Decoding of requests (R92, V-E1) -/

theorem test_decode_scramblerNext : op 0b00010000 0 0 0 = some .scramblerNext := by decide
theorem test_decode_generatorNext : op 0b00010001 0 0 0 = some .generatorNext := by decide
theorem test_decode_setupTimer : op 0b00100000 0 0 0 = some .setupTimer := by decide
theorem test_decode_startTimer : op 0b00100001 0 0 0 = some .startTimer := by decide
theorem test_decode_endTimer : op 0b00100010 0 0 0 = some .endTimer := by decide
theorem test_decode_getTimerResult : op 0b00100011 0 0 0 = some .getTimerResult := by decide
theorem test_decode_readFlashID : op 0b00110000 0 0 0 = some .readFlashID := by decide
theorem test_decode_switchFlashBank : op 0b00110001 1 0 0 = some (.switchFlashBank 1) := by decide
theorem test_decode_eraseSector : op 0b00110010 31 0 0 = some (.eraseSector 31) := by decide
theorem test_decode_eraseSectorTimed : op 0b00110011 3 0 0 = some (.eraseSectorTimed 3) := by decide
theorem test_decode_programByte : op 0x34 17 0x123 0x5A = some (.programByte 17 0x123 0x5A) := by
  decide
theorem test_decode_programByteTimed :
    op 0x35 31 4095 255 = some (.programByteTimed 31 0xFFF 0xFF) := by decide
theorem test_decode_zeroSector : op 0b01000000 4 0 0 = some (.zeroSector 4) := by decide
theorem test_decode_randomizeSector : op 0b01000001 16 0 0 = some (.randomizeSector 16) := by decide
theorem test_decode_saveResults : op 0x50 0x45 2 3 = some (.saveResults 2 5 2 3) := by decide
theorem test_decode_runBattery : op 0x60 5 0 0 = some (.runBattery 5) := by decide
theorem test_decode_runFullTest : op 0b01100001 0 0 0 = some .runFullTest := by decide

/-- V-E2, the unassigned OPSEL values. -/
theorem test_decode_unassigned :
    [0x00, 0x12, 0x24, 0x36, 0x42, 0x51, 0x62, 0x70, 0xFF].all
      (fun o => decide (decodeRequest ⟨o, 0, 0, 0⟩ = .error (.unassignedOpsel o))) = true := by decide

/-- V-E2, the operands out of range. -/
theorem test_decode_out_of_range :
    decodeRequest ⟨0x31, 2, 0, 0⟩ = .error (.operandOutOfRange .bank) ∧
    decodeRequest ⟨0x32, 32, 0, 0⟩ = .error (.operandOutOfRange .sector) ∧
    decodeRequest ⟨0x34, 0, 4096, 0⟩ = .error (.operandOutOfRange .offset) ∧
    decodeRequest ⟨0x34, 0, 0, 256⟩ = .error (.operandOutOfRange .value) ∧
    decodeRequest ⟨0x60, 6, 0, 0⟩ = .error (.operandOutOfRange .battery) ∧
    decodeRequest ⟨0x50, 0xC0, 0, 0⟩ = .error (.operandOutOfRange .timing) ∧
    decodeRequest ⟨0x50, 0, 3, 2⟩ = .error (.operandOutOfRange .numSuccessful) ∧
    decodeRequest ⟨0x50, 0, 0, 40961⟩ = .error (.operandOutOfRange .maxPossible) ∧
    decodeRequest ⟨0x32, 0x00000100, 0, 0⟩ = .error (.operandOutOfRange .sector) := by decide

/-! ## Decoding of bus cycles (R94, V-E3) -/

theorem test_decode_unlock1 : cyc .unlock1 0b010101010101010110101010 = some .unlock1 := by decide
theorem test_decode_unlock2 : cyc .unlock2 0b001010101010101001010101 = some .unlock2 := by decide
theorem test_decode_cmdIdEntry : cyc .cmdIdEntry 0b010101010101010110010000 = some .cmdIdEntry := by
  decide
theorem test_decode_cmdIdExit : cyc .cmdIdExit 0b010101010101010111110000 = some .cmdIdExit := by
  decide
theorem test_decode_cmdBank : cyc .cmdBank 0b010101010101010110110000 = some .cmdBank := by decide
theorem test_decode_bankData : cyc .bankData 0b000000000000000000000001 = some (.bankData 1) ∧
    cyc .bankData 0b000000000000000000000010 = none := by decide
theorem test_decode_cmdEraseSetup :
    cyc .cmdEraseSetup 0b010101010101010110000000 = some .cmdEraseSetup := by decide
theorem test_decode_sectorErase :
    cyc .sectorErase 0b010100000000000000110000 = some (.sectorErase 5) := by decide
theorem test_decode_cmdProgram : cyc .cmdProgram 0b010101010101010110100000 = some .cmdProgram := by
  decide
theorem test_decode_programData :
    cyc .programData 0b111111111111111100000000 = some (.programData 15 0xFFF 0) := by decide
theorem test_decode_abort : cyc .abort 0b010101010101010111110000 = some .abort := by decide
theorem test_decode_rdId0 : cyc .rdId0 0b000000000000000011000010 = some .rdId0 := by decide
theorem test_decode_rdId1 : cyc .rdId1 0b000000000000000100001001 = some .rdId1 := by decide
theorem test_decode_rdPoll :
    cyc .rdPoll 0b000100010010001110000000 = some (.rdPoll 1 0x123) := by decide
theorem test_decode_rdVerify :
    cyc .rdVerify 0b010011111111111100000000 = some (.rdVerify 4 0xFFF) := by decide

/-- A write pattern in the read direction is no cycle. -/
theorem test_decode_direction :
    decodeCycle .unlock1 .read 0x5555AA = .error (.notThisCycle .unlock1) := by decide

/-! ## The host's reading of the table -/

theorem test_table_word_request : decodeTableWord 8 0x61 = some .runFullTest ∧
    decodeTableWord 104 0x000000030000000200000045050 = none ∧
    decodeTableWord 104 0x00000003000000020000004550 = some (.saveResults 2 5 2 3) := by decide

theorem test_table_word_cycle : decodeTableWord 24 0x5555AA = some .unlock1 ∧
    decodeTableWord 24 0xF00030 = some (.sectorErase 15) := by decide

/-- After reset the placed request is the first operation. -/
theorem test_fetch_request_after_reset :
    after (step (State.reset.withFetchWord 104 0x0000005A000001230000001134))
      (fun t => t.seq.todo.take 3) = some [.cycle .unlock1, .cycle .unlock2, .cycle .cmdProgram] := by
  decide

/-- After reset the placed cycle is the first one the chip sees. -/
theorem test_fetch_cycle_after_reset :
    after (step (State.reset.withFetchWord 24 0x5555AA)) (fun t => (t.bus, t.seq.todo)) =
      some ([.write 0x5555 0xAA], []) := by decide

/-! ## PRNG -/

/-- V-P1, the first call. -/
theorem test_scramblerNext_first :
    after (exec .scramblerNext plain) (fun t => (t.scr, t.res)) =
      some (0x9E3779B97F4A7C15, 0xE220A8397B1DCDAF) := by decide

/-- V-P4: the only state whose output is zero; SCR wraps to 0. -/
theorem test_scramblerNext_zero :
    after (exec .scramblerNext { plain with scr := 0x61C8864680B583EB }) (fun t => (t.scr, t.res)) =
      some (0, 0) := by decide

/-- V-P8, the first step. -/
theorem test_generatorNext_step :
    after (exec .generatorNext plain) (fun t => (t.res, t.gen)) =
      some (0x281, ⟨7, 0, 0x402, 0x3000⟩) := by decide

/-- V-P5: the first call seeds with four scrambler calls and returns. -/
theorem test_generatorNext_seeds :
    after (exec .generatorNext { plain with genInit := false })
      (fun t => (t.res, t.gen, t.scr, t.genInit)) =
      some (0x30459BA5, ⟨0xA8E829B7, 0x5AADED14, 0x89DF60E0, 0xAF20C69F⟩, 0x78DDE6E5FD29F054,
        true) := by decide

/-- V-P9: all ones. -/
theorem test_generator_all_ones :
    genOutput ⟨0xFFFFFFFF, 0xFFFFFFFF, 0xFFFFFFFF, 0xFFFFFFFF⟩ = 0xFFFFFF7E ∧
    genAdvance ⟨0xFFFFFFFF, 0xFFFFFFFF, 0xFFFFFFFF, 0xFFFFFFFF⟩ =
      ⟨0xFFFFFFFF, 0xFFFFFFFF, 0xFFFFFE00, 0⟩ := by decide

/-! ## TMR -/

/-- V-T1; from Running too (V-T5). -/
theorem test_setupTimer :
    after (exec .setupTimer { timing with tloCnt := 9, thiCnt := 9 })
      (fun t => (t.tloCnt, t.thiCnt, t.tmrState)) = some (0, 0, .armed) ∧
    after (exec .setupTimer { plain with tloEn := true })
      (fun t => (t.tloEn, t.thiEn, t.thiCascade, t.ime)) = some (false, true, true, false) := by decide

/-- V-T1: Armed to Running. -/
theorem test_startTimer_armed :
    after (exec .startTimer { timing with tloEn := false, tmrState := .armed })
      (fun t => (t.tloEn, t.tmrState, t.ime)) = some (true, .running, false) := by decide

/-- V-T5: Idle stays Idle, but the counter runs. -/
theorem test_startTimer_idle :
    after (exec .startTimer plain) (fun t => (t.tloEn, t.tmrState)) = some (true, .idle) := by decide

/-- V-T1: Running to Stopped; the Tick of EndTimer is not counted. -/
theorem test_endTimer_running :
    after (exec .endTimer { timing with tloCnt := 12 })
      (fun t => (t.tloEn, t.ime, t.tmrState, t.tloCnt)) = some (false, true, .stopped, 12) := by
  decide

/-- V-T5: from Stopped back to Idle. -/
theorem test_endTimer_stopped :
    after (exec .endTimer { plain with tmrState := .stopped, ime := false })
      (fun t => (t.tmrState, t.ime)) = some (.idle, true) := by decide

/-- V-T3. -/
theorem test_getTimerResult_composition :
    after (exec .getTimerResult { plain with thiCnt := 1, tloCnt := 0x1170, tmrState := .stopped })
      (fun t => t.res) = some 70000 ∧
    after (exec .getTimerResult
        { plain with thiCnt := 0xABCD, tloCnt := 1, tmrState := .stopped })
      (fun t => (t.res, t.tmrState)) = some (0xABCD0001, .stopped) := by decide

/-- V-T5: outside Stopped a draw, and the step's Tick (R15); the state stays Armed. -/
theorem test_getTimerResult_armed :
    after (exec .getTimerResult { timing with tloEn := false, tmrState := .armed })
      (fun t => (t.draws, t.tmrState)) = some (2, .armed) := by decide

/-- V-T2: a carry, a carry of three, and the wrap of the window; a held counter does not count. -/
theorem test_carry :
    (let t := State.advanceCounters { timing with tloCnt := 0xFFFE } 5
     (t.tloCnt, t.thiCnt) = (3, 1)) ∧
    (let t := State.advanceCounters { timing with tloCnt := 0xFFFE } 0x20005
     (t.tloCnt, t.thiCnt) = (3, 3)) ∧
    (let t := State.advanceCounters { timing with tloCnt := 0xFFFF, thiCnt := 0xFFFF } 1
     (t.tloCnt, t.thiCnt) = (0, 0)) ∧
    (let t := State.advanceCounters { timing with tloEn := false, tloCnt := 7 } 5
     (t.tloCnt, t.thiCnt) = (7, 0)) := by decide

/-! ## FCP: the steps of each operation, in the order of its rule -/

/-- R142, V-F1. -/
theorem test_readFlashID_steps : todoOf .readFlashID = some
    [.cycle .unlock1, .cycle .unlock2, .cycle .cmdIdEntry, .cycle .rdId0, .cycle .rdId1,
     .cycle .unlock1, .cycle .unlock2, .cycle .cmdIdExit, .latchId, .ret .flashId] := by decide

/-- V-F1: the device byte is the high one. -/
theorem test_readFlashID_latch :
    after (step (State.withTodo { plain with
        seq := { plain.seq with idManuf := 0xC2, idDevice := 0x09 } } [.latchId, .ret .flashId]))
      (fun t => t.flashId) = some 0x09C2 := by decide

/-- R143, V-F2. -/
theorem test_switchFlashBank_steps : todoOf (.switchFlashBank 1) = some
    [.cycle .unlock1, .cycle .unlock2, .cycle .cmdBank, .cycle (.bankData 1), .ret .none] := by decide

/-- R144: sector 21 is sector 5 of its bank. -/
theorem test_eraseSector_steps : todoOf (.eraseSector 21) = some
    [.cycle .unlock1, .cycle .unlock2, .cycle .cmdEraseSetup, .cycle .unlock1, .cycle .unlock2,
     .cycle (.sectorErase 5), .poll 5 0 0xFF, .abortOnFailure, .ret .ok] := by decide

/-- R145: StartTimer stands just before the one timed write, EndTimer before the abort. -/
theorem test_eraseSectorTimed_steps : todoOf (.eraseSectorTimed 3) = some
    [.setupTimer, .cycle .unlock1, .cycle .unlock2, .cycle .cmdEraseSetup, .cycle .unlock1,
     .cycle .unlock2, .startTimer, .cycle (.sectorErase 3), .poll 3 0 0xFF, .endTimer,
     .abortOnFailure, .ret .ok] := by decide

/-- R146, V-F3. -/
theorem test_programByte_steps : todoOf (.programByte 17 0x123 0x5A) = some
    [.cycle .unlock1, .cycle .unlock2, .cycle .cmdProgram, .cycle (.programData 1 0x123 0x5A),
     .poll 1 0x123 0x5A, .abortOnFailure, .ret .ok] := by decide

/-- R147. -/
theorem test_programByteTimed_steps : todoOf (.programByteTimed 0 2 0xF0) = some
    [.setupTimer, .cycle .unlock1, .cycle .unlock2, .cycle .cmdProgram, .startTimer,
     .cycle (.programData 0 2 0xF0), .poll 0 2 0xF0, .endTimer, .abortOnFailure, .ret .ok] := by decide

/-- V-F7: completion is tested first, so 0x20 completes although it has bit 5; V-F5: 0xA0 fails. -/
theorem test_poll_tests : pollStatus 0x20 0x20 = .completed ∧ pollStatus 0xFF 0xA0 = .failed ∧
    pollStatus 0xFF 0x00 = .pending := by decide

/-- A pending poll reads again (R141); one turn, read and tests, has one Tick (V-T4, R128). -/
theorem test_poll_again :
    after (step { pending (.poll 3 0 0xFF) with chip := .oracle [0x40] })
      (fun t => (t.bus, t.seq.todo, t.draws)) =
      some ([.read 0x3000 0x40], [.poll 3 0 0xFF, .ret .none], 1) := by decide

/-- An internal step ends in its Tick (R15): an operation's own step, a test and a pass's end. -/
theorem test_internal_steps_tick :
    after (exec .scramblerNext plain) (fun t => t.draws) = some 1 ∧
    after (exec (.saveResults 0 0 0 0) plain) (fun t => t.draws) = some 2 ∧
    [Micro.verifyTest .zero 0, .collect, .saveSector .programFF 0, .abortOnFailure].all (fun m =>
      after (step (pending m)) (fun t => t.draws) == some 1) = true := by decide

/-- A failed poll sends one abort; a completed one none (R144). -/
theorem test_abort_on_failure :
    after (step (pending .abortOnFailure)) (fun t => t.seq.todo) =
      some [.cycle .abort, .ret .none] ∧
    after (step (State.setOk (pending .abortOnFailure) true)) (fun t => t.seq.todo) =
      some [.ret .none] := by decide

/-! ## COND -/

/-- R160. -/
theorem test_zeroSector_steps :
    todoOf (.zeroSector 4) = some [.fill .zero 4 0, .ret .none] := by decide

/-- R160, V-C1: the first byte of a pass is programmed with 0x00 at offset 0x4000, with its retry. -/
theorem test_zeroSector_first_byte :
    after (step (pending (.fill .zero 4 0))) (fun t => t.seq.todo) = some
      [.cycle .unlock1, .cycle .unlock2, .cycle .cmdProgram, .cycle (.programData 4 0 0x00),
       .poll 4 0 0x00, .abortOnFailure, .retryProgram 4 0 0x00,
       .fill .zero 4 1, .ret .none] := by decide

/-- R162: the draws come before the pass. -/
theorem test_randomizeSector_steps :
    todoOf (.randomizeSector 16) = some [.drawPbuf 0, .fill .random 16 0, .ret .none] := by decide

/-- V-P5, V-C2: the first drawn byte with SCR = 0 and an unseeded generator is A5. -/
theorem test_randomizeSector_first_byte :
    after (step { pending (.drawPbuf 0) with genInit := false }) (fun t => (t.pbuf, t.seq.todo)) =
      some ([(0, 0xA5)], [.drawPbuf 1, .ret .none]) := by decide

/-- V-C3: after a readback that was not clean the pass repeats, without a new draw. -/
theorem test_pass_repeats :
    after (step (pending (.verify .zero 4 4096))) (fun t => t.seq.todo) =
      some [.fill .zero 4 0, .ret .none] ∧
    after (step (State.withTodo { plain with seq := { plain.seq with matched := 4095 } }
      [.verify .random 4 4096, .ret .none])) (fun t => t.seq.todo) =
      some [.fill .random 4 0, .ret .none] := by decide

/-! ## STAT: V-S1 to V-S23 -/

theorem test_samples_s1_to_s7 :
    rec4 [100, 200, 300] 3 = (100, 300, 200, 0) ∧ rec4 [10, 11] 3 = (10, 11, 11, 1) ∧
    rec4 [] 10 = (0, 0, 0, 10) ∧ rec4 [7] 10 = (7, 7, 7, 9) ∧ rec4 [1, 2] 2 = (1, 2, 2, 0) ∧
    rec4 [1, 1, 2] 3 = (1, 2, 1, 0) ∧ rec4 [1, 2, 2] 3 = (1, 2, 2, 0) := by decide

theorem test_samples_s9_to_s17 :
    rec4 [0xFFFFFFFF, 0xFFFFFFFF] 2 = (0xFFFFFFFF, 0xFFFFFFFF, 0xFFFFFFFF, 0) ∧
    rec4 [0xFFFFFFFF, 0xFFFFFFFE] 2 = (0xFFFFFFFE, 0xFFFFFFFF, 0xFFFFFFFF, 0) ∧
    rec4 [3, 4, 4, 4, 4, 4, 4] 10 = (3, 4, 4, 3) ∧
    rec4 [1, 2, 3, 4, 5, 6, 7, 8, 9, 10] 10 = (1, 10, 6, 0) ∧
    rec4 [0, 0, 0, 1, 1, 1] 6 = (0, 1, 1, 0) ∧
    rec4 [0x80000000, 0x80000000] 2 = (0x80000000, 0x80000000, 0x80000000, 0) := by decide

/-- V-S23: entries at or above `n` are not read. -/
theorem test_saveResults_stale :
    after (exec (.saveResults 1 7 1 3) { plain with samp := [(0, 5), (1, 1000), (2, 1000)] })
      (fun t => t.result) = some [(39, ⟨5, 5, 5, 2⟩)] := by decide

/-- V-S22: no sample, no attempt. -/
theorem test_saveResults_none :
    after (exec (.saveResults 0 0 0 0) plain) (fun t => t.result) = some [(0, ⟨0, 0, 0, 0⟩)] := by
  decide

/-! ## ORCH -/

/-- R181. -/
theorem test_runBattery_steps :
    todoOf (.runBattery 3) = some [.sectorLoop .programFF 0, .ret .none] := by decide

/-- R185 and R188: what one trial of battery 1 and of battery 4 consists of, at its ends. -/
theorem test_trial_steps :
    (trialSteps .eraseAfterFF 0).getLast? = some .collect ∧
    (trialSteps .programFF 0).getLast? = some (.programLoop .programFF 0 0) ∧
    trialSteps .programRandom 0 =
      gateSteps 0 ++ [.drawPbuf 0, .programLoop .programRandom 0 0] ∧
    Battery.maxPossible .eraseAfterRandom = 10 ∧ Battery.maxPossible .programFF = 40960 := by decide

/-- R191: the six batteries in order, RESULT cleared first. -/
theorem test_runFullTest_steps :
    todoOf .runFullTest = some
      [.batteries [.eraseAfterFF, .eraseAfter00, .eraseAfterRandom, .programFF, .program00,
        .programRandom], .ret .none] ∧
    after (exec .runFullTest { plain with result := [(5, ⟨1, 1, 1, 1⟩)] }) (fun t => t.result[5]?) =
      some (some (5, ⟨0, 0, 0, 0⟩)) := by decide

/-- R182: a failed timed primitive appends nothing. -/
theorem test_collect :
    after (step (pending .collect)) (fun t => (t.samp, t.seq.n)) = some ([], 0) ∧
    after (step (State.setOk { pending .collect with tmrState := .stopped, tloCnt := 2 } true))
      (fun t => (t.samp, t.seq.n)) = some ([(0, 2)], 1) := by decide

/-! ## Bus cycles: what the chip sees -/

/-- The one event a write row adds. -/
def seen (i : Instr) : Option (List BusEvent) := after (exec i plain) fun t => t.bus

theorem test_bus_unlock : seen .unlock1 = some [.write 0x5555 0xAA] ∧
    seen .unlock2 = some [.write 0x2AAA 0x55] := by decide

theorem test_bus_commands : seen .cmdIdEntry = some [.write 0x5555 0x90] ∧
    seen .cmdIdExit = some [.write 0x5555 0xF0] ∧ seen .cmdBank = some [.write 0x5555 0xB0] ∧
    seen .cmdEraseSetup = some [.write 0x5555 0x80] ∧ seen .cmdProgram = some [.write 0x5555 0xA0] ∧
    seen .abort = some [.write 0x5555 0xF0] := by decide

/-- V-E3. -/
theorem test_bus_addressed : seen (.bankData 1) = some [.write 0x0000 0x01] ∧
    seen (.sectorErase (sectorInBank 21)) = some [.write 0x5000 0x30] ∧
    seen (.programData (sectorInBank 31) 0xFFF 0x00) = some [.write 0xFFFF 0x00] := by decide

/-- V-F1: the two ID reads, and where their bytes go. -/
theorem test_bus_id_reads :
    after (exec .rdId0 { plain with chip := .oracle [0xC2] }) (fun t => (t.bus, t.seq.idManuf)) =
      some ([.read 0x0000 0xC2], 0xC2) ∧
    after (exec .rdId1 { plain with chip := .oracle [0x09] }) (fun t => (t.bus, t.seq.idDevice)) =
      some ([.read 0x0001 0x09], 0x09) := by decide

theorem test_bus_data_reads :
    after (exec (.rdPoll 1 0x123) { plain with chip := .oracle [0x80] })
      (fun t => (t.bus, t.seq.last)) = some ([.read 0x1123 0x80], 0x80) ∧
    after (exec (.rdVerify 4 0xFFF) { plain with chip := .oracle [0x00] })
      (fun t => (t.bus, t.seq.last)) = some ([.read 0x4FFF 0x00], 0x00) := by decide

/-- V-E3: SectorBase. -/
theorem test_sectorBase : (sectorBase 0, sectorBase 1, sectorBase 15) = (0x0000, 0x1000, 0xF000) ∧
    (sectorBase 16, sectorBase 17, sectorBase 31) = (0x0000, 0x1000, 0xF000) := by decide

/-! ## The reference device -/

/-- The writes of a program and of an erase. -/
def programWrites (off : U16) (v : Byte) : List (U16 × Byte) :=
  [(0x5555, 0xAA), (0x2AAA, 0x55), (0x5555, 0xA0), (off, v)]

def eraseWrites (off : U16) : List (U16 × Byte) :=
  [(0x5555, 0xAA), (0x2AAA, 0x55), (0x5555, 0x80), (0x5555, 0xAA), (0x2AAA, 0x55), (off, 0x30)]

/-- V-F3: C0, 80, then the byte, in bank 1 only. -/
theorem test_device_program :
    (reads 0x1123 3 (writes (device 1 [] [(2, false)]) (programWrites 0x1123 0x5A))).1 =
      [0xC0, 0x80, 0x5A] ∧
    (reads 0x1123 3 (writes (device 1 [] [(2, false)]) (programWrites 0x1123 0x5A))).2.arr =
      [(0x11123, 0x5A)] := by decide

/-- V-F5: a program that would set bits fails; the array keeps its byte. -/
theorem test_device_program_failure :
    (reads 0x0010 2 (writes (device 0 [(0x10, 0x00)] [(1, false)])
      (programWrites 0x0010 0xFF))).1 = [0xC0, 0xA0] ∧
    (reads 0x0010 2 (writes (device 0 [(0x10, 0x00)] [(1, false)])
      (programWrites 0x0010 0xFF))).2.arr = [(0x10, 0x00)] := by decide

/-- V-F4: an erase with BusyLen 3. -/
theorem test_device_erase :
    (reads 0x3000 4 (writes (device 0 [(0x3000, 0x00)] [(3, false)]) (eraseWrites 0x3000))).1 =
      [0x40, 0x00, 0x40, 0xFF] ∧
    (reads 0x3000 4 (writes (device 0 [(0x3000, 0x00)] [(3, false)]) (eraseWrites 0x3000))).2.arr =
      [] := by decide

/-- V-F6: an erase that fails; the abort ends it. -/
theorem test_device_erase_failure :
    (reads 0x5000 3 (writes (device 0 [] [(2, true)]) (eraseWrites 0x5000))).1 =
      [0x40, 0x00, 0x60] ∧
    (writes (reads 0x5000 3 (writes (device 0 [] [(2, true)]) (eraseWrites 0x5000))).2
      [(0x5555, 0xF0)]).op = none := by decide

/-- V-F1, V-F2. -/
theorem test_device_id_and_bank :
    (reads 0x0001 1 (writes (device 0 [(0, 0x11), (1, 0x22)] [])
      [(0x5555, 0xAA), (0x2AAA, 0x55), (0x5555, 0x90)])).1 = [0x09] ∧
    (writes (device 0 [] [])
      [(0x5555, 0xAA), (0x2AAA, 0x55), (0x5555, 0xB0), (0x0000, 0x01)]).bank = 1 := by decide

/-- R61: a device left in ID mode, in bank 1, in the middle of a program, is reset; its array is not. -/
theorem test_device_reset :
    ({ device 1 [(7, 0x12)] [] with
        mode := .id, seq := .sPgm, op := some ⟨.program, 1, 7, 0x12, 3, false, true⟩ } : Device).reset =
      device 0 [(7, 0x12)] [] := by decide

/-! ## Witnesses: for every obligation with hypotheses, a case that meets all of them -/

/-- `plain` with one move of the host to come. -/
def moved (m : HostMove) : State := { plain with host := [m] }

/-- `plain` fed by the oracle. -/
def fed (answers : List Byte) : State := { plain with chip := .oracle answers }

theorem test_plain_idle (c : Chip) : Idle { plain with chip := c } := ⟨rfl, rfl⟩

theorem test_witness_DecodeOfEncodedRequest :
    (Instr.saveResults 5 31 40960 40960).wf = true ∧
    encodeRequest (.saveResults 5 31 40960 40960) = some ⟨0x50, 0xBF, 40960, 40960⟩ ∧
    (Instr.programByte 31 4095 255).wf = true ∧
    encodeRequest (.programByte 31 4095 255) = some ⟨0x34, 31, 4095, 255⟩ := by decide

theorem test_witness_DecodeOfEncodedCycle :
    (Instr.programData 15 4095 255).busRow = some .programData ∧
    encodeCycle 0 (.programData 15 4095 255) = some 0xFFFFFF ∧
    (Instr.rdId1).busRow = some .rdId1 ∧ encodeCycle 0x09 .rdId1 = some 0x000109 := by decide

theorem test_witness_DecodedRequestIsWellFormedOperation :
    decodeRequest ⟨0x60, 5, 7, 9⟩ = .ok (.runBattery 5) := by decide

theorem test_witness_UnassignedOpselIsRefused :
    (moved (.issue ⟨0x99, 0, 0, 0⟩)).seq.todo = [] ∧
    (moved (.issue ⟨0x99, 0, 0, 0⟩)).host = .issue ⟨0x99, 0, 0, 0⟩ :: [] ∧
    (0x99 : Byte) ∉ assignedOpsels := by decide

theorem test_witness_OperandOutOfRange_state (r : Request) :
    (moved (.issue r)).seq.todo = [] ∧ (moved (.issue r)).host = .issue r :: [] := ⟨rfl, rfl⟩

/-- One case of each clause of the ranges, just outside. -/
theorem test_witness_OperandOutOfRange_outside :
    Request.outOfRange ⟨0x31, 2, 0, 0⟩ ∧ Request.outOfRange ⟨0x41, 32, 0, 0⟩ ∧
    Request.outOfRange ⟨0x34, 32, 0, 0⟩ ∧ Request.outOfRange ⟨0x35, 0, 4096, 0⟩ ∧
    Request.outOfRange ⟨0x34, 0, 0, 256⟩ ∧ Request.outOfRange ⟨0x60, 6, 0, 0⟩ ∧
    Request.outOfRange ⟨0x50, 192, 0, 0⟩ ∧ Request.outOfRange ⟨0x50, 0, 3, 2⟩ ∧
    Request.outOfRange ⟨0x50, 0, 0, 40961⟩ := by
  refine ⟨?_, ?_, ?_, ?_, ?_, ?_, ?_, ?_, ?_⟩ <;> unfold Request.outOfRange <;> decide

/-- And just inside. -/
theorem test_witness_OperandOutOfRange_inside :
    ¬ Request.outOfRange ⟨0x31, 1, 0, 0⟩ ∧ ¬ Request.outOfRange ⟨0x41, 31, 0, 0⟩ ∧
    ¬ Request.outOfRange ⟨0x34, 31, 4095, 255⟩ ∧ ¬ Request.outOfRange ⟨0x60, 5, 0, 0⟩ ∧
    ¬ Request.outOfRange ⟨0x50, 191, 40960, 40960⟩ := by
  refine ⟨?_, ?_, ?_, ?_, ?_⟩ <;> unfold Request.outOfRange <;> decide

theorem test_witness_StepRunsDecodedInstruction :
    ((moved (.issue ⟨0x22, 0, 0, 0⟩)).seq.todo = [] ∧
      (moved (.issue ⟨0x22, 0, 0, 0⟩)).host = .issue ⟨0x22, 0, 0, 0⟩ :: [] ∧
      decodeRequest ⟨0x22, 0, 0, 0⟩ = .ok .endTimer) ∧
    ((pending (.cycle (.rdPoll 3 0))).host = [] ∧
      (pending (.cycle (.rdPoll 3 0))).seq.todo = .cycle (.rdPoll 3 0) :: [.ret .none]) ∧
    (pending (.poll 15 0xFFF 0)).host = [] ∧
      (pending (.poll 15 0xFFF 0)).seq.todo = .poll 15 0xFFF 0 :: [.ret .none] := by decide

theorem test_witness_GeneratorNextResult : plain.genInit = true := rfl

theorem test_witness_GeneratorNextSeedsAndReturns :
    Idle { plain with genInit := false } ∧ ({ plain with genInit := false } : State).genInit = false :=
  ⟨⟨rfl, rfl⟩, rfl⟩

theorem test_witness_GetTimerResultValue :
    ({ plain with tmrState := .stopped } : State).tmrState = .stopped ∧
    plain.tmrState ≠ .stopped := by decide

theorem test_witness_TicksAdvanceCounters :
    (timing.tloEn = true ∧ timing.thiEn = true ∧ timing.thiCascade = true) ∧
    (({ plain with tloEn := true, thiEn := true } : State).tloEn = true ∧
      (true && ({ plain with tloEn := true, thiEn := true } : State).thiCascade) = false) ∧
    plain.tloEn = false := by decide

theorem test_witness_ReadFlashIDCompletes :
    Idle (fed [0xC2, 0x09]) ∧ (fed [0xC2, 0x09]).chip = .oracle (0xC2 :: 0x09 :: []) :=
  ⟨⟨rfl, rfl⟩, rfl⟩

theorem test_witness_SwitchFlashBankCompletes : Idle plain := ⟨rfl, rfl⟩

/-- EraseSector and EraseSectorTimed: a success after two polls, and a failure (V-F4, V-F6). -/
theorem test_witness_EraseSectorCompletes :
    (Idle (fed [0x40, 0x00, 0xFF]) ∧
      (fed [0x40, 0x00, 0xFF]).chip = .oracle ([0x40, 0x00] ++ 0xFF :: []) ∧
      (∀ b ∈ ([0x40, 0x00] : List Byte), b ≠ 0xFF ∧ b &&& 0x20 = 0) ∧
      ((0xFF : Byte) = 0xFF ∨ (0xFF : Byte) &&& 0x20 ≠ 0)) ∧
    (Idle (fed [0x40, 0x00, 0x60]) ∧
      (fed [0x40, 0x00, 0x60]).chip = .oracle ([0x40, 0x00] ++ 0x60 :: []) ∧
      ((0x60 : Byte) = 0xFF ∨ (0x60 : Byte) &&& 0x20 ≠ 0)) :=
  ⟨⟨⟨rfl, rfl⟩, rfl, by decide, by decide⟩, ⟨rfl, rfl⟩, rfl, by decide⟩

theorem test_witness_EraseSectorTimedCompletes :
    Idle (fed [0xFF]) ∧ (fed [0xFF]).chip = .oracle ([] ++ 0xFF :: []) ∧
    (∀ b ∈ ([] : List Byte), b ≠ 0xFF ∧ b &&& 0x20 = 0) ∧
    ((0xFF : Byte) = 0xFF ∨ (0xFF : Byte) &&& 0x20 ≠ 0) :=
  ⟨⟨rfl, rfl⟩, rfl, by decide, by decide⟩

/-- ProgramByte and ProgramByteTimed: the byte 0x20 completes at once (V-F7); a failure (V-F5). -/
theorem test_witness_ProgramByteCompletes :
    (Idle (fed [0x20]) ∧ (fed [0x20]).chip = .oracle ([] ++ 0x20 :: []) ∧
      (∀ b ∈ ([] : List Byte), b ≠ 0x20 ∧ b &&& 0x20 = 0) ∧
      ((0x20 : Byte) = 0x20 ∨ (0x20 : Byte) &&& 0x20 ≠ 0)) ∧
    (Idle (fed [0xC0, 0xA0]) ∧ (fed [0xC0, 0xA0]).chip = .oracle ([0xC0] ++ 0xA0 :: []) ∧
      (∀ b ∈ ([0xC0] : List Byte), b ≠ 0xFF ∧ b &&& 0x20 = 0) ∧
      ((0xA0 : Byte) = 0xFF ∨ (0xA0 : Byte) &&& 0x20 ≠ 0)) :=
  ⟨⟨⟨rfl, rfl⟩, rfl, by decide, by decide⟩, ⟨rfl, rfl⟩, rfl, by decide, by decide⟩

theorem test_witness_ProgramByteTimedCompletes :
    Idle (fed [0x40, 0x00, 0xF0]) ∧
    (fed [0x40, 0x00, 0xF0]).chip = .oracle ([0x40, 0x00] ++ 0xF0 :: []) ∧
    (∀ b ∈ ([0x40, 0x00] : List Byte), b ≠ 0xF0 ∧ b &&& 0x20 = 0) ∧
    ((0xF0 : Byte) = 0xF0 ∨ (0xF0 : Byte) &&& 0x20 ≠ 0) :=
  ⟨⟨rfl, rfl⟩, rfl, by decide, by decide⟩

/-- V-F10: a chip that answers 0x00, for an erase and for a timed program of 0xFF. -/
theorem test_witness_PollHangsWhilePending :
    Idle (fed [0x00, 0x00]) ∧ (fed [0x00, 0x00]).chip = .oracle [0x00, 0x00] ∧
    (∀ b ∈ ([0x00, 0x00] : List Byte), b ≠ 0xFF ∧ b &&& 0x20 = 0) ∧
    2 ≤ ([0x00, 0x00] : List Byte).length ∧ 0 < 2 ∧
    ((Instr.eraseSector 0 = .eraseSector 0 ∨ Instr.eraseSector 0 = .eraseSectorTimed 0) ∧
      (0xFF : Byte) = 0xFF) ∧
    ((Instr.programByteTimed 0 0 0xFF = .programByte 0 0 0xFF ∨
      Instr.programByteTimed 0 0 0xFF = .programByteTimed 0 0 0xFF) ∧ (0xFF : Byte) = 0xFF) :=
  ⟨⟨rfl, rfl⟩, rfl, by decide, by decide, by decide, by decide, by decide⟩

theorem test_witness_ZeroSectorCompletes :
    Idle (fed (List.replicate 8192 0x00 ++ [])) ∧
    (fed (List.replicate 8192 0x00 ++ [])).chip = .oracle (List.replicate 8192 0x00 ++ []) :=
  ⟨⟨rfl, rfl⟩, rfl⟩

/-- A run of ZeroSector that returns. -/
theorem test_witness_ZeroSectorReturnsVerified :
    ∃ (s t u : State) (k : Nat), Idle s ∧ exec (.zeroSector 31) s = .next t ∧
      Host.Core.run core k t = .next u ∧ u.seq.todo = [] := by
  obtain ⟨u, hu, hs⟩ := Feeds.zero (s := (fed (List.replicate 8192 0x00 ++ [])).tick) (sector := 31) rfl
  obtain ⟨t, ht, k, hk⟩ := Feeds.returns (i := .zeroSector 31) (kind := .none) ⟨rfl, rfl⟩ rfl rfl hu
    (hs.host.trans rfl)
  exact ⟨_, t, _, k, ⟨rfl, rfl⟩, ht, hk, congrArg Sequencer.todo (State.tick_seq _)⟩

theorem test_witness_RandomizeSectorCompletes :
    Idle plain ∧ plain.genInit = true ∧ Idle { plain with genInit := false } :=
  ⟨⟨rfl, rfl⟩, rfl, rfl, rfl⟩

/-- A run of RandomizeSector that returns. -/
theorem test_witness_RandomizeSectorReturnsVerified :
    ∃ (s t u : State) (k : Nat), Idle s ∧ exec (.randomizeSector 16) s = .next t ∧
      Host.Core.run core k t = .next u ∧ u.seq.todo = [] := by
  obtain ⟨g, scr, hg⟩ := seedsTo_exists plain.tick
  obtain ⟨v, u, -, hu, hv, -, hs⟩ := Feeds.randomize (s := plain.tick) (sector := 16) rfl hg
  have huh : u.host = [] := hs.host.trans (hv.only.host.trans rfl)
  generalize (List.range 4096).map (streamByte g) ++ (List.range 4096).map (streamByte g) = l at hu
  have hfed : Feeds (randomizeSteps 16) l (fed (l ++ [])).tick u := hu
  obtain ⟨t, ht, k, hk⟩ := Feeds.returns (i := .randomizeSector 16) (kind := .none) ⟨rfl, rfl⟩ rfl rfl
    hfed huh
  exact ⟨_, t, _, k, ⟨rfl, rfl⟩, ht, hk, congrArg Sequencer.todo (State.tick_seq _)⟩

/-- No sample, one sample, and as many as fit. -/
theorem test_witness_SaveResultsWritesRecord :
    batteryOf 5 = some .programRandom ∧
    ((0 : U16).toNat ≤ (0 : U16).toNat ∧ (0 : U16).toNat ≤ 40960) ∧
    ((1 : U16).toNat ≤ (10 : U16).toNat ∧ (10 : U16).toNat ≤ 40960 ∧ 0 < (1 : U16).toNat) ∧
    ((40960 : U16).toNat ≤ (40960 : U16).toNat ∧ (40960 : U16).toNat ≤ 40960) := by decide

theorem test_witness_MeanIsRoundedHalfUp :
    ([1, 2] : List U32) ≠ [] ∧ ([1, 2] : List U32).length ≤ 40960 ∧
    (List.replicate 40960 (0xFFFFFFFF : U32)).length ≤ 40960 :=
  ⟨by decide, by decide, by rw [List.length_replicate]⟩

theorem test_witness_RecordIgnoresSampleOrder :
    ([300, 100, 200] : List U32).Perm [100, 200, 300] := by decide

theorem test_witness_IllFormedOperationsAreRefused :
    (Instr.runBattery 6).wf = false ∧ (Instr.saveResults 0 0 3 2).wf = false ∧
    (Instr.runBattery 5).wf = true ∧ (Instr.unlock1).wf = true := by decide

theorem test_witness_RunBatteryCompletes :
    Idle plain ∧ batteryOf 0 = some .eraseAfterFF ∧ batteryOf 5 = some .programRandom :=
  ⟨⟨rfl, rfl⟩, rfl, rfl⟩

theorem test_witness_RunFullTestCompletes : Idle plain := ⟨rfl, rfl⟩

theorem test_witness_BankSwitchedAtBankStart :
    [0, 15, 16, 31].all (fun i => decide (i < 32 ∧ (pending (.sectorLoop .programFF i)).host = [] ∧
      (pending (.sectorLoop .programFF i)).seq.todo =
        .sectorLoop .programFF i :: [.ret .none])) = true := by decide

/-- A success at the last index, and a failure. -/
theorem test_witness_SampleCollected :
    (let s : State := { plain with tmrState := .stopped, seq :=
        { Sequencer.empty with todo := [.collect, .ret .none], ok := true, n := 40959 } }
     s.host = [] ∧ s.seq.todo = .collect :: [.ret .none] ∧ s.seq.ok = true ∧
      s.tmrState = .stopped ∧ s.seq.n < 40960) ∧
    ((pending .collect).host = [] ∧ (pending .collect).seq.todo = .collect :: [.ret .none] ∧
      (pending .collect).seq.ok = false) := by decide

/-- Each clause at the ends of its range: every battery's body, the last trial and past it, the last byte
of a program loop and past it. -/
theorem test_witness_SectorBodySteps :
    (allBatteries.flatMap fun b => [Micro.sectorBody b 31, .trial b 31 0, .trial b 31 9, .trial b 31 10,
      .programLoop b 31 4095, .programLoop b 31 4096]).all (fun m =>
        decide ((pending m).host = [] ∧ (pending m).seq.todo = m :: [.ret .none])) = true ∧
    (Battery.programRandom, (pending (.programLoop .programRandom 31 4095)).pbufRead 4095) ∈
      [(Battery.programFF, (0xFF : Byte)), (.program00, 0x00),
        (.programRandom, (pending (.programLoop .programRandom 31 4095)).pbufRead 4095)] :=
  ⟨by decide, by simp⟩

/-- Each clause at the ends of its range, with a poll that failed and one that succeeded, and a readback
that was clean and one that was not. -/
theorem test_witness_RetriesAndRepeatedPasses :
    [Micro.eraseGate 31, .retryProgram 31 0xFFF 0, .fill .zero 31 4095, .fill .random 31 4096,
      .verify .zero 31 4095, .verify .random 31 4096, .verifyTest .zero 4095,
      .verifyTest .random 0].all (fun m =>
        decide ((pending m).host = [] ∧ (pending m).seq.todo = m :: [.ret .none])) = true ∧
    (pending (.eraseGate 31)).seq.ok = false ∧ (State.setOk plain true).seq.ok = true ∧
    (pending (.verify .zero 31 4096)).seq.clean = false ∧ (plain.startVerify .zero).seq.clean = true ∧
    ¬ ((Fill.random = .zero ∧ plain.seq.clean = true) ∨
      (Fill.random = .random ∧ plain.seq.matched = 4096)) := by decide

/-- Every battery's record, with no sample; the end of the sector loop; the last battery and none left. -/
theorem test_witness_SectorsSavedAndBatteriesInOrder :
    ([Micro.sectorLoop .programRandom 32, .batteries [.programRandom], .batteries []] ++
      allBatteries.map (Micro.saveSector · 31)).all (fun m =>
        decide ((pending m).host = [] ∧ (pending m).seq.todo = m :: [.ret .none])) = true ∧
    (Battery.program00, 40960) ∈ [(Battery.eraseAfterFF, 10), (.eraseAfter00, 10),
      (.eraseAfterRandom, 10), (.programFF, 40960), (.program00, 40960), (.programRandom, 40960)] ∧
    (0 : Sector) ≠ 31 := by
  refine ⟨by decide, ?_, by decide⟩
  simp only [List.mem_cons, Prod.mk.injEq, and_true]
  decide

/-- R185 to R190: the first step of each kind of trial, from the rules. -/
theorem test_trial_heads :
    (allBatteries.map fun b => (trialSteps b 0).head?) =
      [some .setupTimer, some (.fill .zero 0 0), some (.drawPbuf 0), some (.cycle .unlock1),
        some (.cycle .unlock1), some (.cycle .unlock1)] := by decide

/-- A state of the invariant, in the middle of a battery, whose step answers a next state. -/
theorem test_witness_StepKeepsInvariant :
    State.Inv (pending (.sectorLoop .programRandom 31)) ∧
    ∃ t, step (pending (.sectorLoop .programRandom 31)) = .next t := ⟨by decide, _, rfl⟩

theorem test_witness_StepNeverFaults : State.Inv (pending (.batteries allBatteries)) := by decide

/-- A state between two cycles of a program, with the bus in the language, whose step answers. -/
theorem test_witness_StepKeepsBusInLanguage :
    let s : State := { pending (.cycle .unlock2) with bus := [.write 0x5555 0xAA], seq :=
      { Sequencer.empty with todo :=
        [.cycle .unlock2, .cycle .cmdBank, .cycle (.bankData 1), .ret .none] } }
    s.BusInLanguage ∧ ∃ t, step s = .next t :=
  ⟨⟨.stands .unlocking, by decide, by decide⟩, _, rfl⟩

theorem test_witness_ExternalResetEffect :
    ({ pending (.sectorLoop .programFF 3) with host := [.reset] } : State).host = .reset :: [] := rfl

/-- Each of the four states of the timer. -/
theorem test_witness_PlatformWrites :
    let m : HostMove := .platform (.tloCnt 0xFFFF)
    (moved m).seq.todo = [] ∧ (moved m).host = m :: [] ∧ (moved m).tmrState = .idle ∧
    ({ moved m with tmrState := .stopped } : State).tmrState = .stopped ∧
    ({ moved m with tmrState := .armed } : State).tmrState = .armed ∧
    ({ moved m with tmrState := .running } : State).tmrState = .running := by decide

theorem test_witness_RequestWaitsWhileBusy :
    let s : State := { pending (.cycle .unlock1) with host := [.issue ⟨0x10, 0, 0, 0⟩] }
    s.busy = true ∧ s.host = .issue ⟨0x10, 0, 0, 0⟩ :: [] ∧ ∃ t, step s = .next t :=
  ⟨rfl, rfl, _, rfl⟩

/-- One step of each kind that writes something. -/
theorem test_witness_EachRegisterHasItsWriters :
    [Micro.drawPbuf 4095, .seedRetry, .collect, .saveSector .eraseAfterFF 31, .latchId, .setupTimer,
      .startTimer, .endTimer, .ret .ok, .cycle (.rdPoll 15 0xFFF), .poll 15 0xFFF 0].all (fun m =>
        decide ((pending m).host = [] ∧ (pending m).seq.todo = m :: [.ret .none]) &&
        (after (step (pending m)) fun _ => ()).isSome) = true ∧
    (Instr.rdPoll 15 0xFFF).busRow ≠ none := by decide

theorem test_witness_HostReadsOnlyBetweenOperations :
    plain.seq.todo = [] ∧ (pending .latchId).seq.todo ≠ [] := by decide

/-- Every row of the write list is met by some offset and byte. -/
theorem test_witness_BusWritesComplete :
    (Instr.programData 15 0xFFF 0xFF, (0xFFFF : U16), (0xFF : Byte)) ∈
      [(Instr.unlock1, (0x5555 : U16), (0xAA : Byte)), (.unlock2, 0x2AAA, 0x55),
      (.cmdIdEntry, 0x5555, 0x90), (.cmdIdExit, 0x5555, 0xF0), (.cmdBank, 0x5555, 0xB0),
      (.bankData 1, 0x0000, (1 : BitVec 1).setWidth 8), (.cmdEraseSetup, 0x5555, 0x80),
      (.sectorErase 15, BitVec.ofNat 16 ((15 : BankSector).toNat * 4096), 0x30),
      (.cmdProgram, 0x5555, 0xA0),
      (.programData 15 0xFFF 0xFF,
        BitVec.ofNat 16 ((15 : BankSector).toNat * 4096 + (0xFFF : Offset).toNat), 0xFF),
      (.abort, 0x5555, 0xF0)] := by decide

theorem test_witness_BusReadsComplete :
    (Instr.rdVerify 15 0xFFF, (0xFFFF : U16)) ∈
      [(Instr.rdId0, (0x0000 : U16)), (.rdId1, 0x0001),
      (.rdPoll 15 0xFFF, BitVec.ofNat 16 ((15 : BankSector).toNat * 4096 + (0xFFF : Offset).toNat)),
      (.rdVerify 15 0xFFF,
        BitVec.ofNat 16 ((15 : BankSector).toNat * 4096 + (0xFFF : Offset).toNat))] := by decide

/-- A success after two busy reads, and a failure. -/
theorem test_witness_ReferenceDeviceErases :
    let d1 := device 1 [(0x10000, 0x12)] [(2, false)]
    let d2 := device 0 [] [(0, true)]
    (Idle { plain with chip := .reference d1 } ∧ d1.op = none ∧ d1.mode = .array ∧ d1.seq = .s0 ∧
      d1.script = (2, false) :: []) ∧
    (Idle { plain with chip := .reference d2 } ∧ d2.op = none ∧ d2.mode = .array ∧ d2.seq = .s0 ∧
      d2.script = (0, true) :: []) :=
  ⟨⟨test_plain_idle _, rfl, rfl, rfl, rfl⟩, test_plain_idle _, rfl, rfl, rfl, rfl⟩

/-- An erased byte takes any value; a byte that is not erased takes one with fewer bits (P1). -/
theorem test_witness_ReferenceDevicePrograms :
    let d1 := device 1 [] [(2, false)]
    let d2 := device 1 [(0x10000, 0x5A)] [(1, true)]
    (Idle { plain with chip := .reference d1 } ∧ d1.op = none ∧ d1.mode = .array ∧ d1.seq = .s0 ∧
      d1.script = (2, false) :: [] ∧
      Memory.read d1.arr (cellAddr d1.bank (flashAddr 17 0x123)) &&& 0x5A = 0x5A) ∧
    (Idle { plain with chip := .reference d2 } ∧ d2.op = none ∧ d2.mode = .array ∧ d2.seq = .s0 ∧
      d2.script = (1, true) :: [] ∧
      Memory.read d2.arr (cellAddr d2.bank (flashAddr 16 0)) &&& 0x1A = 0x1A) :=
  ⟨⟨test_plain_idle _, rfl, rfl, rfl, rfl, by decide⟩, test_plain_idle _, rfl, rfl, rfl, rfl,
    by decide⟩

theorem test_witness_ReferenceDeviceIdAndBank :
    Idle { plain with chip := .reference (device 0 [] []) } ∧ (device 0 [] []).op = none ∧
    (device 0 [] []).mode = .array ∧ (device 0 [] []).seq = .s0 := ⟨test_plain_idle _, rfl, rfl, rfl⟩

end Sys2Proof.Tests
end

/-! Time (spec/00_scope.md R15, spec/41_timer.md R124): what a number of Ticks does to the state, and
that every instruction ends in one Tick. -/

namespace Sys2Proof.Machine

/-! ## A number of Ticks -/

/-- A Tick changes nothing but the counters and the number of draws. -/
theorem State.tick_eq (s : State) :
    s.tick = { s with tloCnt := s.tick.tloCnt, thiCnt := s.tick.thiCnt, draws := s.draws + 1 } := by
  apply State.ext <;> simp

theorem State.tick_iterate_eq (s : State) (k : Nat) :
    State.tick^[k] s = { s with
      tloCnt := (State.tick^[k] s).tloCnt
      thiCnt := (State.tick^[k] s).thiCnt
      draws := s.draws + k } := by
  induction k with
  | zero => rfl
  | succ k ih =>
    rw [Function.iterate_succ_apply']
    generalize State.tick^[k] s = u at ih ⊢
    exact (State.tick_eq u).trans (congrArg (fun v : State => { v with
      tloCnt := u.tick.tloCnt, thiCnt := u.tick.thiCnt, draws := v.draws + 1 }) ih)

@[simp] theorem State.tick_iterate_tloEn (s : State) (k : Nat) :
    (State.tick^[k] s).tloEn = s.tloEn := by rw [State.tick_iterate_eq]

@[simp] theorem State.tick_iterate_thiEn (s : State) (k : Nat) :
    (State.tick^[k] s).thiEn = s.thiEn := by rw [State.tick_iterate_eq]

@[simp] theorem State.tick_iterate_thiCascade (s : State) (k : Nat) :
    (State.tick^[k] s).thiCascade = s.thiCascade := by rw [State.tick_iterate_eq]

@[simp] theorem State.tick_iterate_draws (s : State) (k : Nat) :
    (State.tick^[k] s).draws = s.draws + k := by rw [State.tick_iterate_eq]

/-- A sum taken modulo `m` after each summand is the sum modulo `m`. -/
theorem eq_add_cyclesOf_mod {m n : Nat} {f : Nat → Nat} (h0 : f 0 < m)
    (hf : ∀ k, f (k + 1) = (f k + Config.cycleCost (n + k)) % m) (k : Nat) :
    f k = (f 0 + cyclesOf n k) % m := by
  induction k with
  | zero => rw [cyclesOf_zero, Nat.add_zero, Nat.mod_eq_of_lt h0]
  | succ k ih => rw [hf, ih, cyclesOf_succ, Nat.mod_add_mod, Nat.add_assoc]

/-- Low counter running, high one armed: the composite count advances. -/
theorem State.tick_iterate_count {s : State} (h1 : s.tloEn = true) (h2 : s.thiEn = true)
    (h3 : s.thiCascade = true) (k : Nat) :
    (State.tick^[k] s).count.toNat = (s.count.toNat + cyclesOf s.draws k) % 2 ^ 32 := by
  refine eq_add_cyclesOf_mod (f := fun j => (State.tick^[j] s).count.toNat) s.count.isLt
    (fun j => ?_) k
  simp only [Function.iterate_succ_apply']
  rw [State.tick_count (by simpa using h1) (by simpa using h2) (by simpa using h3),
    State.tick_iterate_draws]

/-- Low counter running, high one not armed: a Tick advances the low one alone. -/
theorem State.tick_low {s : State} (h1 : s.tloEn = true) (h2 : (s.thiEn && s.thiCascade) = false) :
    s.tick.tloCnt.toNat = (s.tloCnt.toNat + Config.cycleCost s.draws) % 2 ^ 16 ∧
      s.tick.thiCnt = s.thiCnt := by
  simp [State.tick, State.advanceCounters, h1, h2]

theorem State.tick_iterate_low {s : State} (h1 : s.tloEn = true)
    (h2 : (s.thiEn && s.thiCascade) = false) (k : Nat) :
    (State.tick^[k] s).tloCnt.toNat = (s.tloCnt.toNat + cyclesOf s.draws k) % 2 ^ 16 ∧
      (State.tick^[k] s).thiCnt = s.thiCnt := by
  have hstep (j : Nat) :=
    State.tick_low (s := State.tick^[j] s) (by simpa using h1) (by simpa using h2)
  simp only [← Function.iterate_succ_apply' State.tick, State.tick_iterate_draws] at hstep
  refine ⟨eq_add_cyclesOf_mod (f := fun j => (State.tick^[j] s).tloCnt.toNat) s.tloCnt.isLt
    (fun j => (hstep j).1) k, ?_⟩
  induction k with
  | zero => rfl
  | succ k ih => exact (hstep k).2.trans ih

/-- Low counter held: neither counter moves. -/
theorem State.tick_iterate_held {s : State} (h : s.tloEn = false) (k : Nat) :
    (State.tick^[k] s).tloCnt = s.tloCnt ∧ (State.tick^[k] s).thiCnt = s.thiCnt := by
  induction k with
  | zero => exact ⟨rfl, rfl⟩
  | succ k ih =>
    obtain ⟨hlo, hhi⟩ := State.tick_held (s := State.tick^[k] s) (by simpa using h)
    rw [Function.iterate_succ_apply']
    exact ⟨hlo.trans ih.1, hhi.trans ih.2⟩

/-! ## The chip's draws -/

theorem Device.drawStart_draws_le (d : Device) (n : Nat) : n ≤ (d.drawStart n).draws := by
  unfold Device.drawStart
  split
  · exact le_rfl
  · split <;> simp

theorem Device.write_draws_le (d : Device) (off : U16) (v : Byte) (n : Nat) :
    n ≤ (d.write off v n).2 := by
  have hs := d.drawStart_draws_le n
  cases hop : d.op with
  | some op => simp [Device.write, hop]
  | none =>
    cases hq : d.seq with
    | sPgm =>
      simp only [Device.write, hop, hq, Device.startProgram]
      exact hs
    | sEr2 =>
      simp only [Device.write, hop, hq, Device.startErase]
      split
      · exact hs
      · exact le_rfl
    | s0 | s1 | s2 | sBank | sEr0 | sEr1 =>
      simp only [Device.write, hop, hq]
      repeat' split
      all_goals exact le_rfl

theorem Device.answerIdle_draws_le (d : Device) (off : U16) (n : Nat) :
    n ≤ (d.answerIdle off n).draws := by
  unfold Device.answerIdle
  repeat' split
  all_goals simp

theorem Device.answerStatus_draws_le (d : Device) (op : DevOp) (failing : Bool) (n : Nat) :
    n ≤ (d.answerStatus op failing n).draws := by
  unfold Device.answerStatus
  split <;> simp

theorem Device.read_draws_le (d : Device) (off : U16) (n : Nat) : n ≤ (d.read off n).draws := by
  unfold Device.read
  split
  · exact d.answerIdle_draws_le off n
  · split
    · exact d.answerStatus_draws_le _ _ n
    · split
      · exact d.answerStatus_draws_le _ _ n
      · exact Device.answerIdle_draws_le _ off n

theorem Chip.write_draws_le (c : Chip) (off : U16) (v : Byte) (n : Nat) :
    n ≤ (c.write off v n).2 := by
  cases c with
  | oracle answers => exact le_rfl
  | reference d => exact d.write_draws_le off v n

theorem Chip.read_draws_le (c : Chip) (off : U16) (n : Nat) : n ≤ (c.read off n).draws := by
  cases c with
  | oracle answers =>
    cases answers with
    | nil => exact Nat.le_succ n
    | cons b answers => exact le_rfl
  | reference d => exact d.read_draws_le off n

/-! ## Steps that end in a Tick -/

/-- A step that moves neither counter before its Tick. -/
theorem EndsInTick.of_tick {s u : State} (hd : s.draws ≤ u.draws) (hlo : u.tloCnt = s.tloCnt)
    (hhi : u.thiCnt = s.thiCnt) : EndsInTick s u.tick := by
  refine ⟨by rw [State.tick_draws]; omega, ?_⟩
  simp only [State.tick_draws, State.tick_tloEn, State.tick_thiEn, State.tick_thiCascade,
    Nat.add_sub_cancel]
  simp only [State.tick, State.advanceCounters, hlo, hhi]
  split <;> simp [State.count, hlo, hhi]

/-- The latches of the sequencer have no part in it. -/
theorem EndsInTick.withSeq {s t : State} (h : EndsInTick s t) (q : Sequencer) :
    EndsInTick s { t with seq := q } := h

theorem EndsInTick.load (s : State) (l : List Micro) : EndsInTick s (s.load l) :=
  .of_tick (u := s.push l) le_rfl rfl rfl

theorem EndsInTick.busWrite (s : State) (off : U16) (v : Byte) : EndsInTick s (s.busWrite off v) :=
  .of_tick (s.chip.write_draws_le off v s.draws) rfl rfl

theorem EndsInTick.busRead (s : State) (off : U16) : EndsInTick s (s.busRead off) :=
  .of_tick (s.chip.read_draws_le off s.draws) rfl rfl

theorem EndsInTick.of_next {s u t : State}
    (h : (Host.Outcome.next u : Host.Outcome State Fault Refusal) = .next t) (hu : EndsInTick s u) :
    EndsInTick s t := by
  cases h
  exact hu

/-! ## Every instruction ends in a Tick -/

theorem execGeneratorNext_endsInTick {s t : State} (h : execGeneratorNext s = .next t) :
    EndsInTick s t := by
  refine .of_next h (.of_tick ?_ ?_ ?_) <;> split <;> simp [State.generatorReturn]

theorem execSetupTimer_endsInTick {s t : State} (h : execSetupTimer s = .next t) :
    EndsInTick { s with tloCnt := 0, thiCnt := 0 } t :=
  .of_next h (.of_tick (Nat.le_succ s.draws) rfl rfl)

theorem execGetTimerResult_endsInTick {s t : State} (h : execGetTimerResult s = .next t) :
    EndsInTick s t := by
  refine .of_next h (.of_tick ?_ (by simp) (by simp))
  rw [State.setRes_draws, State.afterTimerResult]
  split <;> simp

theorem execSaveResults_endsInTick {battery : BitVec 3} {sector : Sector} {n m : U16} {s t : State}
    (h : execSaveResults battery sector n m s = .next t) : EndsInTick s t := by
  unfold execSaveResults at h
  split at h
  · cases h
  · split at h
    · split at h
      · exact .of_next h (.of_tick (by simp) (by simp) (by simp))
      · cases h
    · cases h

theorem execRunBattery_endsInTick {battery : BitVec 3} {s t : State}
    (h : execRunBattery battery s = .next t) : EndsInTick s t := by
  unfold execRunBattery at h
  split at h
  · cases h
  · exact .of_next h (.load s _)

theorem execRunFullTest_endsInTick {s t : State} (h : execRunFullTest s = .next t) :
    EndsInTick s t :=
  .of_next h (.of_tick (by simp) (by simp) (by simp))

/-- Every instruction but SetupTimer, which clears the counters first, leaves them to its Tick. -/
theorem exec_endsInTick {i : Instr} {s t : State} (hi : i ≠ .setupTimer) (h : exec i s = .next t) :
    EndsInTick s t := by
  cases i with
  | setupTimer => exact absurd rfl hi
  | scramblerNext => exact .of_next h (.of_tick le_rfl rfl rfl)
  | generatorNext => exact execGeneratorNext_endsInTick h
  | startTimer | endTimer => exact .of_next h (.of_tick (Nat.le_succ s.draws) rfl rfl)
  | getTimerResult => exact execGetTimerResult_endsInTick h
  | readFlashID | switchFlashBank _ | eraseSector _ | eraseSectorTimed _ | programByte _ _ _
  | programByteTimed _ _ _ | zeroSector _ | randomizeSector _ => exact .of_next h (.load s _)
  | saveResults _ _ _ _ => exact execSaveResults_endsInTick h
  | runBattery _ => exact execRunBattery_endsInTick h
  | runFullTest => exact execRunFullTest_endsInTick h
  | unlock1 | unlock2 | cmdIdEntry | cmdIdExit | cmdBank | bankData _ | cmdEraseSetup
  | sectorErase _ | cmdProgram | programData _ _ _ | abort => exact .of_next h (.busWrite s _ _)
  | rdId0 | rdId1 | rdPoll _ _ | rdVerify _ _ =>
    exact .of_next h ((EndsInTick.busRead s _).withSeq _)

/-- Settles O18: by induction on the number of Ticks in each of the three settings of the controls, and
by the instruction for the Tick each ends in. -/
theorem ticksAdvanceCounters : Obligations.TicksAdvanceCounters := by
  intro s k
  refine ⟨s.tick_iterate_eq k, fun h1 h2 h3 => State.tick_iterate_count h1 h2 h3 k,
    fun h1 h2 => State.tick_iterate_low h1 h2 k, fun h => State.tick_iterate_held h k,
    fun i t h => ?_⟩
  by_cases hi : i = .setupTimer
  · subst hi
    exact execSetupTimer_endsInTick h
  · rw [if_neg hi]
    exact exec_endsInTick hi h

end Sys2Proof.Machine

/-! What each pending step writes (spec/10_state.md R24 to R35): most steps of a running operation
touch the sequencer alone and end in a Tick; the others are bus cycles and the few writers of a
register. -/

namespace Sys2Proof.Machine

/-! ## Steps that touch the sequencer alone -/

/-- `t` is `s` but for the sequencer, and what `s` has pending stays pending, behind what is put in
front. -/
structure SeqOnly (s t : State) : Prop where
  frame : t = { s with seq := t.seq }
  pending : s.seq.todo <:+ t.seq.todo

namespace SeqOnly

theorem refl (s : State) : SeqOnly s s := ⟨rfl, List.suffix_rfl⟩

theorem push (s : State) (l : List Micro) : SeqOnly s (s.push l) := ⟨rfl, List.suffix_append _ _⟩

/-- The latches of the sequencer change, the pending steps do not. -/
theorem latch (s : State) {q : Sequencer} (h : q.todo = s.seq.todo) :
    SeqOnly s { s with seq := q } :=
  ⟨rfl, h ▸ List.suffix_rfl⟩

theorem setLast (s : State) (b : Byte) : SeqOnly s (s.setLast b) := .latch s rfl

theorem trans {s t u : State} (h1 : SeqOnly s t) (h2 : SeqOnly t u) : SeqOnly s u :=
  ⟨h2.frame.trans (congrArg (fun v : State => { v with seq := u.seq }) h1.frame),
    h1.pending.trans h2.pending⟩

theorem ite {c : Prop} [Decidable c] {s t u : State} (h1 : SeqOnly s t) (h2 : SeqOnly s u) :
    SeqOnly s (if c then t else u) := by
  split
  · exact h1
  · exact h2

end SeqOnly

theorem State.runPollTest_seqOnly (s : State) (sec : BankSector) (offset : Offset)
    (expected : Byte) : SeqOnly s (s.runPollTest sec offset expected) := by
  unfold State.runPollTest
  split
  · exact .latch s rfl
  · exact .latch s rfl
  · exact .push s _

theorem State.startVerify_seqOnly (s : State) (src : Fill) : SeqOnly s (s.startVerify src) := by
  cases src <;> exact .latch s rfl

theorem State.verifyByte_seqOnly (s : State) (src : Fill) (off : Nat) :
    SeqOnly s (s.verifyByte src off) := by
  cases src with
  | zero => exact .ite (.refl s) (.latch s rfl)
  | random => exact .ite (.latch s rfl) (.refl s)

theorem State.runFill_seqOnly (s : State) (src : Fill) (sector : Sector) (off : Nat) :
    SeqOnly s (s.runFill src sector off) :=
  .ite (.push s _) ((s.startVerify_seqOnly src).trans (.push _ _))

theorem State.runVerify_seqOnly (s : State) (src : Fill) (sector : Sector) (off : Nat) :
    SeqOnly s (s.runVerify src sector off) := .ite (.push s _) (.ite (.refl s) (.push s _))

theorem State.runSectorBody_seqOnly (s : State) (b : Battery) (sector : Sector) :
    SeqOnly s (s.runSectorBody b sector) :=
  (SeqOnly.latch s (q := { s.seq with n := 0 }) rfl).trans (.push _ _)

theorem State.runBatteries_seqOnly (s : State) (l : List Battery) :
    SeqOnly s (s.runBatteries l) := by
  cases l with
  | nil => exact .refl s
  | cons b l => exact .push s _

/-- The steps that neither drive the bus nor write a register. -/
def Micro.internal : Micro → Bool
  | .abortOnFailure | .retryProgram _ _ _ | .fill _ _ _ | .verify _ _ _ | .verifyTest _ _
  | .eraseGate _ | .sectorLoop _ _ | .sectorBody _ _ | .trial _ _ _ | .programLoop _ _ _
  | .batteries _ => true
  | .cycle _ | .setupTimer | .startTimer | .endTimer | .poll _ _ _ | .latchId | .drawPbuf _
  | .collect | .saveSector _ _ | .seedRetry | .ret _ => false

theorem runMicro_internal {m : Micro} {s t : State} (hm : m.internal = true)
    (h : runMicro m s = .next t) : ∃ u, SeqOnly s u ∧ t = u.tick := by
  have tick {u : State} (hu : SeqOnly s u) (hr : runMicro m s = .next u.tick) :
      ∃ u, SeqOnly s u ∧ t = u.tick := ⟨u, hu, Host.Outcome.next.inj (h.symm.trans hr)⟩
  cases m with
  | abortOnFailure => exact tick (.ite (.refl s) (.push s _)) rfl
  | retryProgram _ _ _ => exact tick (.ite (.refl s) (.push s _)) rfl
  | fill src sector off => exact tick (s.runFill_seqOnly src sector off) rfl
  | verify src sector off => exact tick (s.runVerify_seqOnly src sector off) rfl
  | verifyTest src off => exact tick (s.verifyByte_seqOnly src off) rfl
  | eraseGate _ => exact tick (.ite (.refl s) (.push s _)) rfl
  | sectorLoop _ _ => exact tick (.ite (.push s _) (.refl s)) rfl
  | sectorBody b sector => exact tick (s.runSectorBody_seqOnly b sector) rfl
  | trial _ _ _ => exact tick (.ite (.push s _) (.refl s)) rfl
  | programLoop _ _ _ => exact tick (.ite (.push s _) (.refl s)) rfl
  | batteries l => exact tick (s.runBatteries_seqOnly l) rfl
  | cycle _ | setupTimer | startTimer | endTimer | poll _ _ _ | latchId | drawPbuf _ | collect
  | saveSector _ _ | seedRetry | ret _ => cases hm

/-! ## Bus cycles and polls -/

/-- `t` is `s` after one bus cycle with its Tick, whatever the sequencer then latches. -/
inductive OneCycle (s t : State) : Prop where
  | write (off : U16) (v : Byte) (h : SeqOnly (s.busWrite off v) t)
  | read (off : U16) (h : SeqOnly (s.busRead off) t)

theorem exec_oneCycle {i : Instr} {s t : State} (hi : i.busRow ≠ none) (h : exec i s = .next t) :
    OneCycle s t := by
  cases i with
  | unlock1 | unlock2 | cmdIdEntry | cmdIdExit | cmdBank | bankData _ | cmdEraseSetup
  | sectorErase _ | cmdProgram | programData _ _ _ | abort =>
    obtain rfl := Host.Outcome.next.inj h
    exact .write _ _ (.refl _)
  | rdId0 | rdId1 | rdPoll _ _ | rdVerify _ _ =>
    obtain rfl := Host.Outcome.next.inj h
    exact .read _ (.latch _ (by simp))
  | scramblerNext | generatorNext | setupTimer | startTimer | endTimer | getTimerResult | readFlashID
  | switchFlashBank _ | eraseSector _ | eraseSectorTimed _ | programByte _ _ _
  | programByteTimed _ _ _ | zeroSector _ | randomizeSector _ | saveResults _ _ _ _ | runBattery _
  | runFullTest => exact absurd rfl hi

theorem runPoll_oneCycle {sec : BankSector} {offset : Offset} {expected : Byte} {s t : State}
    (h : runPoll sec offset expected s = .next t) : OneCycle s t := by
  obtain rfl := Host.Outcome.next.inj h
  exact .read _ ((SeqOnly.setLast _ _).trans (State.runPollTest_seqOnly _ _ _ _))

theorem OneCycle.endsInTick {s t : State} (h : OneCycle s t) : EndsInTick s t := by
  cases h with
  | write off v h => exact h.frame ▸ (EndsInTick.busWrite s off v).withSeq t.seq
  | read off h => exact h.frame ▸ (EndsInTick.busRead s off).withSeq t.seq

/-! ## The writers of every register -/

/-- Sample collection appends one sample below SAMP's end, or nothing (R182). -/
theorem runCollect_next {s t : State} (h : s.runCollect = .next t) :
    s.seq.n < Params.sampleCap ∧ t = s.appendSample.tick ∨ t = s.tick := by
  unfold State.runCollect at h
  split at h
  · split at h
    · next hn => exact .inl ⟨hn, (Host.Outcome.next.inj h).symm⟩
    · cases h
  · exact .inr (Host.Outcome.next.inj h).symm

/-- What the step `m`, from `s` to `t`, may have written, register by register. -/
structure Writes (m : Micro) (s t : State) : Prop where
  prng : t.scr = s.scr ∧ t.gen = s.gen ∧ t.genInit = s.genInit ∨ (∃ off, m = .drawPbuf off) ∨
    m = .seedRetry
  pbuf : t.pbuf = s.pbuf ∨ ∃ off, m = .drawPbuf off
  samp : t.samp = s.samp ∨ m = .collect
  result : t.result = s.result ∨ ∃ b sector, m = .saveSector b sector
  flashId : t.flashId = s.flashId ∨ m = .latchId
  ime : t.ime = s.ime ∨ m = .setupTimer ∨ m = .endTimer
  timer : t.tmrState = s.tmrState ∧ t.tloEn = s.tloEn ∨ m = .setupTimer ∨ m = .startTimer ∨
    m = .endTimer
  high : t.thiEn = s.thiEn ∧ t.thiCascade = s.thiCascade ∨ m = .setupTimer
  chip : t.chip = s.chip ∧ t.bus = s.bus ∨ (∃ i, m = .cycle i) ∨
    ∃ sec offset expected, m = .poll sec offset expected
  res : t.res = s.res ∨ (∃ kind, m = .ret kind) ∨ m = .seedRetry
  port : t.opsel = s.opsel ∧ t.arg0 = s.arg0 ∧ t.arg1 = s.arg1 ∧ t.arg2 = s.arg2 ∧
    t.epoch = s.epoch

theorem Writes.internal (m : Micro) {s u : State} (h : SeqOnly s u) : Writes m s u.tick := by
  rw [h.frame]
  constructor <;> simp

theorem Writes.oneCycle {m : Micro} {s t : State} (hm : (∃ i, m = .cycle i) ∨
    ∃ sec offset expected, m = .poll sec offset expected) (h : OneCycle s t) : Writes m s t := by
  cases h with
  | write off v h => rw [h.frame]; constructor <;> simp [hm]
  | read off h => rw [h.frame]; constructor <;> simp [hm]

theorem Writes.drawPbuf (s : State) (off : Nat) :
    Writes (.drawPbuf off) s (s.runDrawPbuf off).tick := by
  unfold State.runDrawPbuf
  split
  · split <;> constructor <;> simp
  · exact .internal _ (.refl s)

theorem Writes.seedRetry (s : State) : Writes .seedRetry s s.runSeedRetry.tick := by
  unfold State.runSeedRetry
  split <;> constructor <;> simp [State.generatorReturn]

theorem Writes.ret (s : State) (kind : RetKind) : Writes (.ret kind) s (s.finish kind).tick := by
  cases kind <;> constructor <;> simp [State.finish]

theorem Writes.collect {s t : State} (h : s.runCollect = .next t) : Writes .collect s t := by
  obtain ⟨-, rfl⟩ | rfl := runCollect_next h
  · constructor <;> simp [State.appendSample]
  · exact .internal _ (.refl s)

theorem runMicro_writes {m : Micro} {s t : State} (hb : ∀ i, m = .cycle i → i.busRow ≠ none)
    (h : runMicro m s = .next t) : Writes m s t := by
  cases m with
  | abortOnFailure | retryProgram _ _ _ | fill _ _ _ | verify _ _ _ | verifyTest _ _ | eraseGate _
  | sectorLoop _ _ | sectorBody _ _ | trial _ _ _ | programLoop _ _ _ | batteries _ =>
    obtain ⟨u, hu, rfl⟩ := runMicro_internal rfl h
    exact .internal _ hu
  | cycle i => exact .oneCycle (.inl ⟨i, rfl⟩) (exec_oneCycle (hb i rfl) h)
  | poll sec offset expected => exact .oneCycle (.inr ⟨_, _, _, rfl⟩) (runPoll_oneCycle h)
  | setupTimer | startTimer | endTimer =>
    obtain rfl := Host.Outcome.next.inj h
    constructor <;> simp
  | latchId | saveSector _ _ =>
    obtain rfl := Host.Outcome.next.inj h
    constructor <;> simp [State.runLatchId, State.runSaveSector]
  | drawPbuf off => exact Host.Outcome.next.inj h ▸ Writes.drawPbuf s off
  | seedRetry => exact Host.Outcome.next.inj h ▸ Writes.seedRetry s
  | ret kind => exact Host.Outcome.next.inj h ▸ Writes.ret s kind
  | collect => exact .collect h

/-! ## The Tick of every pending step -/

theorem EndsInTick.collect {s t : State} (h : s.runCollect = .next t) : EndsInTick s t := by
  obtain ⟨-, rfl⟩ | rfl := runCollect_next h
  · refine .of_tick ?_ (by simp [State.appendSample]) (by simp [State.appendSample])
    simp only [State.appendSample, State.sampWrite_draws, State.afterTimerResult]
    split <;> simp
  · exact .of_tick le_rfl rfl rfl

theorem State.runDrawPbuf_clock (s : State) (off : Nat) : (s.runDrawPbuf off).draws = s.draws ∧
    (s.runDrawPbuf off).tloCnt = s.tloCnt ∧ (s.runDrawPbuf off).thiCnt = s.thiCnt := by
  unfold State.runDrawPbuf
  split
  · split <;> simp
  · simp

theorem State.runSeedRetry_clock (s : State) : s.runSeedRetry.draws = s.draws ∧
    s.runSeedRetry.tloCnt = s.tloCnt ∧ s.runSeedRetry.thiCnt = s.thiCnt := by
  unfold State.runSeedRetry
  split <;> simp [State.generatorReturn]

theorem State.finish_clock (s : State) (kind : RetKind) : s.draws ≤ (s.finish kind).draws ∧
    (s.finish kind).tloCnt = s.tloCnt ∧ (s.finish kind).thiCnt = s.thiCnt := by
  cases kind <;> simp [State.finish]

/-- Every pending step but SetupTimer, which clears the counters first, leaves them to its Tick. -/
theorem runMicro_endsInTick {m : Micro} {s t : State} (hm : m ≠ .setupTimer)
    (hb : ∀ i, m = .cycle i → i.busRow ≠ none) (h : runMicro m s = .next t) : EndsInTick s t := by
  cases m with
  | setupTimer => exact absurd rfl hm
  | abortOnFailure | retryProgram _ _ _ | fill _ _ _ | verify _ _ _ | verifyTest _ _ | eraseGate _
  | sectorLoop _ _ | sectorBody _ _ | trial _ _ _ | programLoop _ _ _ | batteries _ =>
    obtain ⟨u, hu, rfl⟩ := runMicro_internal rfl h
    rw [hu.frame]
    exact .of_tick le_rfl rfl rfl
  | cycle i => exact (exec_oneCycle (hb i rfl) h).endsInTick
  | poll _ _ _ => exact (runPoll_oneCycle h).endsInTick
  | startTimer | endTimer | latchId => exact .of_next h (.of_tick le_rfl rfl rfl)
  | saveSector _ _ => exact .of_next h (.of_tick (by simp [State.runSaveSector]) rfl rfl)
  | drawPbuf off =>
    obtain ⟨hd, hlo, hhi⟩ := s.runDrawPbuf_clock off
    exact .of_next h (.of_tick hd.ge hlo hhi)
  | seedRetry =>
    obtain ⟨hd, hlo, hhi⟩ := s.runSeedRetry_clock
    exact .of_next h (.of_tick hd.ge hlo hhi)
  | ret kind =>
    obtain ⟨hd, hlo, hhi⟩ := s.finish_clock kind
    exact .of_next h (.of_tick hd hlo hhi)
  | collect => exact .collect h

theorem runMicro_setupTimer_endsInTick {s t : State} (h : runMicro .setupTimer s = .next t) :
    EndsInTick { s with tloCnt := 0, thiCnt := 0 } t :=
  .of_next h (.of_tick le_rfl rfl rfl)

/-- What is pending has no part in it. -/
theorem EndsInTick.of_withTodo {s t : State} {l : List Micro} (h : EndsInTick (s.withTodo l) t) :
    EndsInTick s t := by
  obtain ⟨hdraws, hcount⟩ := h
  refine ⟨hdraws, hcount.trans ?_⟩
  simp only [State.advanceCounters]
  split <;> rfl

/-- Settles O49: the registers by the kind of step, the counters by the Tick it ends in. -/
theorem eachRegisterHasItsWriters : Obligations.EachRegisterHasItsWriters := by
  intro s t m rest hh ht hb h
  rw [step_running hh ht] at h
  obtain ⟨hprng, hpbuf, hsamp, hresult, hflash, hime, htimer, hhigh, hchip, hres, hport⟩ :=
    runMicro_writes hb h
  refine ⟨hprng, hpbuf, hsamp, hresult, hflash, hime, htimer, hhigh, ?_, hchip, hres, hport⟩
  split
  · next hm =>
    subst hm
    exact .of_withTodo (l := rest) (runMicro_setupTimer_endsInTick (s := s.withTodo rest) h)
  · next hm => exact .of_withTodo (runMicro_endsInTick hm hb h)

end Sys2Proof.Machine

/-! The part of the invariant that does not speak of the sequencer: the stores, the chip's array,
the generator and the timer (spec/10_state.md R25, R33 to R35, spec/41_timer.md R120 to R122). -/

namespace Sys2Proof.Machine

/-! ## Stores -/

theorem storeAbove_iff {α : Type} (a : Nat) (m : List (Nat × α)) :
    storeAbove a m = true ↔ ∀ c ∈ m, a < c.1 := by
  induction m with
  | nil => simp [storeAbove]
  | cons c m ih => simp [storeAbove, ih]

theorem storeRising_iff {α : Type} (m : List (Nat × α)) :
    storeRising m = true ↔ m.Pairwise fun c d => c.1 < d.1 := by
  induction m with
  | nil => simp [storeRising]
  | cons c m ih => simp [storeRising, storeAbove_iff, ih]

/-- A store that lists every index below its bound. -/
theorem storeWf_range {α : Type} (bound : Nat) (f : Nat → α) :
    storeWf bound ((List.range bound).map fun i => (i, f i)) = true := by
  simp only [storeWf, Bool.and_eq_true, storeRising_iff, List.pairwise_map]
  exact ⟨List.pairwise_lt_range, by simp⟩

theorem resultIndex_lt (b : Battery) (sector : Sector) :
    resultIndex b sector < Params.numBatteries * Params.numSectors := by
  have hs := sector.isLt
  cases b <;> simp only [resultIndex, Battery.index, Params.numBatteries, Params.numSectors] <;>
    omega

/-! ## The generator -/

theorem eq_zero_of_rotl32_eleven {x : U32} (h : rotl32 x 11 = 0) : x = 0 := by
  obtain ⟨hlow, hhigh⟩ : x <<< 11 = 0 ∧ x >>> 21 = 0 := BitVec.or_eq_zero_iff.mp h
  bv_omega

theorem eq_zero_of_eq_shiftLeft_nine {x : U32} (h : x = x <<< 9) : x = 0 := by bv_omega

/-- Only the all-zero generator advances to the all-zero one. -/
theorem eq_zero_of_genAdvance {g : Gen} (h : genAdvance g = Gen.zero) : g = Gen.zero := by
  obtain ⟨a, b, c, d⟩ := g
  simp only [genAdvance, Gen.zero, Gen.mk.injEq] at h
  obtain ⟨h0, h1, h2, h3⟩ := h
  have hd : d ^^^ b = 0 := eq_zero_of_rotl32_eleven h3
  have ha : a = 0 := by simpa [hd] using h0
  have hb : b = c := by simpa [ha, BitVec.xor_eq_zero_iff] using h1
  have hc : c = 0 := by
    refine eq_zero_of_eq_shiftLeft_nine ?_
    simpa [ha, hb, BitVec.xor_eq_zero_iff] using h2
  have hd : d = 0 := by simpa [hb, hc] using hd
  simp [Gen.zero, ha, hb, hc, hd]

theorem Gen.nonzero_genAdvance {g : Gen} (h : g.nonzero = true) :
    (genAdvance g).nonzero = true := by
  rw [Gen.nonzero_iff] at h ⊢
  exact fun hz => h (eq_zero_of_genAdvance hz)

/-! ## The array of the reference device -/

@[simp] theorem Device.drawStart_arr (d : Device) (n : Nat) :
    (d.drawStart n).device.arr = d.arr := by
  unfold Device.drawStart
  split
  · rfl
  · split <;> rfl

@[simp] theorem Device.write_arr (d : Device) (off : U16) (v : Byte) (n : Nat) :
    (d.write off v n).1.arr = d.arr := by
  cases hop : d.op with
  | some op =>
    simp only [Device.write, hop, Device.writeBusy]
    split <;> rfl
  | none =>
    cases hq : d.seq with
    | sPgm => simp [Device.write, hop, hq, Device.startProgram]
    | sEr2 =>
      simp only [Device.write, hop, hq, Device.startErase]
      split
      · exact d.drawStart_arr n
      · rfl
    | s2 =>
      simp only [Device.write, hop, hq, Device.writeUnlocked]
      repeat' split
      all_goals rfl
    | s0 | s1 | sBank | sEr0 | sEr1 =>
      simp only [Device.write, hop, hq]
      repeat' split
      all_goals rfl

@[simp] theorem Device.answerStatus_arr (d : Device) (op : DevOp) (failing : Bool) (n : Nat) :
    (d.answerStatus op failing n).chip.arr = d.arr := by
  unfold Device.answerStatus
  split <;> rfl

@[simp] theorem Device.answerIdle_chip (d : Device) (off : U16) (n : Nat) :
    (d.answerIdle off n).chip = d := by
  unfold Device.answerIdle
  repeat' split
  all_goals rfl

theorem Device.commit_wf {d : Device} (op : DevOp) (h : Memory.wf d.arr = true) :
    Memory.wf (d.commit op).arr = true := by
  unfold Device.commit
  split
  · exact Memory.wf_write _ h (cellAddr_lt _ _)
  · exact Memory.wf_eraseSector _ h

theorem Device.read_wf {d : Device} (off : U16) (n : Nat) (h : Memory.wf d.arr = true) :
    Memory.wf (d.read off n).chip.arr = true := by
  unfold Device.read
  split
  · simpa using h
  · split
    · simpa using h
    · split
      · simpa using h
      · simpa using d.commit_wf _ h

/-! ## Operations on the state -/

/-- The stores, the chip, the generator and the timer are as the invariant says. -/
def State.RegsOk (s : State) : Prop :=
  s.buffersOk = true ∧ s.chipOk = true ∧ s.genOk = true ∧ s.timerOk = true

theorem State.regsOk_tick {s : State} : s.tick.RegsOk ↔ s.RegsOk := by
  simp [State.RegsOk, State.buffersOk, State.chipOk, State.genOk, State.timerOk]

theorem regsOk_of_next {u t : State} (hu : u.RegsOk)
    (h : (Host.Outcome.next u.tick : Host.Outcome State Fault Refusal) = .next t) : t.RegsOk :=
  Host.Outcome.next.inj h ▸ State.regsOk_tick.mpr hu

theorem SeqOnly.regsOk {s t : State} (h : SeqOnly s t) (hs : s.RegsOk) : t.RegsOk := h.frame ▸ hs

/-- Outside Armed and Running the invariant leaves the timer to the platform. -/
theorem State.timerOk_of_not_owned {s : State} (h : s.timerOwned = false) : s.timerOk = true := by
  cases ht : s.tmrState with
  | idle | stopped => simp [State.timerOk, ht]
  | armed | running => simp [State.timerOwned, ht] at h

namespace State.RegsOk

variable {s : State}

theorem load (h : s.RegsOk) (l : List Micro) : (s.load l).RegsOk := State.regsOk_tick.mpr h

theorem afterTimerResult (h : s.RegsOk) : s.afterTimerResult.RegsOk := by
  unfold State.afterTimerResult
  split <;> exact h

theorem pbufWrite (h : s.RegsOk) {i : Nat} (hi : i < Params.sectorSize) (v : Byte) :
    (s.pbufWrite i v).RegsOk := by
  obtain ⟨hbuf, hrest⟩ := h
  simp only [State.buffersOk, Bool.and_eq_true] at hbuf
  obtain ⟨⟨hpbuf, hsamp⟩, hresult⟩ := hbuf
  exact ⟨by simp [State.buffersOk, storeWf_write v hpbuf hi, hsamp, hresult], hrest⟩

theorem sampWrite (h : s.RegsOk) {i : Nat} (hi : i < Params.sampleCap) (v : U32) :
    (s.sampWrite i v).RegsOk := by
  obtain ⟨hbuf, hrest⟩ := h
  simp only [State.buffersOk, Bool.and_eq_true] at hbuf
  obtain ⟨⟨hpbuf, hsamp⟩, hresult⟩ := hbuf
  exact ⟨by simp [State.buffersOk, hpbuf, storeWf_write v hsamp hi, hresult], hrest⟩

theorem withResult (h : s.RegsOk) {r : List (Nat × Record)}
    (hr : storeWf (Params.numBatteries * Params.numSectors) r = true) :
    State.RegsOk { s with result := r } := by
  obtain ⟨hbuf, hrest⟩ := h
  simp only [State.buffersOk, Bool.and_eq_true] at hbuf
  exact ⟨by simp [State.buffersOk, hbuf.1, hr], hrest⟩

theorem resultClear (h : s.RegsOk) : s.resultClear.RegsOk := h.withResult (storeWf_range _ _)

theorem saveResults (h : s.RegsOk) (b : Battery) (sector : Sector) (n m : Nat) :
    (s.saveResults b sector n m).RegsOk := by
  refine h.withResult (storeWf_write _ ?_ (resultIndex_lt b sector))
  obtain ⟨hbuf, -⟩ := h
  simp only [State.buffersOk, Bool.and_eq_true] at hbuf
  exact hbuf.2

theorem seeded (h : s.RegsOk) : s.seeded.RegsOk := by
  obtain ⟨hbuf, hchip, hgen, htimer⟩ := h
  unfold State.seeded
  split
  · exact ⟨hbuf, hchip, hgen, htimer⟩
  · exact ⟨hbuf, hchip, by simp [State.genOk, State.seedAttempt_eq], htimer⟩

theorem genStep (h : s.RegsOk) : s.genStep.RegsOk := by
  obtain ⟨hbuf, hchip, hgen, htimer⟩ := h
  refine ⟨hbuf, hchip, ?_, htimer⟩
  simp only [State.genOk, Bool.or_eq_true, State.genStep_genInit, State.genStep_gen] at hgen ⊢
  exact hgen.imp_right Gen.nonzero_genAdvance

theorem generatorReturn (h : s.RegsOk) : s.generatorReturn.RegsOk := h.genStep

theorem setupTimer (h : s.RegsOk) : s.setupTimer.RegsOk := by
  obtain ⟨hbuf, hchip, hgen, -⟩ := h
  exact State.regsOk_tick.mpr ⟨hbuf, hchip, hgen, rfl⟩

/-- Running is entered from Armed only, which has masked interrupts and armed the high counter. -/
theorem startTimer (h : s.RegsOk) : s.startTimer.RegsOk := by
  obtain ⟨hbuf, hchip, hgen, htimer⟩ := h
  refine State.regsOk_tick.mpr ⟨hbuf, hchip, hgen, ?_⟩
  by_cases ha : s.tmrState = .armed
  · simp_all [State.timerOk]
  · simp [State.timerOk, ha]

theorem endTimer (h : s.RegsOk) : s.endTimer.RegsOk := by
  obtain ⟨hbuf, hchip, hgen, -⟩ := h
  refine State.regsOk_tick.mpr ⟨hbuf, hchip, hgen, ?_⟩
  by_cases hr : s.tmrState = .running <;> simp [State.timerOk, hr]

theorem busWrite (h : s.RegsOk) (off : U16) (v : Byte) : (s.busWrite off v).RegsOk := by
  obtain ⟨hbuf, hchip, hgen, htimer⟩ := h
  refine State.regsOk_tick.mpr ⟨hbuf, ?_, hgen, htimer⟩
  cases hc : s.chip with
  | oracle answers => rfl
  | reference d => simpa [State.chipOk, Chip.write, hc] using hchip

theorem busRead (h : s.RegsOk) (off : U16) : (s.busRead off).RegsOk := by
  obtain ⟨hbuf, hchip, hgen, htimer⟩ := h
  refine State.regsOk_tick.mpr ⟨hbuf, ?_, hgen, htimer⟩
  cases hc : s.chip with
  | oracle answers => cases answers <;> rfl
  | reference d =>
    simp only [State.chipOk, Chip.read, hc] at hchip ⊢
    exact d.read_wf off s.draws hchip

theorem oneCycle (h : s.RegsOk) {t : State} (hc : OneCycle s t) : t.RegsOk := by
  cases hc with
  | write off v ht => exact ht.regsOk (h.busWrite off v)
  | read off ht => exact ht.regsOk (h.busRead off)

theorem externalReset (h : s.RegsOk) : s.externalReset.RegsOk := by
  obtain ⟨-, hchip, -, -⟩ := h
  exact ⟨rfl, hchip, rfl, rfl⟩

theorem platformWrite (h : s.RegsOk) (ho : s.timerOwned = false) (w : PlatformWrite) :
    (s.platformWrite w).RegsOk := by
  obtain ⟨hbuf, hchip, hgen, -⟩ := h
  have htimer : (s.platformWrite w).timerOk = true :=
    State.timerOk_of_not_owned (by cases w <;> exact ho)
  cases w <;> exact ⟨hbuf, hchip, hgen, htimer⟩

end State.RegsOk

/-! ## Instructions and pending steps -/

theorem execSaveResults_next {battery : BitVec 3} {sector : Sector} {n m : U16} {s t : State}
    (h : execSaveResults battery sector n m s = .next t) :
    ∃ b, t = (s.saveResults b sector n.toNat m.toNat).unspecifyRes.tick := by
  unfold execSaveResults at h
  split at h
  · cases h
  · next b _ =>
    split at h
    · split at h
      · exact ⟨b, (Host.Outcome.next.inj h).symm⟩
      · cases h
    · cases h

theorem execRunBattery_next {battery : BitVec 3} {s t : State}
    (h : execRunBattery battery s = .next t) :
    ∃ b, t = s.load (batterySteps b ++ [.ret .none]) := by
  unfold execRunBattery at h
  split at h
  · cases h
  · next b _ => exact ⟨b, (Host.Outcome.next.inj h).symm⟩

theorem exec_regsOk {i : Instr} {s t : State} (hs : s.RegsOk) (h : exec i s = .next t) :
    t.RegsOk := by
  cases i with
  | scramblerNext => exact regsOk_of_next (u := s.scramble.setRes _) hs h
  | generatorNext =>
    obtain rfl := Host.Outcome.next.inj h
    refine State.regsOk_tick.mpr ?_
    split
    · exact hs.seeded.generatorReturn
    · exact hs.seeded
  | setupTimer => exact Host.Outcome.next.inj h ▸ State.RegsOk.setupTimer (s := s.unspecifyRes) hs
  | startTimer => exact Host.Outcome.next.inj h ▸ State.RegsOk.startTimer (s := s.unspecifyRes) hs
  | endTimer => exact Host.Outcome.next.inj h ▸ State.RegsOk.endTimer (s := s.unspecifyRes) hs
  | getTimerResult =>
    exact regsOk_of_next (u := s.afterTimerResult.setRes (s.timerResult.setWidth 64))
      hs.afterTimerResult h
  | readFlashID | switchFlashBank _ | eraseSector _ | eraseSectorTimed _ | programByte _ _ _
  | programByteTimed _ _ _ | zeroSector _ | randomizeSector _ =>
    exact Host.Outcome.next.inj h ▸ hs.load _
  | saveResults battery sector n m =>
    obtain ⟨b, rfl⟩ := execSaveResults_next h
    exact State.regsOk_tick.mpr (hs.saveResults b sector _ _)
  | runBattery battery =>
    obtain ⟨b, rfl⟩ := execRunBattery_next h
    exact hs.load _
  | runFullTest => exact Host.Outcome.next.inj h ▸ hs.resultClear.load _
  | unlock1 | unlock2 | cmdIdEntry | cmdIdExit | cmdBank | bankData _ | cmdEraseSetup
  | sectorErase _ | cmdProgram | programData _ _ _ | abort | rdId0 | rdId1 | rdPoll _ _
  | rdVerify _ _ => exact hs.oneCycle (exec_oneCycle (by simp [Instr.busRow]) h)

theorem State.RegsOk.runDrawPbuf {s : State} (h : s.RegsOk) (off : Nat) :
    (s.runDrawPbuf off).RegsOk := by
  unfold State.runDrawPbuf
  split
  · next hoff =>
    split
    · exact h.seeded.genStep.pbufWrite hoff _
    · exact h.seeded
  · exact h

theorem State.RegsOk.runSeedRetry {s : State} (h : s.RegsOk) : s.runSeedRetry.RegsOk := by
  unfold State.runSeedRetry
  split
  · exact h.seeded.generatorReturn
  · exact h.seeded

theorem runCollect_regsOk {s t : State} (hs : s.RegsOk) (h : s.runCollect = .next t) :
    t.RegsOk := by
  obtain ⟨hn, rfl⟩ | rfl := runCollect_next h
  · exact State.regsOk_tick.mpr (hs.afterTimerResult.sampWrite hn _)
  · exact State.regsOk_tick.mpr hs

theorem runMicro_regsOk {m : Micro} {s t : State} (hs : s.RegsOk) (h : runMicro m s = .next t) :
    t.RegsOk := by
  cases m with
  | abortOnFailure | retryProgram _ _ _ | fill _ _ _ | verify _ _ _ | verifyTest _ _ | eraseGate _
  | sectorLoop _ _ | sectorBody _ _ | trial _ _ _ | programLoop _ _ _ | batteries _ =>
    obtain ⟨u, hu, rfl⟩ := runMicro_internal rfl h
    exact State.regsOk_tick.mpr (hu.regsOk hs)
  | cycle i => exact exec_regsOk hs h
  | poll _ _ _ => exact hs.oneCycle (runPoll_oneCycle h)
  | setupTimer => exact Host.Outcome.next.inj h ▸ hs.setupTimer
  | startTimer => exact Host.Outcome.next.inj h ▸ hs.startTimer
  | endTimer => exact Host.Outcome.next.inj h ▸ hs.endTimer
  | latchId => exact regsOk_of_next (u := s.runLatchId) hs h
  | drawPbuf off => exact regsOk_of_next (hs.runDrawPbuf off) h
  | collect => exact runCollect_regsOk hs h
  | saveSector _ _ => exact regsOk_of_next (hs.saveResults _ _ _ _) h
  | seedRetry => exact regsOk_of_next hs.runSeedRetry h
  | ret kind => exact regsOk_of_next (u := s.finish kind) (by cases kind <;> exact hs) h

end Sys2Proof.Machine

/-! The sequencer's part of the invariant (spec/10_state.md R34, R38, spec/45_orchestrator.md R182,
spec/60_exceptions.md R213): room in SAMP for every sample still to come, and a return at the end of
what is pending. -/

namespace Sys2Proof.Machine

/-! ## Room for the samples still to come -/

/-- SAMP has room for every sample the pending steps may append. -/
def State.Fits (s : State) : Prop := samplesFit s.seq.n s.seq.todo = true

theorem State.fits_tick {s : State} : s.tick.Fits ↔ s.Fits := by simp [State.Fits]

theorem State.fits_of_seq {s t : State} (h : t.seq = s.seq) (hs : s.Fits) : t.Fits := by
  rwa [State.Fits, h]

theorem fits_of_next {u t : State} (hu : u.Fits)
    (h : (Host.Outcome.next u.tick : Host.Outcome State Fault Refusal) = .next t) : t.Fits :=
  Host.Outcome.next.inj h ▸ State.fits_tick.mpr hu

theorem State.fits_ite {c : Prop} [Decidable c] {t u : State} (ht : t.Fits) (hu : u.Fits) :
    (if c then t else u).Fits := by
  split
  · exact ht
  · exact hu

/-- What fits after more samples fits after fewer. -/
theorem samplesFit_anti {l : List Micro} {k n : Nat} (hkn : k ≤ n) (h : samplesFit n l = true) :
    samplesFit k l = true := by
  induction l generalizing k n with
  | nil => rfl
  | cons m rest ih =>
    cases m with
    | ret _ => rfl
    | sectorBody _ _ => exact h
    | sectorLoop _ _ | batteries _ => exact ih (max_le_max_right _ hkn) h
    | collect | programLoop _ _ _ | trial _ _ _ =>
      simp only [samplesFit, Bool.and_eq_true, decide_eq_true_eq] at h ⊢
      exact ⟨by omega, ih (by omega) h.2⟩
    | cycle _ | setupTimer | startTimer | endTimer | poll _ _ _ | abortOnFailure | latchId
    | retryProgram _ _ _ | fill _ _ _ | verify _ _ _ | verifyTest _ _ | drawPbuf _ | eraseGate _
    | saveSector _ _ | seedRetry => exact ih hkn h

/-- A trial needs room for its own samples. -/
theorem samplesFit_trialSteps {b : Battery} {n : Nat} (h : n + samplesPerTrial b ≤ Params.sampleCap)
    (sector : Sector) (rest : List Micro) :
    samplesFit n (trialSteps b sector ++ rest) = samplesFit (n + samplesPerTrial b) rest := by
  cases b with
  | eraseAfterFF | eraseAfter00 | eraseAfterRandom =>
    have hn : n < Params.sampleCap := h
    change (decide (n < Params.sampleCap) && samplesFit (n + 1) rest) = _
    rw [decide_eq_true hn, Bool.true_and]
    rfl
  | programFF | program00 | programRandom =>
    have hn : n + Params.sectorSize ≤ Params.sampleCap := h
    change (decide (n + Params.sectorSize ≤ Params.sampleCap) &&
      samplesFit (n + Params.sectorSize) rest) = _
    rw [decide_eq_true hn, Bool.true_and]
    rfl

theorem State.runTrial_fits {s : State} {b : Battery} {sector : Sector} {t : Nat}
    (h : samplesFit s.seq.n (.trial b sector t :: s.seq.todo) = true) :
    (s.runTrial b sector t).Fits := by
  simp only [samplesFit, Bool.and_eq_true, decide_eq_true_eq] at h
  obtain ⟨hroom, hrest⟩ := h
  unfold State.runTrial
  split
  · next ht =>
    have hsplit : (b.trials - t) * samplesPerTrial b =
        samplesPerTrial b + (b.trials - (t + 1)) * samplesPerTrial b := by
      rw [show b.trials - t = b.trials - (t + 1) + 1 by omega, Nat.succ_mul, Nat.add_comm]
    rw [hsplit, ← Nat.add_assoc] at hroom hrest
    simp only [State.Fits, State.push_seq, List.append_assoc]
    rw [samplesFit_trialSteps (by omega)]
    simp [samplesFit, hroom, hrest]
  · exact samplesFit_anti (Nat.le_add_right _ _) hrest

theorem State.runProgramLoop_fits {s : State} {b : Battery} {sector : Sector} {off : Nat}
    (h : samplesFit s.seq.n (.programLoop b sector off :: s.seq.todo) = true) :
    (s.runProgramLoop b sector off).Fits := by
  simp only [samplesFit, Bool.and_eq_true, decide_eq_true_eq] at h
  obtain ⟨hroom, hrest⟩ := h
  unfold State.runProgramLoop
  split
  · next hoff =>
    change samplesFit s.seq.n (.collect :: .programLoop b sector (off + 1) :: s.seq.todo) = true
    rw [show s.seq.n + (Params.sectorSize - off) =
      s.seq.n + 1 + (Params.sectorSize - (off + 1)) by omega] at hroom hrest
    simp only [samplesFit, Bool.and_eq_true, decide_eq_true_eq]
    exact ⟨by omega, hroom, hrest⟩
  · exact samplesFit_anti (Nat.le_add_right _ _) hrest

theorem State.runSectorLoop_fits {s : State} {b : Battery} {sector : Nat}
    (h : samplesFit s.seq.n (.sectorLoop b sector :: s.seq.todo) = true) :
    (s.runSectorLoop b sector).Fits := by
  change samplesFit (max s.seq.n b.maxPossible) s.seq.todo = true at h
  have hrest : samplesFit (max b.maxPossible b.maxPossible) s.seq.todo = true :=
    samplesFit_anti (by omega) h
  unfold State.runSectorLoop
  split
  · simp only [State.Fits, State.push_seq, List.append_assoc]
    split <;> exact hrest
  · exact samplesFit_anti (le_max_left _ _) h

theorem State.runSectorBody_fits {s : State} {b : Battery} {sector : Sector}
    (h : samplesFit s.seq.n (.sectorBody b sector :: s.seq.todo) = true) :
    (s.runSectorBody b sector).Fits := by
  have htrial : samplesFit 0 (.trial b sector 0 :: s.seq.todo) = true := by
    have hcap := maxPossible_le b
    simp only [samplesFit, Nat.sub_zero, Nat.zero_add, trials_samples, Bool.and_eq_true,
      decide_eq_true_eq]
    exact ⟨hcap, h⟩
  cases b <;> exact htrial

theorem State.runBatteries_fits {s : State} {l : List Battery}
    (h : samplesFit s.seq.n (.batteries l :: s.seq.todo) = true) : (s.runBatteries l).Fits := by
  cases l with
  | nil => exact samplesFit_anti (le_max_left _ _) h
  | cons b l =>
    change samplesFit (max (max s.seq.n b.maxPossible) Params.sampleCap) s.seq.todo = true
    exact samplesFit_anti (max_le (max_le_max_left _ (maxPossible_le b)) (le_max_right _ _)) h

theorem runCollect_fits {s t : State} (hs : samplesFit s.seq.n (.collect :: s.seq.todo) = true)
    (h : s.runCollect = .next t) : t.Fits := by
  simp only [samplesFit, Bool.and_eq_true] at hs
  obtain ⟨-, hrest⟩ := hs
  obtain ⟨-, rfl⟩ | rfl := runCollect_next h
  · exact State.fits_tick.mpr hrest
  · exact State.fits_tick.mpr (samplesFit_anti (Nat.le_succ _) hrest)

/-! ## What an instruction does to the sequencer -/

/-- The steps with which an operation returns to the host. -/
def Micro.isReturn : Micro → Bool
  | .ret _ | .seedRetry => true
  | .cycle _ | .setupTimer | .startTimer | .endTimer | .poll _ _ _ | .abortOnFailure | .latchId
  | .retryProgram _ _ _ | .fill _ _ _ | .verify _ _ _ | .verifyTest _ _ | .drawPbuf _
  | .eraseGate _ | .sectorLoop _ _ | .sectorBody _ _ | .trial _ _ _ | .programLoop _ _ _
  | .collect | .saveSector _ _ | .batteries _ => false

/-- `t` is `s` with steps loaded in front that end in a return, and with room for their samples. -/
structure Loaded (s t : State) : Prop where
  todo : ∃ l m, m.isReturn = true ∧ t.seq.todo = l ++ m :: s.seq.todo
  fits : s.Fits → t.Fits

theorem Loaded.load {s u : State} {l : List Micro} {kind : RetKind} (hu : u.seq = s.seq)
    (hl : ∀ n rest, samplesFit n (l ++ .ret kind :: rest) = true) :
    Loaded s (u.load (l ++ [.ret kind])) := by
  have htodo : (u.load (l ++ [.ret kind])).seq.todo = l ++ .ret kind :: s.seq.todo := by simp [hu]
  refine ⟨⟨l, _, rfl, htodo⟩, fun _ => ?_⟩
  rw [State.Fits, htodo]
  exact hl _ _

/-- An operation that is one step long leaves the sequencer alone, any other loads its steps. -/
theorem exec_operation {i : Instr} {s t : State} (hi : i.busRow = none) (h : exec i s = .next t) :
    t.seq = s.seq ∨ Loaded s t := by
  cases i with
  | scramblerNext | setupTimer | startTimer | endTimer | getTimerResult =>
    obtain rfl := Host.Outcome.next.inj h
    exact .inl (by simp)
  | generatorNext =>
    obtain rfl := Host.Outcome.next.inj h
    split
    · exact .inl (by simp [State.generatorReturn])
    · exact .inr ⟨⟨[], .seedRetry, rfl, by simp⟩,
        fun hs => by simpa [State.Fits, samplesFit] using hs⟩
  | readFlashID | switchFlashBank _ | eraseSector _ | eraseSectorTimed _ | programByte _ _ _
  | programByteTimed _ _ _ | zeroSector _ | randomizeSector _ =>
    exact .inr (Host.Outcome.next.inj h ▸ .load rfl fun _ _ => rfl)
  | saveResults battery sector n m =>
    obtain ⟨b, rfl⟩ := execSaveResults_next h
    exact .inl (by simp)
  | runBattery battery =>
    obtain ⟨b, rfl⟩ := execRunBattery_next h
    exact .inr (.load rfl fun _ _ => rfl)
  | runFullTest =>
    exact .inr (Host.Outcome.next.inj h ▸
      Loaded.load (u := s.resultClear) (l := [.batteries allBatteries]) rfl fun _ _ => rfl)
  | unlock1 | unlock2 | cmdIdEntry | cmdIdExit | cmdBank | bankData _ | cmdEraseSetup
  | sectorErase _ | cmdProgram | programData _ _ _ | abort | rdId0 | rdId1 | rdPoll _ _
  | rdVerify _ _ => cases hi

/-- A bus cycle neither loads steps nor counts a sample. -/
theorem exec_cycle_fits {i : Instr} {s t : State} (hi : i.busRow ≠ none) (hs : s.Fits)
    (h : exec i s = .next t) : t.Fits := by
  cases i with
  | unlock1 | unlock2 | cmdIdEntry | cmdIdExit | cmdBank | bankData _ | cmdEraseSetup
  | sectorErase _ | cmdProgram | programData _ _ _ | abort | rdId0 | rdId1 | rdPoll _ _
  | rdVerify _ _ =>
    obtain rfl := Host.Outcome.next.inj h
    simpa [State.Fits] using hs
  | scramblerNext | generatorNext | setupTimer | startTimer | endTimer | getTimerResult | readFlashID
  | switchFlashBank _ | eraseSector _ | eraseSectorTimed _ | programByte _ _ _
  | programByteTimed _ _ _ | zeroSector _ | randomizeSector _ | saveResults _ _ _ _ | runBattery _
  | runFullTest => exact absurd rfl hi

theorem exec_fits {i : Instr} {s t : State} (hs : s.Fits) (h : exec i s = .next t) : t.Fits := by
  by_cases hi : i.busRow = none
  · obtain hseq | hload := exec_operation hi h
    · exact State.fits_of_seq hseq hs
    · exact hload.fits hs
  · exact exec_cycle_fits hi hs h

theorem OneCycle.pending {s t : State} (h : OneCycle s t) : s.seq.todo <:+ t.seq.todo := by
  cases h with
  | write off v h => simpa using h.pending
  | read off h => simpa using h.pending

theorem exec_pending {i : Instr} {s t : State} (h : exec i s = .next t) :
    s.seq.todo <:+ t.seq.todo := by
  by_cases hi : i.busRow = none
  · obtain hseq | ⟨⟨l, m, -, htodo⟩, -⟩ := exec_operation hi h
    · rw [hseq]
    · rw [htodo]
      exact (List.suffix_cons m _).trans (List.suffix_append l _)
  · exact (exec_oneCycle hi h).pending

/-! ## What a pending step does to the sequencer -/

theorem State.runPollTest_fits {s : State} (h : s.Fits) (sec : BankSector) (offset : Offset)
    (expected : Byte) : (s.runPollTest sec offset expected).Fits := by
  unfold State.runPollTest
  split <;> exact h

theorem runPoll_fits {sec : BankSector} {offset : Offset} {expected : Byte} {s t : State}
    (hs : s.Fits) (h : runPoll sec offset expected s = .next t) : t.Fits := by
  obtain rfl := Host.Outcome.next.inj h
  exact State.runPollTest_fits (exec_fits (i := .rdPoll sec offset) hs rfl) ..

theorem State.runFill_fits {s : State} (h : s.Fits) (src : Fill) (sector : Sector) (off : Nat) :
    (s.runFill src sector off).Fits := State.fits_ite h (by cases src <;> exact h)

theorem State.runVerify_fits {s : State} (h : s.Fits) (src : Fill) (sector : Sector) (off : Nat) :
    (s.runVerify src sector off).Fits := State.fits_ite h (State.fits_ite h h)

theorem State.verifyByte_fits {s : State} (h : s.Fits) (src : Fill) (off : Nat) :
    (s.verifyByte src off).Fits := by
  cases src with
  | zero | random => exact State.fits_ite h h

theorem State.runDrawPbuf_fits {s : State} (h : s.Fits) (off : Nat) : (s.runDrawPbuf off).Fits := by
  have hseeded : s.seeded.Fits := State.fits_of_seq s.seeded_seq h
  exact State.fits_ite (State.fits_ite hseeded hseeded) h

theorem State.runSeedRetry_fits {s : State} (h : s.Fits) : s.runSeedRetry.Fits := by
  have hseeded : s.seeded.Fits := State.fits_of_seq s.seeded_seq h
  exact State.fits_ite rfl hseeded

/-- A step of the running operation keeps room for the samples still to come. -/
theorem runMicro_fits {m : Micro} {s t : State} (hs : samplesFit s.seq.n (m :: s.seq.todo) = true)
    (h : runMicro m s = .next t) : t.Fits := by
  cases m with
  | cycle i => exact exec_fits hs h
  | poll _ _ _ => exact runPoll_fits hs h
  | collect => exact runCollect_fits hs h
  | setupTimer => exact Host.Outcome.next.inj h ▸ State.fits_of_seq s.setupTimer_seq hs
  | startTimer => exact Host.Outcome.next.inj h ▸ State.fits_of_seq s.startTimer_seq hs
  | endTimer => exact Host.Outcome.next.inj h ▸ State.fits_of_seq s.endTimer_seq hs
  | abortOnFailure => exact fits_of_next (u := s.runAbortOnFailure) (State.fits_ite hs hs) h
  | retryProgram _ _ _ => exact fits_of_next (u := s.runRetryProgram ..) (State.fits_ite hs hs) h
  | eraseGate _ => exact fits_of_next (u := s.runEraseGate _) (State.fits_ite hs hs) h
  | latchId => exact fits_of_next (u := s.runLatchId) hs h
  | saveSector _ _ => exact fits_of_next (u := s.runSaveSector ..) hs h
  | fill src sector off => exact fits_of_next (State.runFill_fits hs ..) h
  | verify src sector off => exact fits_of_next (State.runVerify_fits hs ..) h
  | verifyTest src off => exact fits_of_next (State.verifyByte_fits hs ..) h
  | drawPbuf off => exact fits_of_next (State.runDrawPbuf_fits hs off) h
  | sectorLoop _ _ => exact fits_of_next (State.runSectorLoop_fits hs) h
  | sectorBody _ _ => exact fits_of_next (State.runSectorBody_fits hs) h
  | trial _ _ _ => exact fits_of_next (State.runTrial_fits hs) h
  | programLoop _ _ _ => exact fits_of_next (State.runProgramLoop_fits hs) h
  | batteries _ => exact fits_of_next (State.runBatteries_fits hs) h
  | seedRetry => exact fits_of_next (State.runSeedRetry_fits hs) h
  | ret kind => exact fits_of_next (u := s.finish kind) (by cases kind <;> rfl) h

theorem State.runDrawPbuf_pending (s : State) (off : Nat) :
    s.seq.todo <:+ (s.runDrawPbuf off).seq.todo := by
  unfold State.runDrawPbuf
  split
  · split <;> simp
  · exact List.suffix_rfl

theorem runCollect_pending {s t : State} (h : s.runCollect = .next t) :
    t.seq.todo = s.seq.todo := by
  obtain ⟨-, rfl⟩ | rfl := runCollect_next h
  · simp [State.appendSample]
  · simp

/-- A return ends the operation, or seeding is still to be repeated. -/
theorem runMicro_return {m : Micro} {s t : State} (hm : m.isReturn = true)
    (h : runMicro m s = .next t) :
    t.seq = Sequencer.empty ∨ t.seq.todo = .seedRetry :: s.seq.todo := by
  cases m with
  | seedRetry =>
    obtain rfl := Host.Outcome.next.inj h
    unfold State.runSeedRetry
    split
    · exact .inl (by simp)
    · exact .inr (by simp)
  | ret kind =>
    obtain rfl := Host.Outcome.next.inj h
    exact .inl (by cases kind <;> simp [State.finish])
  | cycle _ | setupTimer | startTimer | endTimer | poll _ _ _ | abortOnFailure | latchId
  | retryProgram _ _ _ | fill _ _ _ | verify _ _ _ | verifyTest _ _ | drawPbuf _ | eraseGate _
  | sectorLoop _ _ | sectorBody _ _ | trial _ _ _ | programLoop _ _ _ | collect | saveSector _ _
  | batteries _ => cases hm

/-- Until the operation returns, what is pending behind a step stays pending. -/
theorem runMicro_pending {m : Micro} {s t : State} (h : runMicro m s = .next t) :
    t.seq = Sequencer.empty ∨ s.seq.todo <:+ t.seq.todo := by
  cases m with
  | abortOnFailure | retryProgram _ _ _ | fill _ _ _ | verify _ _ _ | verifyTest _ _ | eraseGate _
  | sectorLoop _ _ | sectorBody _ _ | trial _ _ _ | programLoop _ _ _ | batteries _ =>
    obtain ⟨u, hu, rfl⟩ := runMicro_internal rfl h
    exact .inr (by simpa using hu.pending)
  | cycle i => exact .inr (exec_pending h)
  | poll _ _ _ => exact .inr (runPoll_oneCycle h).pending
  | setupTimer | startTimer | endTimer | latchId | saveSector _ _ =>
    obtain rfl := Host.Outcome.next.inj h
    exact .inr (by simp [State.runLatchId, State.runSaveSector])
  | drawPbuf off =>
    obtain rfl := Host.Outcome.next.inj h
    exact .inr (by simpa using s.runDrawPbuf_pending off)
  | collect => exact .inr (runCollect_pending h ▸ List.suffix_rfl)
  | seedRetry | ret _ =>
    obtain hempty | htodo := runMicro_return rfl h
    · exact .inl hempty
    · exact .inr (htodo ▸ List.suffix_cons _ _)

end Sys2Proof.Machine

/-! The invariant holds after reset and every step keeps it. -/

namespace Sys2Proof

/-! ## A request is never decoded to a bus cycle (spec/30_encoding.md R90, R92) -/

/-- What is decoded, if anything, is an operation. -/
def DecodesOperation (x : Except DecodeError Instr) : Prop := ∀ i, x = .ok i → i.busRow = none

namespace DecodesOperation

theorem ok {i : Instr} (h : i.busRow = none) : DecodesOperation (.ok i) :=
  fun _ hi => Except.ok.inj hi ▸ h

theorem error (e : DecodeError) : DecodesOperation (.error e) := nofun

theorem ite {c : Prop} [Decidable c] {x y : Except DecodeError Instr} (hx : DecodesOperation x)
    (hy : DecodesOperation y) : DecodesOperation (if c then x else y) := by
  split
  · exact hx
  · exact hy

theorem decodeBank (r : Request) : DecodesOperation (decodeBank r) := by
  unfold Sys2Proof.decodeBank
  split
  · exact .error _
  · exact .ok rfl

theorem decodeBattery (r : Request) : DecodesOperation (decodeBattery r) := by
  unfold Sys2Proof.decodeBattery
  split
  · exact .error _
  · exact .ite (.ok rfl) (.error _)

theorem decodeSector {build : Sector → Instr} (hb : ∀ sector, (build sector).busRow = none)
    (r : Request) : DecodesOperation (decodeSector build r) := by
  unfold Sys2Proof.decodeSector
  split
  · exact .error _
  · exact .ok (hb _)

theorem decodeProgram {build : Sector → Offset → Byte → Instr}
    (hb : ∀ sector offset value, (build sector offset value).busRow = none) (r : Request) :
    DecodesOperation (decodeProgram build r) := by
  unfold Sys2Proof.decodeProgram
  split
  · exact .error _
  · split
    · exact .error _
    · split
      · exact .error _
      · exact .ok (hb _ _ _)

theorem decodeSaveResults (r : Request) : DecodesOperation (decodeSaveResults r) := by
  unfold Sys2Proof.decodeSaveResults
  split
  · exact .error _
  · split
    · exact .error _
    · split
      · exact .error _
      · exact .ite (.ite (.ite (.ok rfl) (.error _)) (.error _)) (.error _)

/-- The rows of R92 in order. -/
theorem decodeRequest (r : Request) : DecodesOperation (decodeRequest r) :=
  .ite (.ok rfl) <| .ite (.ok rfl) <| .ite (.ok rfl) <| .ite (.ok rfl) <| .ite (.ok rfl) <|
  .ite (.ok rfl) <| .ite (.ok rfl) <| .ite (.decodeBank r) <|
  .ite (.decodeSector (fun _ => rfl) r) <| .ite (.decodeSector (fun _ => rfl) r) <|
  .ite (.decodeProgram (fun _ _ _ => rfl) r) <| .ite (.decodeProgram (fun _ _ _ => rfl) r) <|
  .ite (.decodeSector (fun _ => rfl) r) <| .ite (.decodeSector (fun _ => rfl) r) <|
  .ite (.decodeSaveResults r) <| .ite (.decodeBattery r) <| .ite (.ok rfl) <| .error _

end DecodesOperation

end Sys2Proof

namespace Sys2Proof.Machine

/-! ## The invariant in parts -/

/-- The list ends in a return to the host. -/
def EndsInReturn (l : List Micro) : Prop := ∃ k m, m.isReturn = true ∧ l = k ++ [m]

theorem EndsInReturn.of_suffix {l k : List Micro} (h : EndsInReturn l) (hk : l <:+ k) :
    EndsInReturn k := by
  obtain ⟨l', m, hm, rfl⟩ := h
  obtain ⟨k', rfl⟩ := hk
  exact ⟨k' ++ l', m, hm, (List.append_assoc ..).symm⟩

/-- The last step is a return, or the return is among the steps behind it. -/
theorem EndsInReturn.cons {m : Micro} {l : List Micro} (h : EndsInReturn (m :: l)) :
    l = [] ∧ m.isReturn = true ∨ EndsInReturn l := by
  obtain ⟨k, r, hr, hl⟩ := h
  cases k with
  | nil =>
    obtain ⟨rfl, rfl⟩ := List.cons.inj hl
    exact .inl ⟨rfl, hr⟩
  | cons a k => exact .inr ⟨k, r, hr, (List.cons.inj hl).2⟩

theorem State.seqOk_iff (s : State) :
    s.seqOk = true ↔ s.seq = Sequencer.empty ∨ EndsInReturn s.seq.todo := by
  obtain hnil | ⟨l, m, hl⟩ := s.seq.todo.eq_nil_or_concat
  · simp [State.seqOk, EndsInReturn, hnil]
  · rw [List.concat_eq_append] at hl
    have hne : s.seq ≠ Sequencer.empty := fun h => by simp [h, Sequencer.empty] at hl
    have hend : EndsInReturn s.seq.todo ↔ m.isReturn = true := by
      refine ⟨fun ⟨k, r, hr, hk⟩ => ?_, fun hm => ⟨l, m, hm, hl⟩⟩
      obtain ⟨-, hlast⟩ := List.append_inj' (hl.symm.trans hk) rfl
      rwa [List.singleton_inj.mp hlast]
    rw [hend]
    cases m <;> simp [State.seqOk, Micro.isReturn, hl, hne]

theorem State.inv_iff (s : State) :
    s.Inv ↔ s.RegsOk ∧ (s.seq = Sequencer.empty ∨ EndsInReturn s.seq.todo) ∧ s.Fits := by
  rw [← State.seqOk_iff]
  simp [State.Inv, State.inv, State.RegsOk, State.Fits, and_assoc]

/-! ## Every step keeps the invariant -/

/-- A step of a running operation leaves it returned, or with its return still to come. -/
theorem runMicro_seq {m : Micro} {s t : State} (hs : EndsInReturn (m :: s.seq.todo))
    (h : runMicro m s = .next t) : t.seq = Sequencer.empty ∨ EndsInReturn t.seq.todo := by
  obtain ⟨hnil, hm⟩ | hrest := hs.cons
  · exact (runMicro_return hm h).imp_right fun ht => ⟨[], .seedRetry, rfl, by rw [ht, hnil]; rfl⟩
  · exact (runMicro_pending h).imp_right hrest.of_suffix

theorem engineStep_inv {s t : State} (hs : s.Inv) (h : engineStep s = .next t) : t.Inv := by
  unfold engineStep at h
  split at h
  · exact Host.Outcome.next.inj h ▸ hs
  · next m rest htodo =>
    rw [State.inv_iff] at hs ⊢
    obtain ⟨hregs, hseq, hfits⟩ := hs
    rw [State.Fits, htodo] at hfits
    rw [htodo] at hseq
    have hend : EndsInReturn (m :: rest) :=
      hseq.resolve_left fun he => by simp [he, Sequencer.empty] at htodo
    exact ⟨runMicro_regsOk (s := s.withTodo rest) hregs h,
      runMicro_seq (s := s.withTodo rest) hend h,
      runMicro_fits (s := s.withTodo rest) hfits h⟩

/-- An operation taken at the port, with nothing pending. -/
theorem exec_inv {i : Instr} {s t : State} (hi : i.busRow = none) (hs : s.Inv)
    (htodo : s.seq.todo = []) (h : exec i s = .next t) : t.Inv := by
  rw [State.inv_iff] at hs ⊢
  obtain ⟨hregs, hseq, hfits⟩ := hs
  refine ⟨exec_regsOk hregs h, ?_, exec_fits hfits h⟩
  obtain heq | ⟨⟨l, m, hm, hl⟩, -⟩ := exec_operation hi h
  · rwa [heq]
  · exact .inr ⟨l, m, hm, htodo ▸ hl⟩

theorem acceptRequest_inv {r : Request} {s t : State} (hs : s.Inv) (htodo : s.seq.todo = [])
    (h : acceptRequest r s = .next t) : t.Inv := by
  unfold acceptRequest at h
  split at h
  · cases h
  · next i hd =>
    exact exec_inv (s := s.present r) (DecodesOperation.decodeRequest r i hd) hs htodo h

theorem acceptPlatform_inv {w : PlatformWrite} {s t : State} (hs : s.Inv)
    (h : acceptPlatform w s = .next t) : t.Inv := by
  unfold acceptPlatform at h
  split at h
  · cases h
  · next ho =>
    obtain rfl := Host.Outcome.next.inj h
    rw [State.inv_iff] at hs ⊢
    obtain ⟨hregs, hseq⟩ := hs
    exact ⟨hregs.platformWrite (by simpa using ho) w, by cases w <;> exact hseq⟩

theorem State.externalReset_inv {s : State} (hs : s.Inv) : s.externalReset.Inv := by
  rw [State.inv_iff] at hs ⊢
  exact ⟨hs.1.externalReset, .inl rfl, rfl⟩

theorem State.todo_eq_nil_of_not_busy {s : State} (h : ¬ s.busy = true) : s.seq.todo = [] := by
  simpa [State.busy] using h

/-- Settles O42, by what the host lets the step be. -/
theorem stepKeepsInvariant : Obligations.StepKeepsInvariant := by
  intro s t hs h
  have hhost (rest : List HostMove) : State.Inv { s with host := rest } := hs
  unfold step hostStep at h
  split at h
  · exact engineStep_inv hs h
  · exact Host.Outcome.next.inj h ▸ State.externalReset_inv (hhost _)
  · exact engineStep_inv (hhost _) h
  · next r rest _ =>
    split at h
    · exact engineStep_inv hs h
    · next hb => exact acceptRequest_inv (hhost rest) (State.todo_eq_nil_of_not_busy hb) h
  · next w rest _ =>
    split at h
    · exact engineStep_inv hs h
    · exact acceptPlatform_inv (hhost rest) h

/-- Settles O40: the values are those of the state after reset. -/
theorem resetValues : Obligations.ResetValues := ⟨rfl, rfl, rfl, rfl, rfl, rfl, rfl⟩

/-- Settles O41: the stores and the sequencer are empty and the generator is not seeded. -/
theorem invariantAfterReset : Obligations.InvariantAfterReset := rfl

end Sys2Proof.Machine


/-! Addresses in numbers and in bits: of the window (spec/20_memory.md R51) and of the reference
device's array (R61, R72). -/

namespace Sys2Proof.Machine

/-- The first byte of a sector has position 0 in it. -/
@[simp] theorem windowAddr_zero_and_0x0FFF (sec : BankSector) :
    windowAddr sec 0#12 &&& 0x0FFF#16 = 0#16 := by
  apply BitVec.eq_of_toNat_eq
  have hmask : (0x0FFF#16).toNat = 2 ^ 12 - 1 := rfl
  rw [BitVec.toNat_and, windowAddr_toNat, hmask, Nat.and_two_pow_sub_one_eq_mod]
  simp

/-- The first offset of the sector of `a`. -/
theorem and_0xF000_toNat (a : U16) : (a &&& 0xF000#16).toNat = a.toNat / 4096 * 4096 := by
  have h : a &&& 0xF000#16 = a >>> 12 <<< 12 := by
    ext i hi
    interval_cases i <;> simp
  rw [h, BitVec.toNat_shiftLeft, BitVec.toNat_ushiftRight, Nat.shiftRight_eq_div_pow,
    Nat.shiftLeft_eq]
  omega

theorem flashAddr_zero_and_0xF000 (sector : Sector) :
    flashAddr sector 0 &&& 0xF000#16 = flashAddr sector 0 := by
  apply BitVec.eq_of_toNat_eq
  rw [and_0xF000_toNat]
  simp only [flashAddr, BitVec.toNat_ofNat, Params.sectorsPerBank, Params.sectorSize]
  omega

/-- A cell of the array belongs to one offset of one bank. -/
theorem cellAddr_inj {bank bank' : BitVec 1} {off off' : U16} :
    cellAddr bank off = cellAddr bank' off' ↔ bank' = bank ∧ off' = off := by
  have h := off.isLt
  have h' := off'.isLt
  simp only [cellAddr, Params.windowSize, ← BitVec.toNat_inj]
  omega

/-- The 4096 cells from the first of a sector on are those of the sector. -/
theorem mem_sector_iff {bank bank' : BitVec 1} {off off' : U16} :
    (cellAddr bank (off &&& 0xF000#16) ≤ cellAddr bank' off' ∧
      cellAddr bank' off' < cellAddr bank (off &&& 0xF000#16) + Params.sectorSize) ↔
    bank' = bank ∧ off' &&& 0xF000#16 = off &&& 0xF000#16 := by
  have h := off.isLt
  have h' := off'.isLt
  simp only [cellAddr, Params.windowSize, Params.sectorSize, ← BitVec.toNat_inj, and_0xF000_toNat]
  omega

/-- Settles O19: the address is put together from the sector-in-bank number and the position. -/
theorem byteAddrOfSectorAndOffset : Obligations.ByteAddrOfSectorAndOffset := by
  have haddr (sector : Sector) (offset : Offset) :
      (byteAddr sector offset).toNat = sector.toNat % 16 * 4096 + offset.toNat := by
    rw [byteAddr, windowAddr_toNat, sectorInBank_toNat]
  exact fun sector offset => ⟨haddr sector offset, (haddr sector 0).trans (Nat.add_zero _)⟩

/-- Settles O57: what is read after a write and after an erase, with the cells named by bank and
offset. -/
theorem deviceArrayReadsBack : Obligations.DeviceArrayReadsBack := by
  intro arr bank bank' off off' v
  constructor
  · rw [Memory.read_write]
    exact if_congr cellAddr_inj rfl rfl
  · rw [Memory.read_eraseSector]
    exact if_congr mem_sector_iff rfl rfl

end Sys2Proof.Machine

/-! Every step keeps the bus in the language of spec/30_encoding.md R95: what is loaded or pushed is
whole commands, and each cycle is the one its place in a command names. -/

namespace Sys2Proof.Machine

/-! ## Command sequences -/

/-- The steps `l` keep to the sequences of R95 and take the expected phase from `x` to `y`. -/
def Leads (x : Expect) (l : List Micro) (y : Expect) : Prop :=
  ∀ rest, follows y rest = true → follows x (l ++ rest) = true

/-- The steps `l` are whole commands, with internal steps between them. -/
abbrev WholeCommands (l : List Micro) : Prop := Leads (.stands .idle) l (.stands .idle)

namespace Leads

variable {x y z : Expect} {m : Micro} {l k : List Micro}

theorem nil (x : Expect) : Leads x [] x := fun _ h => h

theorem cons (hm : x.after m = some y) (hl : Leads y l z) : Leads x (m :: l) z := fun rest h => by
  rw [List.cons_append, follows, hm]
  exact hl rest h

theorem single (hm : x.after m = some y) : Leads x [m] y := cons hm (nil y)

theorem append (hl : Leads x l y) (hk : Leads y k z) : Leads x (l ++ k) z := fun rest h => by
  rw [List.append_assoc]
  exact hl _ (hk rest h)

end Leads

theorem after_sectorErase (sec : BankSector) :
    (Expect.stands .eraseUnlocked).after (.cycle (.sectorErase sec)) =
      some (.stands (.polling (windowAddr sec 0) 0xFF)) := by
  simp [Expect.after, Phase.cycle, Phase.write, Phase.next]

theorem after_bankData (bank : BitVec 1) :
    (Expect.stands .banking).after (.cycle (.bankData bank)) = some (.stands .idle) := by
  revert bank
  decide

/-- A poll in the phase of its own address and byte. -/
theorem leads_poll (sec : BankSector) (offset : Offset) (expected : Byte) :
    Leads (.stands (.polling (windowAddr sec offset) expected)) (pollSteps sec offset expected)
      .decided := .single (if_pos rfl)

theorem leads_unlock : Leads (.stands .idle) unlockSteps (.stands .unlocked) :=
  .cons rfl (.single rfl)

namespace WholeCommands

theorem readId : WholeCommands readIdSteps :=
  leads_unlock.append (.cons rfl (.cons rfl (.single rfl))) |>.append (.cons rfl (.single rfl))
    |>.append (.cons rfl (.single rfl))

theorem switchBank (bank : BitVec 1) : WholeCommands (switchBankSteps bank) :=
  leads_unlock.append (.cons rfl (.single (after_bankData bank)))

theorem erase (sector : Sector) : WholeCommands (eraseSteps sector) :=
  leads_unlock.append (.single rfl) |>.append (.cons rfl (.single rfl))
    |>.append (.single (after_sectorErase _)) |>.append (leads_poll _ _ _) |>.append (.single rfl)

theorem eraseTimed (sector : Sector) : WholeCommands (eraseTimedSteps sector) :=
  (Leads.single rfl).append leads_unlock |>.append (.single rfl)
    |>.append (.cons rfl (.single rfl)) |>.append (.cons rfl (.single (after_sectorErase _)))
    |>.append (leads_poll _ _ _) |>.append (.cons rfl (.single rfl))

theorem program (sector : Sector) (offset : Offset) (value : Byte) :
    WholeCommands (programSteps sector offset value) :=
  leads_unlock.append (.cons rfl (.single rfl)) |>.append (leads_poll _ _ _)
    |>.append (.single rfl)

theorem programTimed (sector : Sector) (offset : Offset) (value : Byte) :
    WholeCommands (programTimedSteps sector offset value) :=
  (Leads.single rfl).append leads_unlock |>.append (.cons rfl (.cons rfl (.single rfl)))
    |>.append (leads_poll _ _ _) |>.append (.cons rfl (.single rfl))

theorem retry (sector : Sector) (offset : Offset) (value : Byte) :
    WholeCommands (retrySteps sector offset value) :=
  (program sector offset value).append (.single rfl)

theorem gate (sector : Sector) : WholeCommands (gateSteps sector) :=
  (erase sector).append (.single rfl)

theorem trial (b : Battery) (sector : Sector) : WholeCommands (trialSteps b sector) := by
  cases b with
  | eraseAfterFF => exact (eraseTimed sector).append (.single rfl)
  | eraseAfter00 => exact .cons rfl ((eraseTimed sector).append (.single rfl))
  | eraseAfterRandom => exact .cons rfl (.cons rfl ((eraseTimed sector).append (.single rfl)))
  | programFF | program00 => exact (gate sector).append (.single rfl)
  | programRandom => exact (gate sector).append (.cons rfl (.single rfl))

end WholeCommands

/-! ## States between two commands -/

/-- The bus is between two commands, and the pending steps go on from there. -/
def State.Between (s : State) : Prop :=
  phaseOf s.bus = some .idle ∧ follows (.stands .idle) s.seq.todo = true

namespace State.Between

variable {s t : State} {l : List Micro}

theorem inLanguage (h : s.Between) : s.BusInLanguage := ⟨.stands .idle, h⟩

theorem congr (h : s.Between) (hb : t.bus = s.bus) (ht : t.seq.todo = s.seq.todo) : t.Between :=
  ⟨hb ▸ h.1, ht ▸ h.2⟩

theorem tick (h : s.Between) : s.tick.Between := h.congr (by simp) (by simp)

theorem of_next (hs : s.Between)
    (h : (Host.Outcome.next s.tick : Host.Outcome State Fault Refusal) = .next t) : t.Between :=
  Host.Outcome.next.inj h ▸ hs.tick

theorem push (h : s.Between) (hl : WholeCommands l) : (s.push l).Between :=
  ⟨h.1, hl _ h.2⟩

theorem load (h : s.Between) (hl : WholeCommands l) : (s.load l).Between := (h.push hl).tick

/-- Whole commands and a return. -/
theorem operation (h : s.Between) (hl : WholeCommands l) (kind : RetKind) :
    (s.load (l ++ [.ret kind])).Between := h.load (hl.append (.single rfl))

theorem clearSeq (h : s.Between) : s.clearSeq.Between := ⟨h.1, rfl⟩

theorem ite {c : Prop} [Decidable c] (hs : s.Between) (ht : t.Between) :
    (if c then s else t).Between := by
  split
  · exact hs
  · exact ht

theorem seeded (h : s.Between) : s.seeded.Between := h.congr (by simp) (by simp)

theorem generatorReturn (h : s.Between) : s.generatorReturn.Between := h

theorem finish (h : s.Between) (kind : RetKind) : (s.finish kind).Between := by
  cases kind <;> exact h.clearSeq

theorem runSeedRetry (h : s.Between) : s.runSeedRetry.Between :=
  .ite h.seeded.generatorReturn.clearSeq (h.seeded.push (.single rfl))

theorem runDrawPbuf (h : s.Between) (off : Nat) : (s.runDrawPbuf off).Between :=
  .ite (.ite (push (s := s.seeded.genStep.pbufWrite off _) h.seeded (.single rfl))
    (h.seeded.push (.single rfl))) h

theorem startVerify (h : s.Between) (src : Fill) : (s.startVerify src).Between := by
  cases src <;> exact h

theorem runFill (h : s.Between) (src : Fill) (sector : Sector) (off : Nat) :
    (s.runFill src sector off).Between :=
  .ite (h.push ((WholeCommands.retry _ _ _).append (.single rfl)))
    ((h.startVerify src).push (.single rfl))

theorem runVerify (h : s.Between) (src : Fill) (sector : Sector) (off : Nat) :
    (s.runVerify src sector off).Between :=
  .ite (h.push (.cons rfl (.cons rfl (.single rfl)))) (.ite h (h.push (.single rfl)))

theorem verifyByte (h : s.Between) (src : Fill) (off : Nat) : (s.verifyByte src off).Between := by
  cases src with
  | zero | random => exact .ite h h

theorem runSectorLoop (h : s.Between) (b : Battery) (i : Nat) : (s.runSectorLoop b i).Between := by
  refine .ite (h.push (Leads.append (y := .stands .idle) ?_
    (.cons rfl (.cons rfl (.single rfl))))) h
  split
  · exact WholeCommands.switchBank _
  · exact .nil _

theorem runSectorBody (h : s.Between) (b : Battery) (sector : Sector) :
    (s.runSectorBody b sector).Between := by
  cases b with
  | eraseAfterFF => exact push h ((WholeCommands.gate sector).append (.single rfl))
  | eraseAfter00 | eraseAfterRandom | programFF | program00 | programRandom =>
    exact push h (.single rfl)

theorem runBatteries (h : s.Between) (l : List Battery) : (s.runBatteries l).Between := by
  cases l with
  | nil => exact h
  | cons b l => exact h.push (.cons rfl (.single rfl))

theorem runCollect (hs : s.Between) (h : s.runCollect = .next t) : t.Between := by
  obtain ⟨-, rfl⟩ | rfl := runCollect_next h
  · exact tick (hs.congr (by simp [State.appendSample]) (by simp [State.appendSample]))
  · exact hs.tick

end State.Between

/-- An operation sends no cycle at its issue, and loads whole commands or nothing. -/
theorem exec_between {i : Instr} {s t : State} (hi : i.busRow = none) (hs : s.Between)
    (h : exec i s = .next t) : t.Between := by
  cases i with
  | scramblerNext | setupTimer | startTimer | endTimer | getTimerResult =>
    obtain rfl := Host.Outcome.next.inj h
    exact hs.congr (by simp) (by simp)
  | generatorNext =>
    exact .of_next (.ite hs.seeded.generatorReturn (hs.seeded.push (.single rfl))) h
  | readFlashID => exact Host.Outcome.next.inj h ▸ hs.operation .readId _
  | switchFlashBank _ => exact Host.Outcome.next.inj h ▸ hs.operation (.switchBank _) _
  | eraseSector _ => exact Host.Outcome.next.inj h ▸ hs.operation (.erase _) _
  | eraseSectorTimed _ => exact Host.Outcome.next.inj h ▸ hs.operation (.eraseTimed _) _
  | programByte _ _ _ => exact Host.Outcome.next.inj h ▸ hs.operation (.program _ _ _) _
  | programByteTimed _ _ _ => exact Host.Outcome.next.inj h ▸ hs.operation (.programTimed _ _ _) _
  | zeroSector _ => exact Host.Outcome.next.inj h ▸ hs.operation (.single rfl) _
  | randomizeSector _ => exact Host.Outcome.next.inj h ▸ hs.operation (.cons rfl (.single rfl)) _
  | saveResults _ _ _ _ =>
    obtain ⟨b, rfl⟩ := execSaveResults_next h
    exact hs.congr (by simp) (by simp)
  | runBattery _ =>
    obtain ⟨b, rfl⟩ := execRunBattery_next h
    exact hs.operation (.single rfl) _
  | runFullTest =>
    exact Host.Outcome.next.inj h ▸
      State.Between.operation (s := s.resultClear) hs (l := [_]) (.single rfl) _
  | unlock1 | unlock2 | cmdIdEntry | cmdIdExit | cmdBank | bankData _ | cmdEraseSetup
  | sectorErase _ | cmdProgram | programData _ _ _ | abort | rdId0 | rdId1 | rdPoll _ _
  | rdVerify _ _ => cases hi

/-! ## Pending steps between two commands -/

/-- The steps that stand between two commands: all but cycles, polls, aborts and timer calls. -/
def Micro.betweenCommands : Micro → Bool
  | .latchId | .retryProgram _ _ _ | .fill _ _ _ | .verify _ _ _ | .verifyTest _ _ | .drawPbuf _
  | .eraseGate _ | .sectorLoop _ _ | .sectorBody _ _ | .trial _ _ _ | .programLoop _ _ _
  | .collect | .saveSector _ _ | .batteries _ | .seedRetry | .ret _ => true
  | .cycle _ | .setupTimer | .startTimer | .endTimer | .poll _ _ _ | .abortOnFailure => false

theorem Expect.after_betweenCommands {x y : Expect} {m : Micro} (hm : m.betweenCommands = true)
    (h : x.after m = some y) : x = .stands .idle ∧ y = .stands .idle := by
  have hafter : x.after m = if x = .stands .idle then some (.stands .idle) else none := by
    cases m with
    | latchId | retryProgram _ _ _ | fill _ _ _ | verify _ _ _ | verifyTest _ _ | drawPbuf _
    | eraseGate _ | sectorLoop _ _ | sectorBody _ _ | trial _ _ _ | programLoop _ _ _ | collect
    | saveSector _ _ | batteries _ | seedRetry | ret _ => rfl
    | cycle _ | setupTimer | startTimer | endTimer | poll _ _ _ | abortOnFailure => cases hm
  rw [hafter] at h
  split at h
  · next hx => exact ⟨hx, (Option.some.inj h).symm⟩
  · cases h

theorem runMicro_between {m : Micro} {s t : State} (hm : m.betweenCommands = true)
    (hs : s.Between) (h : runMicro m s = .next t) : t.Between := by
  cases m with
  | latchId => exact State.Between.of_next (s := s.runLatchId) hs h
  | saveSector _ _ => exact State.Between.of_next (s := s.runSaveSector ..) hs h
  | retryProgram _ _ _ => exact .of_next (.ite hs (hs.push (.retry _ _ _))) h
  | eraseGate _ => exact .of_next (.ite hs (hs.push (.gate _))) h
  | fill src sector off => exact .of_next (hs.runFill src sector off) h
  | verify src sector off => exact .of_next (hs.runVerify src sector off) h
  | verifyTest src off => exact .of_next (hs.verifyByte src off) h
  | drawPbuf off => exact .of_next (hs.runDrawPbuf off) h
  | sectorLoop b i => exact .of_next (hs.runSectorLoop b i) h
  | sectorBody b sector => exact .of_next (hs.runSectorBody b sector) h
  | trial b sector t =>
    exact .of_next (.ite (hs.push ((WholeCommands.trial b sector).append (.single rfl))) hs) h
  | programLoop b sector off =>
    exact .of_next (.ite (hs.push ((WholeCommands.programTimed _ _ _).append
      (.cons rfl (.single rfl)))) hs) h
  | collect => exact hs.runCollect h
  | batteries l => exact .of_next (hs.runBatteries l) h
  | seedRetry => exact .of_next hs.runSeedRetry h
  | ret kind => exact .of_next (hs.finish kind) h
  | cycle _ | setupTimer | startTimer | endTimer | poll _ _ _ | abortOnFailure => cases hm

/-! ## Cycles, polls and aborts -/

@[simp] theorem Expect.phase_stands (p : Phase) (s : State) : (Expect.stands p).phase s = p := rfl

@[simp] theorem Expect.phase_decided (s : State) :
    Expect.decided.phase s = if s.seq.ok then .idle else .failed := rfl

theorem State.BusInLanguage.congr {s t : State} (h : s.BusInLanguage) (hb : t.bus = s.bus)
    (hq : t.seq = s.seq) : t.BusInLanguage := by
  obtain ⟨x, hp, hf⟩ := h
  refine ⟨x, ?_, hq ▸ hf⟩
  cases x <;> simpa [hb, hq] using hp

theorem State.BusInLanguage.tick {s : State} (h : s.BusInLanguage) : s.tick.BusInLanguage :=
  h.congr (by simp) (by simp)

theorem phaseOf_cons {l : List BusEvent} {p : Phase} (hp : phaseOf l = some p) (e : BusEvent) :
    phaseOf (e :: l) = p.next e := by rw [phaseOf, hp, Option.bind_some]

theorem State.busWrite_inLanguage {s : State} {p : Phase} {y : Expect} {off : U16} {v : Byte}
    (hp : phaseOf s.bus = some p) (hw : p.write off v = some y)
    (hf : follows y s.seq.todo = true) : (s.busWrite off v).BusInLanguage := by
  obtain ⟨q, hq, rfl⟩ := Option.map_eq_some_iff.mp hw
  refine ⟨.stands q, ?_, by simpa using hf⟩
  rw [State.busWrite_bus, phaseOf_cons hp]
  exact hq

/-- A read whose byte goes to some latch. -/
theorem State.busRead_inLanguage {s t : State} {p q : Phase} {off : U16}
    (hp : phaseOf s.bus = some p) (hq : p.next (.read off (s.busByte off)) = some q)
    (hf : follows (.stands q) s.seq.todo = true) (hb : t.bus = (s.busRead off).bus)
    (ht : t.seq.todo = s.seq.todo) : t.BusInLanguage := by
  refine ⟨.stands q, ?_, ht ▸ hf⟩
  rw [hb, State.busRead_bus, phaseOf_cons hp]
  exact hq

theorem exec_cycle_inLanguage {i : Instr} {s t : State} {p : Phase} {y : Expect}
    (hp : phaseOf s.bus = some p) (hc : p.cycle i = some y) (hf : follows y s.seq.todo = true)
    (h : exec i s = .next t) : t.BusInLanguage := by
  cases i with
  | unlock1 | unlock2 | cmdIdEntry | cmdIdExit | cmdBank | bankData _ | cmdEraseSetup
  | sectorErase _ | cmdProgram | programData _ _ _ | abort =>
    exact Host.Outcome.next.inj h ▸ State.busWrite_inLanguage hp hc hf
  | rdId0 | rdId1 | rdVerify _ _ =>
    obtain ⟨rfl, hy⟩ := Option.ite_none_right_eq_some.mp hc
    obtain rfl := Option.some.inj hy
    obtain rfl := Host.Outcome.next.inj h
    exact State.busRead_inLanguage hp rfl hf rfl (by simp)
  | scramblerNext | generatorNext | setupTimer | startTimer | endTimer | getTimerResult
  | readFlashID | switchFlashBank _ | eraseSector _ | eraseSectorTimed _ | programByte _ _ _
  | programByteTimed _ _ _ | zeroSector _ | randomizeSector _ | saveResults _ _ _ _ | runBattery _
  | runFullTest | rdPoll _ _ => cases hc

/-- A turn of a poll leaves its outcome in `ok`, or the poll pending again (R141). -/
theorem runPoll_inLanguage {sec : BankSector} {offset : Offset} {expected : Byte} {s t : State}
    (hp : phaseOf s.bus = some (.polling (windowAddr sec offset) expected))
    (hf : follows .decided s.seq.todo = true) (h : runPoll sec offset expected s = .next t) :
    t.BusInLanguage := by
  obtain rfl := Host.Outcome.next.inj h
  generalize hb : s.busByte (windowAddr sec offset) = b
  have hphase : phaseOf (s.busRead (windowAddr sec offset)).bus =
      some (Phase.afterPoll (windowAddr sec offset) expected b) := by
    rw [State.busRead_bus, phaseOf_cons hp, hb]
    exact if_pos rfl
  have hpending : follows .decided (s.busRead (windowAddr sec offset)).seq.todo = true := by
    simpa using hf
  generalize s.busRead (windowAddr sec offset) = u at hphase hpending
  unfold State.runPollTest
  rw [show (u.setLast b).seq.last = b from rfl]
  unfold Phase.afterPoll at hphase
  cases hst : pollStatus expected b with
  | completed => exact ⟨.decided, by simpa [hst] using hphase, hpending⟩
  | failed => exact ⟨.decided, by simpa [hst] using hphase, hpending⟩
  | pending =>
    exact ⟨.stands (.polling (windowAddr sec offset) expected), by simpa [hst] using hphase,
      leads_poll sec offset expected _ hpending⟩

/-- After a failed poll the abort write is due, after a completed one nothing is. -/
theorem State.runAbortOnFailure_inLanguage {s : State}
    (hp : phaseOf s.bus = some (Expect.decided.phase s))
    (hf : follows (.stands .idle) s.seq.todo = true) : s.runAbortOnFailure.BusInLanguage := by
  unfold State.runAbortOnFailure
  split
  · next hok => exact ⟨.stands .idle, by simpa [hok] using hp, hf⟩
  · next hok => exact ⟨.stands .failed, by simpa [hok] using hp, hf⟩

/-! ## Every step keeps the bus in the language -/

theorem runMicro_inLanguage {m : Micro} {s t : State} {x y : Expect}
    (hp : phaseOf s.bus = some (x.phase s)) (ha : x.after m = some y)
    (hf : follows y s.seq.todo = true) (h : runMicro m s = .next t) : t.BusInLanguage := by
  cases m with
  | setupTimer | startTimer | endTimer =>
    obtain rfl := Host.Outcome.next.inj h
    obtain rfl := Option.some.inj ha
    exact State.BusInLanguage.congr ⟨x, hp, hf⟩ (by simp) (by simp)
  | cycle i =>
    cases x with
    | stands p => exact exec_cycle_inLanguage hp ha hf h
    | decided => cases ha
  | poll sec offset expected =>
    obtain ⟨rfl, hy⟩ := Option.ite_none_right_eq_some.mp ha
    exact runPoll_inLanguage hp (Option.some.inj hy ▸ hf) h
  | abortOnFailure =>
    obtain ⟨rfl, hy⟩ := Option.ite_none_right_eq_some.mp ha
    exact Host.Outcome.next.inj h ▸
      (State.runAbortOnFailure_inLanguage hp (Option.some.inj hy ▸ hf)).tick
  | latchId | retryProgram _ _ _ | fill _ _ _ | verify _ _ _ | verifyTest _ _ | drawPbuf _
  | eraseGate _ | sectorLoop _ _ | sectorBody _ _ | trial _ _ _ | programLoop _ _ _ | collect
  | saveSector _ _ | batteries _ | seedRetry | ret _ =>
    obtain ⟨rfl, rfl⟩ := Expect.after_betweenCommands rfl ha
    exact (runMicro_between rfl ⟨hp, hf⟩ h).inLanguage

theorem engineStep_inLanguage {s t : State} (hs : s.BusInLanguage) (h : engineStep s = .next t) :
    t.BusInLanguage := by
  unfold engineStep at h
  split at h
  · exact Host.Outcome.next.inj h ▸ hs
  · next m rest htodo =>
    obtain ⟨x, hp, hf⟩ := hs
    rw [htodo, follows] at hf
    split at hf
    · next y ha => exact runMicro_inLanguage (s := s.withTodo rest) hp ha hf h
    · cases hf

/-- With nothing pending the bus is between two commands. -/
theorem State.BusInLanguage.between {s : State} (hs : s.BusInLanguage) (htodo : s.seq.todo = []) :
    s.Between := by
  obtain ⟨x, hp, hf⟩ := hs
  rw [htodo] at hf
  obtain rfl : x = .stands .idle := by simpa [follows] using hf
  exact ⟨hp, htodo ▸ rfl⟩

theorem acceptRequest_inLanguage {r : Request} {s t : State} (hs : s.Between)
    (h : acceptRequest r s = .next t) : t.BusInLanguage := by
  unfold acceptRequest at h
  split at h
  · cases h
  · next i hd =>
    exact (exec_between (s := s.present r) (DecodesOperation.decodeRequest r i hd) hs h).inLanguage

theorem acceptPlatform_inLanguage {w : PlatformWrite} {s t : State} (hs : s.Between)
    (h : acceptPlatform w s = .next t) : t.BusInLanguage := by
  unfold acceptPlatform at h
  split at h
  · cases h
  · obtain rfl := Host.Outcome.next.inj h
    cases w <;> exact hs.inLanguage

/-- A reset from outside starts a new word. -/
theorem State.externalReset_inLanguage {s : State} (hs : s.BusInLanguage) :
    s.externalReset.BusInLanguage := by
  obtain ⟨x, hp, -⟩ := hs
  exact ⟨.stands .idle, phaseOf_cons hp .resetHere, rfl⟩

/-- Settles O45, by what the host lets the step be. -/
theorem stepKeepsBusInLanguage : Obligations.StepKeepsBusInLanguage := by
  intro s t hs h
  have hhost (rest : List HostMove) : State.BusInLanguage { s with host := rest } := hs
  have hbetween (rest : List HostMove) (hb : ¬ s.busy = true) :
      State.Between { s with host := rest } :=
    (hhost rest).between (State.todo_eq_nil_of_not_busy hb)
  unfold step hostStep at h
  split at h
  · exact engineStep_inLanguage hs h
  · exact Host.Outcome.next.inj h ▸ State.externalReset_inLanguage (hhost _)
  · exact engineStep_inLanguage (hhost _) h
  · next r rest _ =>
    split at h
    · exact engineStep_inLanguage hs h
    · next hb => exact acceptRequest_inLanguage (hbetween rest hb) h
  · next w rest _ =>
    split at h
    · exact engineStep_inLanguage hs h
    · next hb => exact acceptPlatform_inLanguage (hbetween rest hb) h

end Sys2Proof.Machine

/-! The status byte of the reference device (spec/20_memory.md R70, R71). -/

namespace Sys2Proof.Machine

/-- The bit that tells the status byte from the final byte. -/
theorem statusByte_bit7 (final free : Byte) (tog failing : Bool) :
    (statusByte final tog failing free).getLsbD 7 = !final.getLsbD 7 := by
  have htop : (if final.getLsbD 7 then 0 else 0x80 : Byte).getLsbD 7 = !final.getLsbD 7 := by
    cases final.getLsbD 7 <;> rfl
  have htog : (if tog then 0x40 else 0 : Byte).getLsbD 7 = false := by cases tog <;> rfl
  have hfail : (if failing then Params.statusFailMask else 0 : Byte).getLsbD 7 = false := by
    cases failing <;> rfl
  simp only [statusByte, BitVec.getLsbD_or, BitVec.getLsbD_and, htop, htog, hfail]
  simp

/-- The bit that tells a failure. -/
theorem statusByte_and_statusFailMask (final free : Byte) (tog failing : Bool) :
    statusByte final tog failing free &&& Params.statusFailMask =
      if failing then Params.statusFailMask else 0 := by
  have htop : (if final.getLsbD 7 then 0 else 0x80 : Byte) &&& Params.statusFailMask = 0 := by
    cases final.getLsbD 7 <;> rfl
  have htog : (if tog then 0x40 else 0 : Byte) &&& Params.statusFailMask = 0 := by
    cases tog <;> rfl
  have hfree : free &&& 0x1F &&& Params.statusFailMask = 0 := by simp [BitVec.and_assoc]
  simp only [statusByte, BitVec.and_or_distrib_right, htop, htog, hfree]
  cases failing <;> rfl

theorem statusByte_ne_final (final free : Byte) (tog failing : Bool) :
    statusByte final tog failing free ≠ final := fun h => by
  have := statusByte_bit7 final free tog failing
  simp [h] at this

theorem pollStatus_statusByte (final free : Byte) (tog failing : Bool) :
    pollStatus final (statusByte final tog failing free) =
      if failing then .failed else .pending := by
  rw [pollStatus, if_neg (statusByte_ne_final final free tog failing),
    statusByte_and_statusFailMask]
  cases failing <;> rfl

/-- Settles O53: bit 7 of the status byte is never that of the final byte, bit 5 tells a failure. -/
theorem statusByteTellsBusyFromDone : Obligations.StatusByteTellsBusyFromDone :=
  fun final free tog =>
    ⟨pollStatus_statusByte final free tog false, pollStatus_statusByte final free tog true⟩

end Sys2Proof.Machine

/-! Operations of FCP on the reference device (spec/20_memory.md R61 to R75): what a list of pending
steps does to the device and to the latches of the sequencer, cycle by cycle. -/

namespace Sys2Proof.Machine

/-! ## Steps on the reference device -/

/-- The pending steps `l` take `s` to `u`, whatever steps come after. -/
def RunsThrough (l : List Micro) (s u : State) : Prop :=
  ∀ rest, Runs (s.withTodo (l ++ rest)) (u.withTodo rest)

theorem RunsThrough.append {l k : List Micro} {s t u : State} (h1 : RunsThrough l s t)
    (h2 : RunsThrough k t u) : RunsThrough (l ++ k) s u := fun rest => by
  rw [List.append_assoc]
  exact (h1 _).trans (h2 _)

theorem RunsThrough.micro {m : Micro} {s u : State} (hh : s.host = [])
    (hm : ∀ rest, runMicro m (s.withTodo rest) = .next (u.withTodo rest)) : RunsThrough [m] s u :=
  fun rest => Runs.micro hh (hm rest) (Runs.refl _)

/-- An operation that loads the steps `l` and a return goes on to the state they lead to and returns
there. -/
theorem RunsThrough.returns {s u : State} {i : Instr} {l : List Micro} {kind : RetKind}
    (ht : s.seq.todo = []) (he : exec i s = .next (s.load (l ++ [.ret kind])))
    (hr : RunsThrough l s.tick u) (hu : u.host = []) :
    Returns i s ((u.withTodo []).finish kind).tick := by
  refine ⟨_, he, ?_⟩
  rw [State.load_eq, ht, List.append_nil]
  exact (hr _).trans (Runs.micro hu rfl (Runs.refl _))

/-- The chip is the device `d`, the latches are as `P` says, and the host does nothing. -/
structure OnDevice (d : Device) (P : Sequencer → Prop) (s : State) : Prop where
  host : s.host = []
  chip : s.chip = .reference d
  latches : P s.seq

/-- Nothing is said of the latches. -/
abbrev AnyLatches : Sequencer → Prop := fun _ => True

/-- From every state in `A` the steps `l` lead to one in `B`, send `k` cycles, and change nothing
but what cycles and latches touch. -/
def Drives (l : List Micro) (k : Nat) (A B : State → Prop) : Prop :=
  ∀ s, A s → ∃ u tr, RunsThrough l s u ∧ Saw tr s u ∧ tr.length = k ∧ B u

theorem OnDevice.tick {d : Device} {P : Sequencer → Prop} {s : State} (h : OnDevice d P s) :
    OnDevice d P s.tick := ⟨by simpa using h.host, by simpa using h.chip, by simpa using h.latches⟩

theorem Saw.of_onlyBus {l : List BusEvent} {s u : State} (hb : u.bus = l.reverse ++ s.bus)
    (h : OnlyBus s u) : Saw l s u := by
  have hq := h.seq
  exact ⟨hb, by rw [hq]; exact h, by rw [hq]⟩

theorem Saw.busWrite (s : State) (off : U16) (v : Byte) :
    Saw [.write off v] s (s.busWrite off v) := .of_onlyBus (by simp) (.busWrite s off v)

theorem Saw.busRead (s : State) (off : U16) :
    Saw [.read off (s.busByte off)] s (s.busRead off) := .of_onlyBus (by simp) (.busRead s off)

namespace Drives

variable {l l' : List Micro} {k k' : Nat} {A B C : State → Prop} {d d' : Device}
  {P Q : Sequencer → Prop}

theorem nil (A : State → Prop) : Drives [] 0 A A := fun s hs =>
  ⟨s, [], fun _ => Runs.refl _, Saw.refl s, rfl, hs⟩

theorem append (h1 : Drives l k A B) (h2 : Drives l' k' B C) : Drives (l ++ l') (k + k') A C := by
  intro s hs
  obtain ⟨t, tr, hr, hsaw, hlen, ht⟩ := h1 s hs
  obtain ⟨u, tr', hr', hsaw', hlen', hu⟩ := h2 t ht
  exact ⟨u, tr ++ tr', hr.append hr', hsaw.trans hsaw', by simp [hlen, hlen'], hu⟩

theorem write {i : Instr} {off : U16} {v : Byte} (hi : ∀ t, exec i t = .next (t.busWrite off v))
    (hd : ∀ n, (d.write off v n).1 = d') : Drives [.cycle i] 1 (OnDevice d P) (OnDevice d' P) := by
  intro s hs
  refine ⟨s.busWrite off v, _, .micro hs.host fun rest => ?_, .busWrite s off v, rfl,
    by simpa using hs.host, by simp [hs.chip, Chip.write, hd], by simpa using hs.latches⟩
  rw [← State.withTodo_busWrite]
  exact hi _

theorem consWrite {i : Instr} {off : U16} {v : Byte}
    (hi : ∀ t, exec i t = .next (t.busWrite off v)) (hd : ∀ n, (d.write off v n).1 = d')
    (h : Drives l k (OnDevice d' P) B) : Drives (.cycle i :: l) (k + 1) (OnDevice d P) B := by
  rw [Nat.add_comm]
  exact (write hi hd).append h

/-- A read whose byte goes to a latch. -/
theorem read {i : Instr} {off : U16} {b : Byte} {latch : Byte → Sequencer → Sequencer}
    (hi : ∀ t, exec i t = .next { t.busRead off with seq := latch (t.busByte off) t.seq })
    (hl : ∀ b q todo, latch b { q with todo := todo } = { latch b q with todo := todo })
    (hd : ∀ n, d.read off n = ⟨b, d, n⟩) (hn : ∀ q, (latch b q).n = q.n)
    (hq : ∀ q, P q → Q (latch b q)) : Drives [.cycle i] 1 (OnDevice d P) (OnDevice d Q) := by
  intro s hs
  have hb : s.busByte off = b := by simp [State.busByte, hs.chip, Chip.read, hd]
  refine ⟨{ s.busRead off with seq := latch (s.busByte off) s.seq }, _,
    .micro hs.host fun rest => (hi _).trans ?_, (Saw.busRead s off).latch _ (hb ▸ hn s.seq), rfl,
    by simpa using hs.host, by simp [hs.chip, Chip.read, hd], hb ▸ hq s.seq hs.latches⟩
  rw [State.withTodo_busRead, State.withTodo_seq, hl]
  rfl

/-- An internal step that puts the steps `l` in front and ends in a Tick. -/
theorem expand {m : Micro} (hm : ∀ s : State, P s.seq → ∀ rest,
      runMicro m (s.withTodo rest) = .next (s.withTodo (l ++ rest)).tick)
    (h : Drives l k (OnDevice d P) B) : Drives [m] k (OnDevice d P) B := by
  intro s hs
  obtain ⟨u, tr, hr, hsaw, hlen, hu⟩ := h s.tick hs.tick
  refine ⟨u, tr, fun rest => Runs.micro hs.host (hm s hs.latches rest) ?_, hsaw.after, hlen, hu⟩
  rw [State.withTodo_tick]
  exact hr rest

end Drives

/-! ## Polls and the abort on the device -/

section
variable {sec : BankSector} {offset : Offset} {expected : Byte} {d d' : Device}

/-- What a turn of a poll reads and latches. -/
def State.polled (s : State) (off : U16) : State := (s.busRead off).setLast (s.busByte off)

theorem runPoll_polled (s : State) (rest : List Micro) :
    runPoll sec offset expected (s.withTodo rest) =
      .next (State.runPollTest ((s.polled (windowAddr sec offset)).withTodo rest) sec offset
        expected) := by
  show Host.Outcome.next (State.runPollTest _ _ _ _) = _
  rw [State.withTodo_busByte, State.withTodo_busRead]
  rfl

theorem Saw.polled (s : State) (off : U16) :
    Saw [.read off (s.busByte off)] s (s.polled off) := (Saw.busRead s off).latch _ (by simp)

theorem OnDevice.polled {P : Sequencer → Prop} {s : State} {off : U16} (hs : OnDevice d P s)
    (hd : ∀ n, (d.read off n).chip = d') : OnDevice d' AnyLatches (s.polled off) :=
  ⟨by simpa [State.polled] using hs.host, by simp [State.polled, hs.chip, Chip.read, hd], trivial⟩

theorem OnDevice.polled_last {P : Sequencer → Prop} {s : State} (hs : OnDevice d P s) (off : U16) :
    (s.polled off).seq.last = (d.read off s.draws).byte := by
  simp [State.polled, State.busByte, hs.chip, Chip.read]

/-- A turn that leaves the poll pending. -/
theorem Drives.pollTurn {l : List Micro} {k : Nat} {B : State → Prop}
    (hd : ∀ n, (d.read (windowAddr sec offset) n).chip = d' ∧
      pollStatus expected (d.read (windowAddr sec offset) n).byte = .pending)
    (h : Drives (pollSteps sec offset expected ++ l) k (OnDevice d' AnyLatches) B) :
    Drives (pollSteps sec offset expected ++ l) (k + 1) (OnDevice d AnyLatches) B := by
  intro s hs
  obtain ⟨u, tr, hr, hsaw, hlen, hu⟩ := h _ (hs.polled fun n => (hd n).1)
  have hst : pollStatus expected (s.polled (windowAddr sec offset)).seq.last = .pending :=
    hs.polled_last _ ▸ (hd s.draws).2
  refine ⟨u, _, fun rest => Runs.micro hs.host (runPoll_polled s _) ?_,
    (Saw.polled s _).trans hsaw, by simp [hlen], hu⟩
  simp only [State.runPollTest, State.withTodo_seq, hst]
  exact hr rest

/-- The turn that decides a poll. -/
theorem Drives.pollEnd {ok : Bool} (hd : ∀ n, (d.read (windowAddr sec offset) n).chip = d' ∧
      pollStatus expected (d.read (windowAddr sec offset) n).byte =
        if ok then .completed else .failed) :
    Drives (pollSteps sec offset expected) 1 (OnDevice d AnyLatches)
      (OnDevice d' fun q => q.ok = ok) := by
  intro s hs
  have hp := hs.polled fun n => (hd n).1
  have hst : pollStatus expected (s.polled (windowAddr sec offset)).seq.last =
      if ok then .completed else .failed := hs.polled_last _ ▸ (hd s.draws).2
  refine ⟨(s.polled (windowAddr sec offset)).setOk ok, _, .micro hs.host fun rest => ?_,
    (Saw.polled s _).latch _ (by simp [State.polled]), rfl, hp.host, hp.chip, rfl⟩
  refine (runPoll_polled s rest).trans ?_
  simp only [State.runPollTest, State.withTodo_seq, hst]
  cases ok <;> rfl

theorem Drives.noAbort : Drives [.abortOnFailure] 0 (OnDevice d fun q => q.ok = true)
    (OnDevice d fun q => q.ok = true) := by
  refine .expand (l := []) (fun s hok rest => ?_) (.nil _)
  have hrun : (s.withTodo rest).runAbortOnFailure = s.withTodo rest := if_pos hok
  exact congrArg (Host.Outcome.next ∘ State.tick) hrun

theorem Drives.abort (hd : ∀ n, (d.write Params.resetOff Params.abortByte n).1 = d') :
    Drives [.abortOnFailure] 1 (OnDevice d fun q => q.ok = false)
      (OnDevice d' fun q => q.ok = false) := by
  refine .expand (l := [.cycle .abort]) (fun s hok rest => ?_) (.write (fun _ => rfl) hd)
  have hrun : (s.withTodo rest).runAbortOnFailure = s.withTodo (.cycle .abort :: rest) :=
    if_neg (by simp [hok])
  exact congrArg (Host.Outcome.next ∘ State.tick) hrun

end

/-! ## The device's own operations -/

namespace Device

variable {d : Device} {op : DevOp}

theorem answerStatus_spec (d : Device) (op : DevOp) (failing : Bool) (n : Nat) :
    (d.answerStatus op failing n).chip = { d with op := some op } ∧
    pollStatus op.final (d.answerStatus op failing n).byte =
      if failing then .failed else .pending := by
  unfold Device.answerStatus
  split <;> exact ⟨rfl, pollStatus_statusByte ..⟩

/-- The device once the outcome of `op` has been read, and a failure aborted (R69, R71, R72). -/
def settle (d : Device) (op : DevOp) : Device :=
  if op.fail then { d with op := none, seq := .s0, mode := .array } else d.commit op

@[simp] theorem commit_bank (d : Device) (op : DevOp) : (d.commit op).bank = d.bank := by
  unfold Device.commit
  split <;> rfl

@[simp] theorem commit_mode (d : Device) (op : DevOp) : (d.commit op).mode = d.mode := by
  unfold Device.commit
  split <;> rfl

/-- A busy read changes neither what is committed nor what is left after an abort. -/
theorem commit_turn (d : Device) (op : DevOp) (left : Nat) (tog : Bool) :
    commit { d with op := some { op with left := left, tog := tog } }
      { op with left := left, tog := tog } = d.commit op := rfl

theorem settle_turn (d : Device) (op : DevOp) (left : Nat) (tog : Bool) :
    settle { d with op := some { op with left := left, tog := tog } }
      { op with left := left, tog := tog } = d.settle op := rfl

end Device

/-- The poll of an operation in progress, with the abort of a failed one: the busy reads, the one
that decides, and the abort write. -/
theorem Drives.pollAndAbort {sec : BankSector} {offset : Offset} {d : Device} {op : DevOp}
    (hop : d.op = some op) (hm : d.mode = .array)
    (hread : Memory.read (d.commit op).arr (cellAddr d.bank (windowAddr sec offset)) = op.final) :
    Drives (pollSteps sec offset op.final ++ [.abortOnFailure])
      (op.left + 1 + if op.fail then 1 else 0) (OnDevice d AnyLatches)
      (OnDevice (d.settle op) fun q => q.ok = !op.fail) := by
  induction hleft : op.left generalizing d op with
  | succ left ih =>
    rw [← d.settle_turn op left !op.tog, show left + 1 + 1 + (if op.fail then 1 else 0) =
      left + 1 + (if op.fail then 1 else 0) + 1 by omega]
    refine .pollTurn (fun n => ?_)
      (ih (op := { op with left := left, tog := !op.tog }) rfl hm hread rfl)
    simpa [Device.read, hop, hleft] using
      d.answerStatus_spec { op with left := left, tog := !op.tog } false n
  | zero =>
    cases hfail : op.fail with
    | true =>
      refine (pollEnd (ok := false) (d' := { d with op := some { op with tog := !op.tog } })
        fun n => ?_).append (.abort fun n => ?_)
      · simpa [Device.read, hop, hleft, hfail] using
          d.answerStatus_spec { op with tog := !op.tog } true n
      · simp [Device.write, Device.writeBusy, hleft, hfail, Device.settle]
    | false =>
      refine (pollEnd (ok := true) fun n => ?_).append .noAbort
      simp [Device.read, Device.answerIdle, hop, hm, hleft, hfail, hread, Device.settle,
        pollStatus_same]

/-! ## Commands on an idle device -/

namespace Device

/-- The device with no operation in progress, at `q` of a command sequence. -/
def expecting (d : Device) (q : DevSeq) : Device := { d with op := none, seq := q }

theorem expecting_s0 {d : Device} (hop : d.op = none) (hq : d.seq = .s0) : d.expecting .s0 = d := by
  rw [expecting, ← hop, ← hq]

end Device

section
variable {d d' : Device} {P : Sequencer → Prop} {busy : Nat} {fails : Bool}
  {script : List (Nat × Bool)}

theorem Drives.unlock : Drives unlockSteps 2 (OnDevice (d.expecting .s0) P)
    (OnDevice (d.expecting .s2) P) :=
  .consWrite (d' := d.expecting .s1) (fun _ => rfl) (fun _ => rfl)
    (.write (fun _ => rfl) fun _ => rfl)

/-- The unlock sequence inside an erase. -/
theorem Drives.eraseUnlock : Drives unlockSteps 2 (OnDevice (d.expecting .sEr0) P)
    (OnDevice (d.expecting .sEr2) P) :=
  .consWrite (d' := d.expecting .sEr1) (fun _ => rfl) (fun _ => rfl)
    (.write (fun _ => rfl) fun _ => rfl)

/-- What the device has in progress after the last write of an erase (R68). -/
def eraseOp (bank : BitVec 1) (off : U16) (busy : Nat) (fails : Bool) : DevOp :=
  { kind := .erase, bank := bank, addr := off &&& 0xF000, final := Params.erased, left := busy
    fail := fails, tog := false }

/-- What the device has in progress after the last write of a program that only clears bits
(R66). -/
def programOp (bank : BitVec 1) (off : U16) (v : Byte) (busy : Nat) (fails : Bool) : DevOp :=
  { kind := .program, bank := bank, addr := off, final := v, left := busy, fail := fails
    tog := false }

/-- The device with an operation just started. -/
def Device.started (d : Device) (op : DevOp) (script : List (Nat × Bool)) : Device :=
  { d with script := script, seq := .s0, op := some op }

theorem Device.write_erase (hs : d.script = (busy, fails) :: script) (off : U16) (n : Nat) :
    ((d.expecting .sEr2).write off Params.eraseConfirmByte n).1 =
      d.started (eraseOp d.bank off busy fails) script := by
  simp [Device.write, Device.expecting, Device.startErase, Device.drawStart, hs, Device.started,
    eraseOp]

theorem Device.write_program (hs : d.script = (busy, fails) :: script) {off : U16} {v : Byte}
    (hv : Memory.read d.arr (cellAddr d.bank off) &&& v = v) (n : Nat) :
    ((d.expecting .sPgm).write off v n).1 =
      d.started (programOp d.bank off v busy fails) script := by
  simp [Device.write, Device.expecting, Device.startProgram, Device.drawStart, hs, Device.started,
    programOp, hv]

/-- The six writes of an erase. -/
theorem Drives.eraseWrites (hs : d.script = (busy, fails) :: script) (sec : BankSector) :
    Drives (unlockSteps ++ [.cycle .cmdEraseSetup] ++ unlockSteps ++ [.cycle (.sectorErase sec)]) 6
      (OnDevice (d.expecting .s0) P)
      (OnDevice (d.started (eraseOp d.bank (windowAddr sec 0) busy fails) script) P) := by
  have hsetup : Drives [.cycle .cmdEraseSetup] 1 (OnDevice (d.expecting .s2) P)
      (OnDevice (d.expecting .sEr0) P) := .write (fun _ => rfl) fun _ => rfl
  have herase : Drives [.cycle (.sectorErase sec)] 1 (OnDevice (d.expecting .sEr2) P)
      (OnDevice (d.started (eraseOp d.bank (windowAddr sec 0) busy fails) script) P) :=
    .write (fun _ => rfl) (Device.write_erase hs _)
  exact ((unlock.append hsetup).append eraseUnlock).append herase

/-- The four writes of a program that only clears bits. -/
theorem Drives.programWrites (hs : d.script = (busy, fails) :: script) (sec : BankSector)
    (offset : Offset) {v : Byte}
    (hv : Memory.read d.arr (cellAddr d.bank (windowAddr sec offset)) &&& v = v) :
    Drives (unlockSteps ++ [.cycle .cmdProgram, .cycle (.programData sec offset v)]) 4
      (OnDevice (d.expecting .s0) P)
      (OnDevice (d.started (programOp d.bank (windowAddr sec offset) v busy fails) script) P) := by
  have hsetup : Drives [.cycle .cmdProgram] 1 (OnDevice (d.expecting .s2) P)
      (OnDevice (d.expecting .sPgm) P) := .write (fun _ => rfl) fun _ => rfl
  have hdata : Drives [.cycle (.programData sec offset v)] 1 (OnDevice (d.expecting .sPgm) P)
      (OnDevice (d.started (programOp d.bank (windowAddr sec offset) v busy fails) script) P) :=
    .write (fun _ => rfl) (Device.write_program hs hv)
  exact unlock.append (hsetup.append hdata)

/-- EraseSector: six writes, the poll of the sector's first byte, and the abort of a failure. -/
theorem Drives.erase (hs : d.script = (busy, fails) :: script) (hm : d.mode = .array)
    (sector : Sector) :
    Drives (eraseSteps sector) (6 + (busy + 1 + if fails then 1 else 0))
      (OnDevice (d.expecting .s0) AnyLatches)
      (OnDevice ((d.started (eraseOp d.bank (flashAddr sector 0) busy fails) script).settle
        (eraseOp d.bank (flashAddr sector 0) busy fails)) fun q => q.ok = !fails) := by
  have haddr : windowAddr (sectorInBank sector) 0 = flashAddr sector 0 :=
    windowAddr_eq_flashAddr sector 0
  have hwrites := eraseWrites (P := AnyLatches) hs (sectorInBank sector)
  have hpoll := pollAndAbort (sec := sectorInBank sector) (offset := 0)
    (d := d.started (eraseOp d.bank (flashAddr sector 0) busy fails) script)
    (op := eraseOp d.bank (flashAddr sector 0) busy fails) rfl hm (by
      rw [haddr]
      exact (deviceArrayReadsBack d.arr d.bank d.bank _ _ 0).2.trans (if_pos ⟨rfl, rfl⟩))
  rw [haddr] at hwrites
  exact hwrites.append hpoll

/-- ProgramByte: four writes, the poll of the byte, and the abort of a failure. -/
theorem Drives.program (hs : d.script = (busy, fails) :: script) (hm : d.mode = .array)
    (sector : Sector) (offset : Offset) {v : Byte}
    (hv : Memory.read d.arr (cellAddr d.bank (flashAddr sector offset.toNat)) &&& v = v) :
    Drives (programSteps sector offset v) (4 + (busy + 1 + if fails then 1 else 0))
      (OnDevice (d.expecting .s0) AnyLatches)
      (OnDevice ((d.started (programOp d.bank (flashAddr sector offset.toNat) v busy fails)
        script).settle (programOp d.bank (flashAddr sector offset.toNat) v busy fails))
        fun q => q.ok = !fails) := by
  rw [← windowAddr_eq_flashAddr] at hv ⊢
  exact (programWrites hs _ _ hv).append
    (pollAndAbort (op := programOp d.bank _ v busy fails) rfl hm (Memory.read_write_same _ _ _))

/-- What EraseSector leaves of the device. -/
theorem Device.settle_erase (hop : d.op = none) (hm : d.mode = .array) (hq : d.seq = .s0)
    (sector : Sector) :
    (d.started (eraseOp d.bank (flashAddr sector 0) busy fails) script).settle
      (eraseOp d.bank (flashAddr sector 0) busy fails) = { d with
        script := script
        arr := if fails then d.arr
          else Memory.eraseSector d.arr (cellAddr d.bank (flashAddr sector 0)) } := by
  have haddr := flashAddr_zero_and_0xF000 sector
  obtain ⟨⟩ := d
  subst hop hm hq
  cases fails <;> simp [Device.settle, Device.started, eraseOp, Device.commit, haddr]

/-- What ProgramByte leaves of the device. -/
theorem Device.settle_program (hop : d.op = none) (hm : d.mode = .array) (hq : d.seq = .s0)
    (off : U16) (v : Byte) :
    (d.started (programOp d.bank off v busy fails) script).settle
      (programOp d.bank off v busy fails) = { d with
        script := script
        arr := if fails then d.arr else Memory.write d.arr (cellAddr d.bank off) v } := by
  obtain ⟨⟩ := d
  subst hop hm hq
  cases fails <;> simp [Device.settle, Device.started, programOp, Device.commit]

end

/-! ## From issue to return -/

/-- What an untimed operation leaves alone, its cycles done and RES set at its return. -/
theorem Saw.onlyBusAndRes {tr : List BusEvent} {s v : State} (h : Saw tr s v)
    (hq : s.seq = Sequencer.empty) (kind : RetKind) :
    OnlyBusAndRes s ((v.withTodo []).finish kind).tick := by
  have honly := h.only
  refine OnlyBus.trans (t := (v.withTodo []).finish kind) ?_ (.tick _)
  rw [onlyBus_iff] at honly ⊢
  cases kind <;> simp_all [State.finish]

@[simp] theorem State.finish_chip (s : State) (kind : RetKind) : (s.finish kind).chip = s.chip := by
  cases kind <;> rfl

@[simp] theorem State.finish_bus (s : State) (kind : RetKind) : (s.finish kind).bus = s.bus := by
  cases kind <;> rfl

/-- An operation issued on an idle device, from issue to return. -/
theorem Drives.returns {s : State} {d : Device} {i : Instr} {l : List Micro} {kind : RetKind}
    {k : Nat} {d' : Device} {Q : Sequencer → Prop} (hi : Idle s) (hc : s.chip = .reference d)
    (he : exec i s = .next (s.load (l ++ [.ret kind])))
    (h : Drives l k (OnDevice d AnyLatches) (OnDevice d' Q)) :
    ∃ v tr, Returns i s ((v.withTodo []).finish kind).tick ∧ Saw tr s v ∧ tr.length = k ∧
      OnDevice d' Q v := by
  obtain ⟨hh, hq⟩ := hi
  obtain ⟨v, tr, hr, hsaw, hlen, hv⟩ := h s.tick (OnDevice.tick ⟨hh, hc, trivial⟩)
  exact ⟨v, tr, hr.returns (by rw [hq]; rfl) he hv.host, hsaw.after, hlen, hv⟩

/-- An operation that returns `ok`. -/
theorem Drives.returnsOk {s : State} {d d' : Device} {i : Instr} {l : List Micro} {k : Nat}
    {ok : Bool} (hi : Idle s) (hc : s.chip = .reference d)
    (he : exec i s = .next (s.load (l ++ [.ret .ok])))
    (h : Drives l k (OnDevice d AnyLatches) (OnDevice d' fun q => q.ok = ok)) :
    ∃ u, Returns i s u ∧ u.res = boolRes ok ∧ u.chip = .reference d' ∧
      u.bus.length = s.bus.length + k ∧ OnlyBusAndRes s u := by
  obtain ⟨v, tr, hret, hsaw, hlen, hv⟩ := h.returns hi hc he
  refine ⟨_, hret, ?_, ?_, ?_, hsaw.onlyBusAndRes hi.2 _⟩
  · simp [State.finish, hv.latches]
  · simpa using hv.chip
  · simp [hsaw.bus, hlen, Nat.add_comm]

/-- Settles O54: the six writes start the erase, the poll reads it busy and then its outcome. -/
theorem referenceDeviceErases : Obligations.ReferenceDeviceErases := by
  intro s d sector busy fails script hi hc hop hm hq hs
  have h := Drives.erase hs hm sector
  rw [Device.expecting_s0 hop hq, Device.settle_erase hop hm hq] at h
  obtain ⟨u, hret, hres, hchip, hlen, honly⟩ := h.returnsOk (i := .eraseSector sector) hi hc rfl
  exact ⟨u, hret, by cases fails <;> exact hres, hchip, by omega, honly⟩

/-- Settles O55: the four writes start the program, the poll reads it busy and then its outcome. -/
theorem referenceDevicePrograms : Obligations.ReferenceDevicePrograms := by
  intro s d sector offset value busy fails script hi hc hop hm hq hs hv
  have h := Drives.program hs hm sector offset hv
  rw [Device.expecting_s0 hop hq, Device.settle_program hop hm hq] at h
  obtain ⟨u, hret, hres, hchip, hlen, honly⟩ :=
    h.returnsOk (i := .programByte sector offset value) hi hc rfl
  exact ⟨u, hret, by cases fails <;> exact hres, hchip, by omega, honly⟩

/-! ## ReadFlashID and SwitchFlashBank -/

theorem Drives.switchBank (d : Device) (bank : BitVec 1) (P : Sequencer → Prop) :
    Drives (switchBankSteps bank) 4 (OnDevice (d.expecting .s0) P)
      (OnDevice (Device.expecting { d with bank := bank } .s0) P) := by
  have hcmd : Drives [.cycle .cmdBank] 1 (OnDevice (d.expecting .s2) P)
      (OnDevice (d.expecting .sBank) P) := .write (fun _ => rfl) fun _ => rfl
  have hbank : (bank.setWidth 8 : Byte).extractLsb' 0 1 = bank := by revert bank; decide
  have hdata : Drives [.cycle (.bankData bank)] 1 (OnDevice (d.expecting .sBank) P)
      (OnDevice (Device.expecting { d with bank := bank } .s0) P) :=
    .write (fun _ => rfl) fun _ => by simp [Device.write, Device.expecting, hbank]
  exact unlock.append (hcmd.append hdata)

/-- The bus cycles of ReadFlashID. -/
def readIdCycles : List Micro :=
  unlockSteps ++ [.cycle .cmdIdEntry, .cycle .rdId0, .cycle .rdId1] ++ unlockSteps ++
    [.cycle .cmdIdExit]

/-- The device in ID mode (R64). -/
def Device.inIdMode (d : Device) : Device := { d with mode := .id }

theorem Drives.readId {d : Device} (hm : d.mode = .array) :
    Drives readIdCycles 8 (OnDevice (d.expecting .s0) AnyLatches)
      (OnDevice (d.expecting .s0) fun q => q.idManuf = d.manuf ∧ q.idDevice = d.device) := by
  have hentry : Drives [.cycle .cmdIdEntry] 1 (OnDevice (d.expecting .s2) AnyLatches)
      (OnDevice (d.inIdMode.expecting .s0) AnyLatches) := .write (fun _ => rfl) fun _ => rfl
  have hmanuf : Drives [.cycle .rdId0] 1 (OnDevice (d.inIdMode.expecting .s0) AnyLatches)
      (OnDevice (d.inIdMode.expecting .s0) fun q => q.idManuf = d.manuf) :=
    .read (latch := fun b q => { q with idManuf := b }) (fun _ => rfl) (fun _ _ _ => rfl)
      (fun _ => rfl) (fun _ => rfl) fun _ _ => rfl
  have hdevice : Drives [.cycle .rdId1] 1
      (OnDevice (d.inIdMode.expecting .s0) fun q => q.idManuf = d.manuf)
      (OnDevice (d.inIdMode.expecting .s0) fun q => q.idManuf = d.manuf ∧ q.idDevice = d.device) :=
    .read (latch := fun b q => { q with idDevice := b }) (fun _ => rfl) (fun _ _ _ => rfl)
      (fun _ => rfl) (fun _ => rfl) fun _ hq => ⟨hq, rfl⟩
  have hexit (P : Sequencer → Prop) : Drives [.cycle .cmdIdExit] 1
      (OnDevice (d.inIdMode.expecting .s2) P) (OnDevice (d.expecting .s0) P) :=
    .write (fun _ => rfl) fun _ => by
      simp [Device.inIdMode, Device.write, Device.expecting, Device.writeUnlocked, hm]
  exact ((unlock.append (hentry.append (hmanuf.append hdevice))).append unlock).append (hexit _)

/-- Settles O56: ID mode answers the two bytes and is left again; the bank write sets the bank. -/
theorem referenceDeviceIdAndBank : Obligations.ReferenceDeviceIdAndBank := by
  intro s d bank hi hc hop hm hq
  have hd := Device.expecting_s0 hop hq
  constructor
  · have h := Drives.readId hm
    rw [hd] at h
    obtain ⟨hh, hempty⟩ := hi
    obtain ⟨v, -, hr, -, -, hv⟩ := h s.tick (OnDevice.tick ⟨hh, hc, trivial⟩)
    have hlatch : RunsThrough [.latchId] v v.runLatchId.tick := .micro hv.host fun rest => by
      rw [← State.withTodo_tick]
      rfl
    refine ⟨_, RunsThrough.returns (by rw [hempty]; rfl) rfl (hr.append hlatch)
      (by simpa [State.runLatchId] using hv.host), ?_, by simpa [State.runLatchId] using hv.chip⟩
    simp [State.finish, State.runLatchId, hv.latches]
  · have h := Drives.switchBank d bank AnyLatches
    rw [hd, Device.expecting_s0 (d := { d with bank := bank }) hop hq] at h
    obtain ⟨v, -, hret, -, -, hv⟩ :=
      h.returns (i := .switchFlashBank bank) (kind := .none) hi hc rfl
    exact ⟨_, hret, by simpa using hv.chip⟩

end Sys2Proof.Machine

/-! Decoding and encoding (spec/30_encoding.md R90 to R97): what decoding a request can answer, and
that it takes back what the encoder writes. -/

namespace Sys2Proof

open Machine

/-! ## Operands in their ARGs (R97) -/

/-- An operand is taken back from the ARG it is put into. -/
theorem narrow_setWidth {w : Nat} (hw : w ≤ 32) (operand : Operand) (x : BitVec w) :
    narrow w operand (x.setWidth 32) = .ok x := by
  have hx : (x.setWidth 32).toNat = x.toNat := by
    rw [BitVec.toNat_setWidth, Nat.mod_eq_of_lt (x.isLt.trans_le (Nat.pow_le_pow_right two_pos hw))]
  rw [narrow, if_pos (hx ▸ x.isLt), BitVec.setWidth_setWidth_of_le x hw, BitVec.setWidth_eq]

/-- An operand within its width keeps its value. -/
theorem narrow_ok {w : Nat} {operand : Operand} {arg : U32} {x : BitVec w}
    (h : narrow w operand arg = .ok x) : x.toNat = arg.toNat := by
  unfold narrow at h
  split at h
  · next hlt =>
    obtain rfl := Except.ok.inj h
    rw [BitVec.toNat_setWidth, Nat.mod_eq_of_lt hlt]
  · cases h

theorem narrow_error {w : Nat} {operand : Operand} {arg : U32} {e : DecodeError}
    (h : narrow w operand arg = .error e) : e = .operandOutOfRange operand ∧ 2 ^ w ≤ arg.toNat := by
  unfold narrow at h
  split at h
  · cases h
  · next hlt => exact ⟨(Except.error.inj h).symm, Nat.le_of_not_lt hlt⟩

/-! ## Requests the encoder writes (R92, R93) -/

theorem decodeBank_encoded (opsel : Byte) (bank : BitVec 1) :
    decodeBank ⟨opsel, bank.setWidth 32, 0, 0⟩ = .ok (.switchFlashBank bank) := by
  simp [decodeBank, narrow_setWidth]

theorem decodeSector_encoded (build : Sector → Instr) (opsel : Byte) (sector : Sector) :
    decodeSector build ⟨opsel, sector.setWidth 32, 0, 0⟩ = .ok (build sector) := by
  simp [decodeSector, narrow_setWidth]

theorem decodeProgram_encoded (build : Sector → Offset → Byte → Instr) (opsel : Byte)
    (sector : Sector) (offset : Offset) (value : Byte) :
    decodeProgram build ⟨opsel, sector.setWidth 32, offset.setWidth 32, value.setWidth 32⟩ =
      .ok (build sector offset value) := by
  simp [decodeProgram, narrow_setWidth]

theorem decodeBattery_encoded (opsel : Byte) {battery : BitVec 3}
    (h : batteryInRange battery = true) :
    decodeBattery ⟨opsel, battery.setWidth 32, 0, 0⟩ = .ok (.runBattery battery) := by
  simp [decodeBattery, narrow_setWidth, h]

/-- The two fields of `timing` are taken apart again (R93). -/
theorem decodeSaveResults_encoded (opsel : Byte) {battery : BitVec 3} (sector : Sector)
    {numSuccessful maxPossible : U16}
    (h : (Instr.saveResults battery sector numSuccessful maxPossible).wf = true) :
    decodeSaveResults ⟨opsel, (battery ++ sector).setWidth 32, numSuccessful.setWidth 32,
      maxPossible.setWidth 32⟩ = .ok (.saveResults battery sector numSuccessful maxPossible) := by
  have htiming : narrow 8 .timing ((battery ++ sector).setWidth 32) = .ok (battery ++ sector) :=
    narrow_setWidth (by decide) .timing (battery ++ sector)
  have hbattery : (battery ++ sector).extractLsb' 5 3 = battery := BitVec.extractLsb'_append_eq_left
  have hsector : (battery ++ sector).extractLsb' 0 5 = sector := BitVec.extractLsb'_append_eq_right
  simp only [Instr.wf, countsInRange, Bool.and_eq_true, decide_eq_true_eq] at h
  obtain ⟨hb, hn, hm⟩ := h
  simp only [decodeSaveResults, htiming, narrow_setWidth (by decide : 16 ≤ 32), hbattery, hsector,
    if_pos hb, if_pos hn, if_pos hm]

/-- Settles O1: the row of R92 with the instruction's OPSEL takes its operands back. -/
theorem decodeOfEncodedRequest : Obligations.DecodeOfEncodedRequest := by
  intro i r hwf h
  cases i with
  | scramblerNext | generatorNext | setupTimer | startTimer | endTimer | getTimerResult
  | readFlashID | runFullTest =>
    obtain rfl := Option.some.inj h
    rfl
  | switchFlashBank bank =>
    obtain rfl := Option.some.inj h
    exact decodeBank_encoded _ bank
  | eraseSector sector | eraseSectorTimed sector | zeroSector sector | randomizeSector sector =>
    obtain rfl := Option.some.inj h
    exact decodeSector_encoded _ _ sector
  | programByte sector offset value | programByteTimed sector offset value =>
    obtain rfl := Option.some.inj h
    exact decodeProgram_encoded _ _ sector offset value
  | saveResults battery sector numSuccessful maxPossible =>
    obtain rfl := Option.some.inj h
    exact decodeSaveResults_encoded _ sector hwf
  | runBattery battery =>
    obtain rfl := Option.some.inj h
    exact decodeBattery_encoded _ hwf
  | unlock1 | unlock2 | cmdIdEntry | cmdIdExit | cmdBank | bankData _ | cmdEraseSetup
  | sectorErase _ | cmdProgram | programData _ _ _ | abort | rdId0 | rdId1 | rdPoll _ _
  | rdVerify _ _ => cases h

/-! ## What decoding a request answers (R92, R96, R97) -/

/-- The instruction is well formed and its request has this OPSEL. -/
def Instr.EncodedAt (opsel : Byte) (i : Instr) : Prop :=
  i.wf = true ∧ (encodeRequest i).map Request.opsel = some opsel

/-- An answer of the decoder for an assigned OPSEL: an operand is refused exactly if `bad` holds, and
what is decoded otherwise is encoded with this OPSEL. -/
inductive Answers (opsel : Byte) (bad : Prop) (x : Except DecodeError Instr) : Prop where
  | ok {i : Instr} (hbad : ¬ bad) (hi : i.EncodedAt opsel) (hx : x = .ok i)
  | refused {o : Operand} (hbad : bad) (hx : x = .error (.operandOutOfRange o))

namespace Answers

variable {opsel : Byte} {bad : Prop} {x : Except DecodeError Instr}

theorem of_narrow_error {w : Nat} {operand : Operand} {arg : U32} {e : DecodeError}
    (h : narrow w operand arg = .error e) (hbad : 2 ^ w ≤ arg.toNat → bad) :
    Answers opsel bad (.error e) := by
  obtain ⟨rfl, hle⟩ := narrow_error h
  exact .refused (hbad hle) rfl

/-- A further range, checked after the widths. -/
theorem guard {c : Prop} [Decidable c] {operand : Operand} (hbad : ¬ c → bad)
    (hx : c → Answers opsel bad x) :
    Answers opsel bad (if c then x else .error (.operandOutOfRange operand)) := by
  split
  · next hc => exact hx hc
  · next hc => exact .refused (hbad hc) rfl

/-- An operation without operands. -/
theorem operation (i : Instr) (hi : i.EncodedAt opsel) : Answers opsel False (.ok i) :=
  .ok id hi rfl

/-- The ranges of R97 at one row of R92: the OPSEL, a numeral there, picks its clause. -/
theorem inRow {arg0 arg1 arg2 : U32} (h : Answers opsel bad x)
    (hbad : Request.outOfRange ⟨opsel, arg0, arg1, arg2⟩ ↔ bad := by simp [Request.outOfRange]) :
    Answers opsel (Request.outOfRange ⟨opsel, arg0, arg1, arg2⟩) x :=
  propext hbad ▸ h

theorem encodedAt {i : Instr} (h : Answers opsel bad x) (hi : x = .ok i) : i.EncodedAt opsel := by
  cases h with
  | ok hbad hj hx => exact Except.ok.inj (hx.symm.trans hi) ▸ hj
  | refused hbad hx => cases hx.symm.trans hi

theorem refuses_iff (h : Answers opsel bad x) :
    bad ↔ ∃ o, x = .error (.operandOutOfRange o) := by
  cases h with
  | ok hbad hi hx => simp [hbad, hx]
  | refused hbad hx => simp [hbad, hx]

end Answers

theorem decodeBank_answers (r : Request) : Answers 0x31 (2 ≤ r.arg0.toNat) (decodeBank r) := by
  unfold decodeBank
  split
  · next h => exact .of_narrow_error h id
  · next bank h =>
    have hv := narrow_ok h
    exact .ok (by omega) ⟨rfl, rfl⟩ rfl

theorem decodeSector_answers {build : Sector → Instr} {opsel : Byte}
    (hb : ∀ sector, (build sector).EncodedAt opsel) (r : Request) :
    Answers opsel (32 ≤ r.arg0.toNat) (decodeSector build r) := by
  unfold decodeSector
  split
  · next h => exact .of_narrow_error h id
  · next sector h =>
    have hv := narrow_ok h
    exact .ok (by omega) (hb sector) rfl

theorem decodeProgram_answers {build : Sector → Offset → Byte → Instr} {opsel : Byte}
    (hb : ∀ sector offset value, (build sector offset value).EncodedAt opsel) (r : Request) :
    Answers opsel (32 ≤ r.arg0.toNat ∨ 4096 ≤ r.arg1.toNat ∨ 256 ≤ r.arg2.toNat)
      (decodeProgram build r) := by
  unfold decodeProgram
  split
  · next h => exact .of_narrow_error h .inl
  · next sector hs =>
    split
    · next h => exact .of_narrow_error h fun hle => .inr (.inl hle)
    · next offset ho =>
      split
      · next h => exact .of_narrow_error h fun hle => .inr (.inr hle)
      · next value hv =>
        have hs := narrow_ok hs
        have ho := narrow_ok ho
        have hv := narrow_ok hv
        exact .ok (by omega) (hb sector offset value) rfl

theorem batteryInRange_iff (battery : BitVec 3) :
    batteryInRange battery = true ↔ battery.toNat < 6 := decide_eq_true_iff

theorem decodeBattery_answers (r : Request) :
    Answers 0x60 (6 ≤ r.arg0.toNat) (decodeBattery r) := by
  unfold decodeBattery
  split
  · next h => exact .of_narrow_error h fun hle => by omega
  · next battery h =>
    have hv := narrow_ok h
    have hrange := batteryInRange_iff battery
    refine .guard (fun hb => ?_) fun hb => .ok (i := .runBattery battery) ?_ ⟨hb, rfl⟩ rfl
    all_goals rw [hrange] at hb; omega

/-- The battery is the upper field of `timing` (R93). -/
theorem battery_toNat_of_timing (timing : Byte) :
    (timing.extractLsb' 5 3).toNat = timing.toNat / 32 := by
  rw [BitVec.extractLsb'_toNat, Nat.shiftRight_eq_div_pow]
  omega

theorem decodeSaveResults_answers (r : Request) :
    Answers 0x50
      (6 ≤ r.arg0.toNat / 32 ∨ r.arg2.toNat < r.arg1.toNat ∨ 40960 < r.arg2.toNat)
      (decodeSaveResults r) := by
  unfold decodeSaveResults
  split
  · next h => exact .of_narrow_error h fun hle => by omega
  · next timing ht =>
    split
    · next h => exact .of_narrow_error h fun hle => by omega
    · next n hn =>
      split
      · next h => exact .of_narrow_error h fun hle => by omega
      · next m hm =>
        have ht := narrow_ok ht
        have hn := narrow_ok hn
        have hm := narrow_ok hm
        have hbattery := battery_toNat_of_timing timing
        have hrange := batteryInRange_iff (timing.extractLsb' 5 3)
        have hcap : Params.sampleCap = 40960 := rfl
        refine .guard (fun hb => ?_) fun hb => .guard (fun _ => by omega) fun hle =>
          .guard (fun _ => by omega) fun hmax => .ok ?_ ⟨?_, rfl⟩ rfl
        · rw [hrange] at hb; omega
        · rw [hrange] at hb; omega
        · simp [Instr.wf, countsInRange, hb, hle, hmax]

/-- The seventeen rows of R92, with the ranges of R97. -/
theorem decodeRequest_answers {r : Request} (h : r.opsel ∈ assignedOpsels) :
    Answers r.opsel r.outOfRange (decodeRequest r) := by
  obtain ⟨opsel, arg0, arg1, arg2⟩ := r
  simp only [assignedOpsels, List.mem_cons, List.not_mem_nil, or_false] at h
  rcases h with rfl | rfl | rfl | rfl | rfl | rfl | rfl | rfl | rfl | rfl | rfl | rfl | rfl | rfl |
    rfl | rfl | rfl
  · exact .inRow (.operation .scramblerNext ⟨rfl, rfl⟩)
  · exact .inRow (.operation .generatorNext ⟨rfl, rfl⟩)
  · exact .inRow (.operation .setupTimer ⟨rfl, rfl⟩)
  · exact .inRow (.operation .startTimer ⟨rfl, rfl⟩)
  · exact .inRow (.operation .endTimer ⟨rfl, rfl⟩)
  · exact .inRow (.operation .getTimerResult ⟨rfl, rfl⟩)
  · exact .inRow (.operation .readFlashID ⟨rfl, rfl⟩)
  · exact .inRow (decodeBank_answers _)
  · exact .inRow (decodeSector_answers (fun _ => ⟨rfl, rfl⟩) _)
  · exact .inRow (decodeSector_answers (fun _ => ⟨rfl, rfl⟩) _)
  · exact .inRow (decodeProgram_answers (fun _ _ _ => ⟨rfl, rfl⟩) _)
  · exact .inRow (decodeProgram_answers (fun _ _ _ => ⟨rfl, rfl⟩) _)
  · exact .inRow (decodeSector_answers (fun _ => ⟨rfl, rfl⟩) _)
  · exact .inRow (decodeSector_answers (fun _ => ⟨rfl, rfl⟩) _)
  · exact .inRow (decodeSaveResults_answers _)
  · exact .inRow (decodeBattery_answers _)
  · exact .inRow (.operation .runFullTest ⟨rfl, rfl⟩)

/-- R97 gives ranges to operations of R92 only. -/
theorem Request.outOfRange.opsel_assigned {r : Request} (h : r.outOfRange) :
    r.opsel ∈ assignedOpsels := by
  simp only [assignedOpsels, List.mem_cons, List.not_mem_nil, or_false]
  unfold Request.outOfRange at h
  tauto

theorem decodeRequest_unassigned {r : Request} (h : r.opsel ∉ assignedOpsels) :
    decodeRequest r = .error (.unassignedOpsel r.opsel) := by
  simp only [assignedOpsels, List.mem_cons, List.not_mem_nil, or_false, not_or,
    BitVec.ofNat_eq_ofNat] at h
  simp [decodeRequest, h]

/-- Settles O3: an OPSEL that decodes is assigned, and then the row of R92 says it. -/
theorem decodedRequestIsWellFormedOperation : Obligations.DecodedRequestIsWellFormedOperation := by
  intro r i h
  have hassigned : r.opsel ∈ assignedOpsels := by
    by_contra hno
    cases (decodeRequest_unassigned hno).symm.trans h
  obtain ⟨hwf, hencoded⟩ := (decodeRequest_answers hassigned).encodedAt h
  exact ⟨hwf, DecodesOperation.decodeRequest r i h, Option.map_eq_some_iff.mp hencoded⟩

/-! ## Bus cycles (R94) -/

/-- The word of every bus cycle has the fixed bits of its row. -/
theorem encodeCycle_bits {i : Instr} {row : BusRow} {answer : Byte} {w : BitVec 24}
    (hrow : i.busRow = some row) (hw : encodeCycle answer i = some w) :
    w &&& row.mask = row.bits := by
  have of_statement (h : Laws.OneEncoding.Statement i) : w &&& row.mask = row.bits := by
    obtain ⟨-, -, hbits⟩ := h
    exact hbits answer row w hrow hw
  cases i with
  | unlock1 => exact of_statement Laws.OneEncoding.unlock1
  | unlock2 => exact of_statement Laws.OneEncoding.unlock2
  | cmdIdEntry => exact of_statement Laws.OneEncoding.cmdIdEntry
  | cmdIdExit => exact of_statement Laws.OneEncoding.cmdIdExit
  | cmdBank => exact of_statement Laws.OneEncoding.cmdBank
  | bankData bank => exact of_statement (Laws.OneEncoding.bankData bank)
  | cmdEraseSetup => exact of_statement Laws.OneEncoding.cmdEraseSetup
  | sectorErase sec => exact of_statement (Laws.OneEncoding.sectorErase sec)
  | cmdProgram => exact of_statement Laws.OneEncoding.cmdProgram
  | programData sec offset value =>
    exact of_statement (Laws.OneEncoding.programData sec offset value)
  | abort => exact of_statement Laws.OneEncoding.abort
  | rdId0 => exact of_statement Laws.OneEncoding.rdId0
  | rdId1 => exact of_statement Laws.OneEncoding.rdId1
  | rdPoll sec offset => exact of_statement (Laws.OneEncoding.rdPoll sec offset)
  | rdVerify sec offset => exact of_statement (Laws.OneEncoding.rdVerify sec offset)
  | scramblerNext | generatorNext | setupTimer | startTimer | endTimer | getTimerResult
  | readFlashID | switchFlashBank _ | eraseSector _ | eraseSectorTimed _ | programByte _ _ _
  | programByteTimed _ _ _ | zeroSector _ | randomizeSector _ | saveResults _ _ _ _ | runBattery _
  | runFullTest => cases hrow

/-- The offset's two fields of a word, and its data byte. -/
theorem extract_append (sec : BankSector) (offset : Offset) (v : Byte) :
    (sec ++ offset ++ v).extractLsb' 20 4 = sec ∧
      (sec ++ offset ++ v).extractLsb' 8 12 = offset ∧
      (sec ++ offset ++ v).extractLsb' 0 8 = v := by
  refine ⟨?_, ?_, BitVec.extractLsb'_append_eq_right⟩
  · rw [BitVec.extractLsb'_append_eq_of_le (by decide)]
    exact BitVec.extractLsb'_append_eq_left
  · rw [BitVec.extractLsb'_append_eq_of_le (by decide)]
    exact BitVec.extractLsb'_append_eq_right

/-- The fields of a row are taken back from the word that encodes them. -/
theorem BusRow.build_encodeCycle {i : Instr} {row : BusRow} {answer : Byte} {w : BitVec 24}
    (hrow : i.busRow = some row) (hw : encodeCycle answer i = some w) : row.build w = i := by
  cases i with
  | unlock1 | unlock2 | cmdIdEntry | cmdIdExit | cmdBank | cmdEraseSetup | cmdProgram | abort
  | rdId0 | rdId1 =>
    obtain rfl := Option.some.inj hrow
    rfl
  | bankData bank =>
    obtain rfl := Option.some.inj hrow
    obtain rfl := Option.some.inj hw
    have hbit : ∀ b : BitVec 1, (Params.bankOff ++ b.setWidth 8).extractLsb' 0 1 = b := by decide
    exact congrArg Instr.bankData (hbit bank)
  | sectorErase sec =>
    obtain rfl := Option.some.inj hrow
    obtain rfl := Option.some.inj hw
    exact congrArg Instr.sectorErase (extract_append sec 0 _).1
  | programData sec offset value =>
    obtain rfl := Option.some.inj hrow
    obtain rfl := Option.some.inj hw
    obtain ⟨hsec, hoffset, hvalue⟩ := extract_append sec offset value
    exact congr (congrArg₂ Instr.programData hsec hoffset) hvalue
  | rdPoll sec offset | rdVerify sec offset =>
    obtain rfl := Option.some.inj hrow
    obtain rfl := Option.some.inj hw
    obtain ⟨hsec, hoffset, -⟩ := extract_append sec offset answer
    exact congrArg₂ _ hsec hoffset
  | scramblerNext | generatorNext | setupTimer | startTimer | endTimer | getTimerResult
  | readFlashID | switchFlashBank _ | eraseSector _ | eraseSectorTimed _ | programByte _ _ _
  | programByteTimed _ _ _ | zeroSector _ | randomizeSector _ | saveResults _ _ _ _ | runBattery _
  | runFullTest => cases hrow

/-- Settles O2: the word has the fixed bits of its row, and the row takes its fields back. -/
theorem decodeOfEncodedCycle : Obligations.DecodeOfEncodedCycle := by
  intro i row answer w hrow hw
  rw [decodeCycle, if_pos ⟨rfl, encodeCycle_bits hrow hw⟩, BusRow.build_encodeCycle hrow hw]

/-- Settles O7: each word is decoded by its own row. -/
theorem wordsOfTheTableDecode : Obligations.WordsOfTheTableDecode := ⟨rfl, rfl, rfl, rfl, rfl, rfl⟩

end Sys2Proof

/-! The port and the step (spec/30_encoding.md R90, R95 to R97): what is taken at the port and what is
refused there, what a step runs, and that a running operation leaves the port alone. -/

namespace Sys2Proof.Machine

/-! ## Taking a request -/

/-- With no operation running, a step takes the request the host presents. -/
theorem step_issue {s : State} {r : Request} {rest : List HostMove} (htodo : s.seq.todo = [])
    (hhost : s.host = .issue r :: rest) : step s = acceptRequest r { s with host := rest } := by
  simp [step, hostStep, hhost, State.busy, htodo]

theorem acceptRequest_ok {r : Request} {i : Instr} (h : decodeRequest r = .ok i) (s : State) :
    acceptRequest r s = exec i (s.present r) := by
  simp [acceptRequest, h]

theorem acceptRequest_error {r : Request} {e : DecodeError} (h : decodeRequest r = .error e)
    (s : State) : acceptRequest r s = .refused (refusalOf e) := by
  simp [acceptRequest, h]

/-- Settles O4: no row of R92 has the OPSEL, and the port passes the decoder's refusal on. -/
theorem unassignedOpselIsRefused : Obligations.UnassignedOpselIsRefused := by
  intro s r rest htodo hhost hopsel
  have hdecode := decodeRequest_unassigned hopsel
  exact ⟨hdecode, (step_issue htodo hhost).trans (acceptRequest_error hdecode _)⟩

/-- The row of R92 says it, and an unassigned OPSEL is another refusal. -/
theorem outOfRange_iff_refused (r : Request) :
    r.outOfRange ↔ ∃ o, decodeRequest r = .error (.operandOutOfRange o) := by
  by_cases hopsel : r.opsel ∈ assignedOpsels
  · exact (decodeRequest_answers hopsel).refuses_iff
  · have hrange : ¬ r.outOfRange := fun h => hopsel h.opsel_assigned
    simp [hrange, decodeRequest_unassigned hopsel]

/-- Settles O5: row by row at the decoder, and the port passes the refusal on. -/
theorem operandOutOfRangeIsRefused : Obligations.OperandOutOfRangeIsRefused := by
  intro s r rest htodo hhost
  refine ⟨outOfRange_iff_refused r, fun h => ?_⟩
  obtain ⟨o, hdecode⟩ := (outOfRange_iff_refused r).mp h
  exact ⟨o, (step_issue htodo hhost).trans (acceptRequest_error hdecode _)⟩

/-! ## Operands at the meanings (R97, spec/44_statistics.md R174) -/

/-- The batteries are those of the indices in range. -/
theorem batteryOf_isSome (battery : BitVec 3) :
    (batteryOf battery).isSome = batteryInRange battery := by
  revert battery
  decide

theorem execRunBattery_refused {battery : BitVec 3} (h : batteryInRange battery = false)
    (s : State) : execRunBattery battery s = .refused (.operandOutOfRange .battery) := by
  have hnone : batteryOf battery = none := by simpa [← batteryOf_isSome] using h
  simp [execRunBattery, hnone]

theorem execRunBattery_completes {battery : BitVec 3} (h : batteryInRange battery = true)
    (s : State) : ∃ t, execRunBattery battery s = .next t := by
  rw [← batteryOf_isSome, Option.isSome_iff_exists] at h
  obtain ⟨b, hb⟩ := h
  simp [execRunBattery, hb]

theorem execSaveResults_refused {battery : BitVec 3} {n m : U16}
    (h : (batteryInRange battery && countsInRange n m) = false) (sector : Sector) (s : State) :
    ∃ o, execSaveResults battery sector n m s = .refused (.operandOutOfRange o) := by
  unfold execSaveResults
  split
  · exact ⟨_, rfl⟩
  · next b hb =>
    split
    · next hn =>
      split
      · next hm => simp [← batteryOf_isSome, countsInRange, hb, hn, hm] at h
      · exact ⟨_, rfl⟩
    · exact ⟨_, rfl⟩

theorem execSaveResults_completes {battery : BitVec 3} {n m : U16}
    (h : (batteryInRange battery && countsInRange n m) = true) (sector : Sector) (s : State) :
    ∃ t, execSaveResults battery sector n m s = .next t := by
  simp only [← batteryOf_isSome, countsInRange, Bool.and_eq_true, Option.isSome_iff_exists,
    decide_eq_true_eq] at h
  obtain ⟨⟨b, hb⟩, hn, hm⟩ := h
  simp [execSaveResults, hb, hn, hm]

/-- Settles O34: SaveResults and RunBattery check their operands, the others have none to check. -/
theorem illFormedOperationsAreRefused : Obligations.IllFormedOperationsAreRefused := by
  constructor
  · intro s i h
    cases i with
    | saveResults battery sector n m => exact execSaveResults_refused h sector s
    | runBattery battery => exact ⟨_, execRunBattery_refused h s⟩
    | _ => cases h
  · intro s i h
    cases i with
    | saveResults battery sector n m => exact execSaveResults_completes h sector s
    | runBattery battery => exact execRunBattery_completes h s
    | _ => exact ⟨_, rfl⟩

/-! ## What a step runs (R90, R95, spec/42_flash_protocol.md R141) -/

/-- The two tests of R141, completion first, else the turn is pending again. -/
theorem State.runPollTest_eq (t : State) (sec : BankSector) (offset : Offset) (expected : Byte) :
    t.runPollTest sec offset expected = { t with seq :=
      if t.seq.last = expected then { t.seq with ok := true }
      else if t.seq.last &&& 0x20 ≠ 0 then { t.seq with ok := false }
      else { t.seq with todo := .poll sec offset expected :: t.seq.todo } } := by
  unfold State.runPollTest pollStatus
  split_ifs <;> rfl

/-- Settles O6: at the port by the decoder, of a running operation by its next pending step. -/
theorem stepRunsDecodedInstruction : Obligations.StepRunsDecodedInstruction := by
  refine ⟨fun s r i rest htodo hhost hdecode => ?_, fun s i rest hhost htodo => ?_,
    fun s sec offset expected rest hhost htodo => ⟨_, rfl, ?_⟩⟩
  · exact (step_issue htodo hhost).trans (acceptRequest_ok hdecode _)
  · exact step_running hhost htodo
  · exact (step_running hhost htodo).trans (congrArg _ (State.runPollTest_eq _ sec offset expected))

/-! ## A running operation leaves the port alone (R90) -/

/-- The port and the host's moves still to come. -/
def State.port (s : State) : List HostMove × Byte × U32 × U32 × U32 :=
  (s.host, s.opsel, s.arg0, s.arg1, s.arg2)

theorem SeqOnly.port {s t : State} (h : SeqOnly s t) : t.port = s.port := by
  rw [h.frame]
  rfl

theorem State.port_tick (s : State) : s.tick.port = s.port := by simp [State.port]

theorem OneCycle.port {s t : State} (h : OneCycle s t) : t.port = s.port := by
  cases h with
  | write off v h => exact h.port.trans (by simp [State.port])
  | read off h => exact h.port.trans (by simp [State.port])

theorem exec_port {i : Instr} {s t : State} (h : exec i s = .next t) : t.port = s.port := by
  cases i with
  | scramblerNext | setupTimer | startTimer | endTimer | getTimerResult | readFlashID
  | switchFlashBank _ | eraseSector _ | eraseSectorTimed _ | programByte _ _ _
  | programByteTimed _ _ _ | zeroSector _ | randomizeSector _ | runFullTest =>
    obtain rfl := Host.Outcome.next.inj h
    simp [State.port]
  | generatorNext =>
    obtain rfl := Host.Outcome.next.inj h
    split <;> simp [State.port, State.generatorReturn]
  | saveResults _ _ _ _ =>
    obtain ⟨b, rfl⟩ := execSaveResults_next h
    simp [State.port]
  | runBattery _ =>
    obtain ⟨b, rfl⟩ := execRunBattery_next h
    simp [State.port]
  | unlock1 | unlock2 | cmdIdEntry | cmdIdExit | cmdBank | bankData _ | cmdEraseSetup
  | sectorErase _ | cmdProgram | programData _ _ _ | abort | rdId0 | rdId1 | rdPoll _ _
  | rdVerify _ _ => exact (exec_oneCycle (by simp [Instr.busRow]) h).port

theorem runMicro_port {m : Micro} {s t : State} (h : runMicro m s = .next t) : t.port = s.port := by
  cases m with
  | abortOnFailure | retryProgram _ _ _ | fill _ _ _ | verify _ _ _ | verifyTest _ _ | eraseGate _
  | sectorLoop _ _ | sectorBody _ _ | trial _ _ _ | programLoop _ _ _ | batteries _ =>
    obtain ⟨u, hu, rfl⟩ := runMicro_internal rfl h
    exact u.port_tick.trans hu.port
  | cycle i => exact exec_port h
  | poll _ _ _ => exact (runPoll_oneCycle h).port
  | setupTimer | startTimer | endTimer | latchId | saveSector _ _ =>
    obtain rfl := Host.Outcome.next.inj h
    simp [State.port, State.runLatchId, State.runSaveSector]
  | drawPbuf off =>
    obtain rfl := Host.Outcome.next.inj h
    unfold State.runDrawPbuf
    split_ifs <;> simp [State.port]
  | seedRetry =>
    obtain rfl := Host.Outcome.next.inj h
    unfold State.runSeedRetry
    split <;> simp [State.port, State.generatorReturn]
  | ret kind =>
    obtain rfl := Host.Outcome.next.inj h
    cases kind <;> simp [State.port, State.finish]
  | collect =>
    obtain ⟨-, rfl⟩ | rfl := runCollect_next h
    · simp [State.port, State.appendSample]
    · exact s.port_tick

theorem engineStep_port {s t : State} (h : engineStep s = .next t) : t.port = s.port := by
  unfold engineStep at h
  split at h
  · rw [Host.Outcome.next.inj h]
  · next m rest _ => exact runMicro_port (s := s.withTodo rest) h

/-- Settles O48: while an operation runs the step is the engine's, and no step of it writes the port. -/
theorem requestWaitsWhileBusy : Obligations.RequestWaitsWhileBusy := by
  intro s r rest t hbusy hhost h
  have hstep : step s = engineStep s := by simp [step, hostStep, hhost, hbusy]
  have hport : t.port = s.port := engineStep_port (hstep ▸ h)
  simpa [State.port] using hport

/-- Settles O44: no cycle has been seen and nothing is pending. -/
theorem busInLanguageAfterReset : Obligations.BusInLanguageAfterReset := ⟨.stands .idle, rfl, rfl⟩

/-! ## Single bus cycles (R94, spec/20_memory.md R52) -/

theorem windowAddr_eq_ofNat (sec : BankSector) (offset : Offset) :
    windowAddr sec offset = BitVec.ofNat 16 (sec.toNat * 4096 + offset.toNat) := by
  rw [← windowAddr_toNat, BitVec.ofNat_toNat, BitVec.setWidth_eq]

theorem windowAddr_zero_eq_ofNat (sec : BankSector) :
    windowAddr sec 0 = BitVec.ofNat 16 (sec.toNat * 4096) := by
  simpa using windowAddr_eq_ofNat sec 0

/-- Settles O51: the row's cycle is one write, and what a write leaves is known. -/
theorem busWritesComplete : Obligations.BusWritesComplete := by
  intro s i off v sec offset value bank hrow
  suffices h : exec i s = .next (s.busWrite off v) by
    refine ⟨_, h, s.busWrite_bus off v, s.busWrite_chip off v, ?_⟩
    rw [s.busWrite_bus, s.busWrite_chip]
    rfl
  rw [← windowAddr_zero_eq_ofNat, ← windowAddr_eq_ofNat] at hrow
  simp only [List.mem_cons, Prod.mk.injEq, List.not_mem_nil, or_false] at hrow
  obtain ⟨rfl, rfl, rfl⟩ | ⟨rfl, rfl, rfl⟩ | ⟨rfl, rfl, rfl⟩ | ⟨rfl, rfl, rfl⟩ | ⟨rfl, rfl, rfl⟩ |
    ⟨rfl, rfl, rfl⟩ | ⟨rfl, rfl, rfl⟩ | ⟨rfl, rfl, rfl⟩ | ⟨rfl, rfl, rfl⟩ | ⟨rfl, rfl, rfl⟩ |
    ⟨rfl, rfl, rfl⟩ := hrow
  all_goals rfl

/-- What a read leaves, whatever latch of the sequencer takes its byte. -/
theorem State.busRead_latched (s : State) (off : U16) (q : Sequencer) :
    ({ s.busRead off with seq := q } : State) = { State.tick { s with
      chip := (s.busRead off).chip
      draws := (s.chip.read off s.draws).draws
      bus := (s.busRead off).bus } with seq := q } := by
  rw [s.busRead_bus, s.busRead_chip]
  rfl

/-- Settles O52: the row's cycle is one read, and its byte goes to the row's latch. -/
theorem busReadsComplete : Obligations.BusReadsComplete := by
  intro s i off sec offset hrow
  rw [← windowAddr_eq_ofNat] at hrow
  simp only [List.mem_cons, Prod.mk.injEq, List.not_mem_nil, or_false] at hrow
  obtain ⟨rfl, rfl⟩ | ⟨rfl, rfl⟩ | ⟨rfl, rfl⟩ | ⟨rfl, rfl⟩ := hrow
  all_goals
    exact ⟨_, _, rfl, rfl, s.busRead_bus _, s.busRead_chip _,
      by simp [State.setLast, State.busByte], s.busRead_latched _ _⟩

end Sys2Proof.Machine

/-! The scrambler (spec/40_prng.md R110): SCR runs through every value because its increment is odd, and
the mixing of the result is a bijection. -/

namespace Sys2Proof.Machine

/-! ## SCR runs through every value -/

theorem State.scramble_iterate_scr (s : State) (k : Nat) :
    (State.scramble^[k] s).scr = BitVec.ofNat 64 k * Params.scrInc + s.scr := by
  induction k with
  | zero => simp
  | succ k ih =>
    rw [Function.iterate_succ_apply', State.scramble_scr, ih]
    generalize Params.scrInc = c
    rw [BitVec.ofNat_add, BitVec.add_mul, BitVec.one_mul, ← BitVec.add_assoc,
      BitVec.add_comm c]

/-- Settles O9: the number of calls is the distance to `v` times the inverse of SCR_INC. -/
theorem scramblerVisitsEveryValue : Obligations.ScramblerVisitsEveryValue := by
  intro s v
  refine ⟨((v - s.scr) * scrIncInverse).toNat, ?_⟩
  rw [State.scramble_iterate_scr, BitVec.ofNat_toNat, BitVec.setWidth_eq, BitVec.mul_assoc,
    scrInc_inverse, BitVec.mul_one, BitVec.sub_add_cancel]

/-! ## The mixing -/

theorem eq_zero_of_eq_ushiftRight {w k : Nat} (hk : k ≠ 0) {x : BitVec w} (h : x = x >>> k) :
    x = 0 := by
  have hx : x.toNat = x.toNat / 2 ^ k := by
    rw [← Nat.shiftRight_eq_div_pow, ← BitVec.toNat_ushiftRight, ← h]
  have h0 : x.toNat = 0 := by
    by_contra hne
    exact (Nat.div_lt_self (Nat.pos_of_ne_zero hne) (Nat.one_lt_two_pow hk)).ne hx.symm
  exact BitVec.eq_of_toNat_eq h0

/-- The xor of two values with the same xor-shift is its own shift, so it is 0. -/
theorem xorShift_injective (w : Nat) {k : Nat} (hk : k ≠ 0) :
    Function.Injective fun z : BitVec w => z ^^^ (z >>> k) := by
  intro x y h
  refine BitVec.xor_eq_zero_iff.mp (eq_zero_of_eq_ushiftRight hk ?_)
  rw [← BitVec.xor_eq_zero_iff, BitVec.ushiftRight_xor_distrib]
  calc x ^^^ y ^^^ (x >>> k ^^^ y >>> k)
      = (x ^^^ x >>> k) ^^^ (y ^^^ y >>> k) := by ac_rfl
    _ = 0 := BitVec.xor_eq_zero_iff.mpr h

theorem scrM1_isUnit : IsUnit Params.scrM1 := .of_mul_eq_one 0x96DE1B173F119089 (by decide)

theorem scrM2_isUnit : IsUnit Params.scrM2 := .of_mul_eq_one 0x319642B2D24D8EC3 (by decide)

/-- Settles O10: each xor-shift is injective, each multiplier is odd, and the 64-bit values are finite. -/
theorem scramblerMixIsBijective : Obligations.ScramblerMixIsBijective := by
  have hround1 := scrM1_isUnit.mul_left_injective.comp
    (xorShift_injective 64 (k := Params.scrS1) (by decide))
  have hround2 := scrM2_isUnit.mul_left_injective.comp
    (xorShift_injective 64 (k := Params.scrS2) (by decide))
  have hfinal := xorShift_injective 64 (k := Params.scrS3) (by decide)
  exact (hfinal.comp (hround2.comp hround1)).bijective_of_finite

/-- Settles O8: the operation is the advance, the mixed value in RES and the Tick. -/
theorem scramblerNextResult : Obligations.ScramblerNextResult := fun _ => rfl

end Sys2Proof.Machine

/-! The generator (spec/40_prng.md R111, R112): its advance is a permutation, and GeneratorNext returns from
every state, seeded or not. -/

namespace Sys2Proof.Machine

/-! ## The advance is linear -/

/-- The word-wise xor of two generators. -/
def Gen.xor (x y : Gen) : Gen := ⟨x.g0 ^^^ y.g0, x.g1 ^^^ y.g1, x.g2 ^^^ y.g2, x.g3 ^^^ y.g3⟩

theorem Gen.xor_eq_zero_iff (x y : Gen) : x.xor y = Gen.zero ↔ x = y := by
  cases x
  cases y
  simp [Gen.xor, Gen.zero]

theorem rotl32_eleven_xor (x y : U32) : rotl32 (x ^^^ y) 11 = rotl32 x 11 ^^^ rotl32 y 11 := by
  ext i hi
  by_cases h : i < 11
  · simp [rotl32, h]
  · have hout (z : U32) : z.getLsbD (21 + i) = false := BitVec.getLsbD_of_ge z (21 + i) (by omega)
    simp [rotl32, h, hout]

theorem genAdvance_xor (x y : Gen) :
    genAdvance (x.xor y) = (genAdvance x).xor (genAdvance y) := by
  have hrot : rotl32 ((x.g3 ^^^ y.g3) ^^^ (x.g1 ^^^ y.g1)) 11 =
      rotl32 (x.g3 ^^^ x.g1) 11 ^^^ rotl32 (y.g3 ^^^ y.g1) 11 := by
    rw [← rotl32_eleven_xor]
    congr 1
    ac_rfl
  simp only [genAdvance, Gen.xor, BitVec.shiftLeft_xor_distrib, Gen.mk.injEq]
  exact ⟨by ac_rfl, by ac_rfl, by ac_rfl, hrot⟩

/-- Two generators with the same advance differ by one that advances to zero, which is zero. -/
theorem genAdvance_injective : Function.Injective genAdvance := by
  intro x y h
  refine (Gen.xor_eq_zero_iff x y).mp (eq_zero_of_genAdvance ?_)
  rw [genAdvance_xor]
  exact (Gen.xor_eq_zero_iff _ _).mpr h

theorem Gen.finite : Finite Gen :=
  Finite.of_injective (fun g : Gen => (g.g0, g.g1, g.g2, g.g3)) fun x y h => by
    cases x
    cases y
    simpa using h

/-- Settles O13: the advance is injective on finitely many states. -/
theorem generatorAdvanceIsPermutation : Obligations.GeneratorAdvanceIsPermutation :=
  have := Gen.finite
  ⟨genAdvance_injective.bijective_of_finite, by decide⟩

/-! ## GeneratorNext on a seeded generator -/

theorem State.seeded_of_seeded {s : State} (h : s.genInit = true) : s.seeded = s := if_pos h

theorem execGeneratorNext_returns {s : State} (h : s.seeded.genInit = true) :
    exec .generatorNext s = .next s.seeded.generatorReturn.tick :=
  congrArg (fun u : State => Host.Outcome.next u.tick) (if_pos h)

theorem execGeneratorNext_retries {s : State} (h : s.seeded.genInit = false) :
    exec .generatorNext s = .next (s.seeded.push [.seedRetry]).tick :=
  congrArg (fun u : State => Host.Outcome.next u.tick) (if_neg (by simp [h]))

/-- Settles O11: a seeded generator is left as it is before it advances. -/
theorem generatorNextResult : Obligations.GeneratorNextResult := by
  intro s h
  have hs := State.seeded_of_seeded h
  rw [execGeneratorNext_returns (hs.symm ▸ h), hs]
  rfl

/-! ## GeneratorNext on a generator not yet seeded -/

theorem State.seeded_of_unseeded {s : State} (h : s.genInit = false) : s.seeded = { s with
    scr := scrAfter s.scr 1, gen := seedWords s.scr, genInit := (seedWords s.scr).nonzero } := by
  rw [State.seeded, if_neg (by simp [h]), State.seedAttempt_eq]

/-- What a seeding attempt that gives all-zero words leaves. -/
def State.rejected (s : State) : State := { s with
  scr := scrAfter s.scr 1, gen := Gen.zero, genInit := false }

/-- What GeneratorNext returns with when `n` attempts are rejected and the next is not, its Ticks aside. -/
def State.generatedAfter (s : State) (n : Nat) : State := (s.seededAfter n).generatorReturn

theorem State.seeded_of_rejected {s : State} (h : s.genInit = false)
    (h0 : seedWords s.scr = Gen.zero) : s.seeded = s.rejected := by
  rw [State.seeded_of_unseeded h, h0]
  rfl

theorem State.seeded_of_accepted {s : State} (h : s.genInit = false)
    (h0 : seedWords s.scr ≠ Gen.zero) : s.seeded = s.seededAfter 0 := by
  rw [State.seeded_of_unseeded h, (Gen.nonzero_iff _).mpr h0]
  rfl

theorem State.rejected_seededAfter (s : State) (n : Nat) :
    s.rejected.seededAfter n = s.seededAfter (n + 1) := by
  unfold State.seededAfter
  rw [show s.rejected.scr = scrAfter s.scr 1 from rfl, scrAfter_add, scrAfter_add,
    Nat.add_comm 1, Nat.add_comm 1]
  rfl

theorem State.generatorReturn_tick (s : State) :
    s.tick.generatorReturn = s.generatorReturn.tick := by
  unfold State.generatorReturn State.tick State.advanceCounters
  by_cases h : s.tloEn = true <;> simp [h, State.drawn, State.genStep, State.setRes]

theorem State.rejected_tick_generatedAfter (s : State) (n : Nat) :
    s.rejected.tick.generatedAfter n = (s.generatedAfter (n + 1)).tick := by
  unfold State.generatedAfter
  rw [State.seededAfter_tick, State.rejected_seededAfter, State.generatorReturn_tick]

theorem execGeneratorNext_rejected {s : State} (hi : Idle s) (h : s.genInit = false)
    (h0 : seedWords s.scr = Gen.zero) :
    exec .generatorNext s = .next (s.rejected.tick.withTodo [.seedRetry]) := by
  have hpush : s.rejected.push [.seedRetry] = s.rejected.withTodo [.seedRetry] := by
    rw [State.push_eq, show s.rejected.seq = Sequencer.empty from hi.2]
    rfl
  have hs := State.seeded_of_rejected h h0
  rw [execGeneratorNext_retries (hs ▸ rfl), hs, hpush, State.withTodo_tick]

/-- With nothing else pending, the retry of a seeding attempt is GeneratorNext issued again. -/
theorem runMicro_seedRetry_eq_exec {s : State} (h : s.seq = Sequencer.empty) :
    runMicro .seedRetry s = exec .generatorNext s := by
  have hseq : s.seeded.seq = Sequencer.empty := s.seeded_seq.trans h
  have hclear : s.seeded.generatorReturn.clearSeq = s.seeded.generatorReturn := by
    unfold State.clearSeq
    rw [← hseq]
    rfl
  change Host.Outcome.next s.runSeedRetry.tick = _
  rw [State.runSeedRetry, hclear]
  rfl

theorem Returns.runs_seedRetry {s u : State} (hi : Idle s) (h : Returns .generatorNext s u) :
    Runs (s.withTodo [.seedRetry]) u := by
  obtain ⟨hhost, hseq⟩ := hi
  obtain ⟨t, ht, hr⟩ := h
  have hnil : s.withTodo [] = s := by
    rw [show [] = s.seq.todo by rw [hseq]; rfl, State.withTodo_todo]
  exact Runs.micro hhost (by rw [hnil, runMicro_seedRetry_eq_exec hseq, ht]) hr

/-- GeneratorNext returns with the first words that are not all zero, one Tick for each attempt. -/
theorem returns_generatorNext {s : State} {n : Nat} (hi : Idle s) (hg : s.genInit = false)
    (hr : ∀ j < n, seedWords (scrAfter s.scr j) = Gen.zero)
    (hn : seedWords (scrAfter s.scr n) ≠ Gen.zero) :
    Returns .generatorNext s (State.tick^[n + 1] (s.generatedAfter n)) := by
  induction n generalizing s with
  | zero =>
    have hs := State.seeded_of_accepted hg hn
    exact ⟨_, by rw [execGeneratorNext_returns (hs ▸ rfl), hs]; rfl, Runs.refl _⟩
  | succ n ih =>
    have hidle : Idle s.rejected.tick :=
      ⟨(State.tick_host _).trans hi.1, (State.tick_seq _).trans hi.2⟩
    have hscr (j : Nat) : scrAfter s.rejected.tick.scr j = scrAfter s.scr (j + 1) := by
      rw [State.tick_scr, Nat.add_comm]
      exact scrAfter_add s.scr 1 j
    have h := ih hidle (State.tick_genInit _)
      (fun j hj => by rw [hscr]; exact hr (j + 1) (by omega)) (by rwa [hscr])
    rw [State.rejected_tick_generatedAfter, ← Function.iterate_succ_apply State.tick] at h
    exact ⟨_, execGeneratorNext_rejected hi hg (hr 0 (by omega)), h.runs_seedRetry hidle⟩

/-- Settles O12: seeding ends with some attempt, and until then each retry is a call issued again. -/
theorem generatorNextSeedsAndReturns : Obligations.GeneratorNextSeedsAndReturns := by
  intro s hi hg
  obtain ⟨n, hr, hn⟩ := seeding_first s.scr
  exact ⟨n, _, hr, hn, returns_generatorNext hi hg hr hn, rfl⟩

end Sys2Proof.Machine

/-! The timer (spec/41_timer.md R120 to R123, R129): what each of its operations leaves, and when
other software writes its registers. -/

namespace Sys2Proof.Machine

/-! ## Ticks around the timer's writes -/

/-- While the low counter is held, a Tick only draws. -/
theorem State.tick_of_held {s : State} (h : s.tloEn = false) : s.tick = s.drawn :=
  congrArg State.drawn (if_neg (by simp [h]))

theorem State.setupTimer_eq (s : State) : s.setupTimer = { s with
    ime := false, tloEn := false, tloCnt := 0, thiCnt := 0, thiEn := true, thiCascade := true
    tmrState := .armed, draws := s.draws + 1 } := State.tick_of_held rfl

theorem State.endTimer_eq (s : State) : s.endTimer = { s with
    tloEn := false, ime := true, tmrState := if s.tmrState = .running then .stopped else .idle
    draws := s.draws + 1 } := State.tick_of_held rfl

/-- The counters advance whatever RES and the number of draws are. -/
theorem State.advanceCounters_withRes (s : State) (c n : Nat) (r : U64) :
    State.advanceCounters { s with draws := n, res := r } c =
      { s.advanceCounters c with draws := n, res := r } := by
  unfold State.advanceCounters
  split <;> rfl

theorem State.startTimer_unspecifyRes (s : State) : s.unspecifyRes.startTimer =
    { State.advanceCounters
        { s with tloEn := true, tmrState := if s.tmrState = .armed then .running else .idle }
        (Config.cycleCost (s.draws + 1)) with
      draws := s.draws + 2, res := Config.unspecifiedRes s.draws } :=
  congrArg State.drawn (State.advanceCounters_withRes
    { s with tloEn := true, tmrState := if s.tmrState = .armed then .running else .idle } _ _ _)

/-! ## The three calls that time a primitive -/

/-- Settles O14: the low counter is held before the Tick, which therefore counts nothing. -/
theorem setupTimerResult : Obligations.SetupTimerResult :=
  fun s => ⟨_, congrArg Host.Outcome.next s.unspecifyRes.setupTimer_eq, rfl⟩

/-- Settles O15: the Tick comes after the low counter is started, and its draw after that of RES. -/
theorem startTimerResult : Obligations.StartTimerResult :=
  fun s => ⟨_, congrArg Host.Outcome.next s.startTimer_unspecifyRes, rfl⟩

/-- Settles O16: the low counter is held before the Tick, which therefore counts nothing. -/
theorem endTimerResult : Obligations.EndTimerResult :=
  fun s => ⟨_, congrArg Host.Outcome.next s.unspecifyRes.endTimer_eq, rfl⟩

/-! ## Reading the count -/

/-- The composite count, as GetTimerResult widens it to RES. -/
theorem State.count_setWidth (s : State) :
    s.count.setWidth 64 = BitVec.ofNat 64 (s.thiCnt.toNat * 65536 + s.tloCnt.toNat) := by
  rw [← State.count_toNat, BitVec.ofNat_toNat]

theorem execGetTimerResult_stopped {s : State} (h : s.tmrState = .stopped) :
    exec .getTimerResult s = .next (s.setRes (s.count.setWidth 64)).tick :=
  congrArg₂ (fun (u : State) (v : U32) => Host.Outcome.next (u.setRes (v.setWidth 64)).tick)
    (if_pos h) (if_pos h)

theorem execGetTimerResult_drawn {s : State} (h : s.tmrState ≠ .stopped) :
    exec .getTimerResult s =
      .next (s.drawn.setRes ((Config.meaninglessSample s.draws).setWidth 64)).tick :=
  congrArg₂ (fun (u : State) (v : U32) => Host.Outcome.next (u.setRes (v.setWidth 64)).tick)
    (if_neg h) (if_neg h)

/-- Settles O17: the two branches of R123, and in Stopped the composite count in numbers. -/
theorem getTimerResultValue : Obligations.GetTimerResultValue := by
  intro s
  refine ⟨fun h => ?_, fun h => execGetTimerResult_drawn h⟩
  rw [execGetTimerResult_stopped h, State.count_setWidth]
  rfl

/-! ## Writes of other software -/

theorem State.timerOwned_iff (s : State) :
    s.timerOwned = true ↔ s.tmrState = .armed ∨ s.tmrState = .running := by
  cases h : s.tmrState <;> simp [State.timerOwned, h]

theorem State.not_timerOwned_iff (s : State) :
    s.timerOwned = false ↔ s.tmrState = .idle ∨ s.tmrState = .stopped := by
  cases h : s.tmrState <;> simp [State.timerOwned, h]

/-- With no operation running, a step takes the write the platform presents. -/
theorem step_platform {s : State} {w : PlatformWrite} {rest : List HostMove}
    (htodo : s.seq.todo = []) (hhost : s.host = .platform w :: rest) :
    step s = acceptPlatform w { s with host := rest } := by
  simp [step, hostStep, hhost, State.busy, htodo]

/-- Settles O47: FSTE owns the timer in Armed and Running, and elsewhere the step is the write. -/
theorem platformWritesOnlyBetweenTimedPrimitives :
    Obligations.PlatformWritesOnlyBetweenTimedPrimitives := by
  intro s w rest htodo hhost
  rw [step_platform htodo hhost]
  refine ⟨fun h => if_pos (s.timerOwned_iff.mpr h), fun h => ?_⟩
  refine (if_neg (ne_true_of_eq_false (s.not_timerOwned_iff.mpr h))).trans ?_
  cases w <;> rfl

end Sys2Proof.Machine

/-! Operations of FCP on a chip whose answers are given (spec/42_flash_protocol.md R142 to R147), from
issue to return: the exact cycles, the result and what is left alone. -/

namespace Sys2Proof.Machine

/-! ## A return -/

/-- The state in which an operation returns `ok` once its steps have led to `u`, the chip answering
`answers` from then on. -/
def State.returned (u : State) (answers : List Byte) : State :=
  (((u.withChip (.oracle answers)).withTodo []).finish .ok).tick

@[simp] theorem State.returned_chip (u : State) (answers : List Byte) :
    (u.returned answers).chip = .oracle answers := by simp [State.returned]

@[simp] theorem State.returned_bus (u : State) (answers : List Byte) :
    (u.returned answers).bus = u.bus := by simp [State.returned]

theorem State.returned_res (u : State) (answers : List Byte) :
    (u.returned answers).res = boolRes u.seq.ok := by simp [State.returned, State.finish]

theorem Saw.withChip {tr : List BusEvent} {s u : State} (h : Saw tr s u) (c : Chip) :
    Saw tr s (u.withChip c) where
  bus := h.bus
  only := by simpa [onlyBus_iff] using (onlyBus_iff _ _).mp h.only
  n := h.n

theorem Saw.returned {tr : List BusEvent} {s u : State} (h : Saw tr s u)
    (hq : s.seq = Sequencer.empty) (answers : List Byte) :
    OnlyBusAndRes s (u.returned answers) := (h.withChip _).onlyBusAndRes hq .ok

/-! ## Commands that poll (R141) -/

theorem pollStatus_decided {expected e : Byte} (h : e = expected ∨ e &&& 0x20 ≠ 0) :
    pollStatus expected e ≠ .pending := fun hp =>
  have ⟨hne, hbit⟩ := (pollStatus_pending_iff expected e).mp hp
  h.elim hne fun hfail => hfail hbit

theorem pollStatus_pending_of_forall {expected : Byte} {pend : List Byte}
    (h : ∀ b ∈ pend, b ≠ expected ∧ b &&& 0x20 = 0) :
    ∀ b ∈ pend, pollStatus expected b = .pending :=
  fun b hb => (pollStatus_pending_iff expected b).mpr (h b hb)

theorem boolRes_poll (expected e : Byte) :
    boolRes (decide (pollStatus expected e = .completed)) = if e = expected then 1 else 0 := by
  simp [boolRes, pollStatus_completed_iff]

theorem abortTrace_poll (expected e : Byte) :
    abortTrace (decide (pollStatus expected e = .completed)) =
      if e = expected then [] else [.write 0x5555 0xF0] := by
  simp [abortTrace, pollStatus_completed_iff]

/-- An operation that returns `ok`, its steps having polled: what they lead to decides the return. -/
theorem Feeds.pollReturns {s u : State} {i : Instr} {l : List Micro} {w : List BusEvent} {a : U16}
    {expected e : Byte} {pend answers : List Byte} (hi : Idle s)
    (hc : s.chip = .oracle (pend ++ e :: answers))
    (hexec : exec i s = .next (s.load (l ++ [.ret .ok]))) (hf : Feeds l (pend ++ [e]) s.tick u)
    (hh : u.host = s.tick.host) (hok : u.seq.ok = decide (pollStatus expected e = .completed))
    (hbus : u.bus = (w ++ pollTrace a (pend ++ [e]) ++
      abortTrace (decide (pollStatus expected e = .completed))).reverse ++ s.tick.bus) :
    Returns i s (u.returned answers) ∧
      (u.returned answers).res = (if e = expected then 1 else 0) ∧
      (u.returned answers).bus = (w ++ pollTrace a (pend ++ [e]) ++
        (if e = expected then [] else [BusEvent.write 0x5555 0xF0])).reverse ++ s.bus := by
  refine ⟨hf.returns hi (by simpa using hc) hexec (hh.trans (by simpa using hi.1)), ?_, ?_⟩
  · rw [u.returned_res, hok, boolRes_poll]
  · rw [u.returned_bus, hbus, abortTrace_poll, s.tick_bus]

/-- Settles O22: six writes, the poll of the sector's first byte, and the abort of a failure. -/
theorem eraseSectorCompletes : Obligations.EraseSectorCompletes := by
  intro s sector pend answers e hi hc hp he
  obtain ⟨u, hf, hok, hsaw⟩ := Feeds.erase (s := s.tick) (sector := sector) (by simpa using hi.1)
    (pollStatus_pending_of_forall hp) (pollStatus_decided he)
  obtain ⟨hret, hres, hbus⟩ :=
    hf.pollReturns (i := .eraseSector sector) hi hc rfl hsaw.host hok hsaw.bus
  exact ⟨_, hret, u.returned_chip _, hres, hbus, hsaw.after.returned hi.2 _⟩

/-- Settles O24: four writes, the poll of the byte, and the abort of a failure. -/
theorem programByteCompletes : Obligations.ProgramByteCompletes := by
  intro s sector offset value pend answers e hi hc hp he
  obtain ⟨u, hf, hok, hsaw⟩ := Feeds.program (s := s.tick) (sector := sector) (offset := offset)
    (by simpa using hi.1) (pollStatus_pending_of_forall hp) (pollStatus_decided he)
  obtain ⟨hret, hres, hbus⟩ :=
    hf.pollReturns (i := .programByte sector offset value) hi hc rfl hsaw.host hok hsaw.bus
  exact ⟨_, hret, u.returned_chip _, hres, hbus, hsaw.after.returned hi.2 _⟩

/-! ## Timed commands (R128, R145, R147) -/

theorem OnlyTimedBusAndRes.host {s u : State} (h : OnlyTimedBusAndRes s u) : u.host = s.host := by
  rw [OnlyTimedBusAndRes] at h
  rw [h]

theorem OnlyTimedBusAndRes.tloEn {s u : State} (h : OnlyTimedBusAndRes s u) : u.tloEn = false :=
  congrArg State.tloEn h

/-- The return of a timed primitive is not counted, and neither is its issue. -/
theorem State.returned_count {s u : State} {n k : Nat} (h : u.tloEn = false)
    (hcount : u.count.toNat = cyclesOf (s.tick.draws + n) k % 2 ^ 32) (answers : List Byte) :
    (u.returned answers).count.toNat = cyclesOf (s.draws + (1 + n)) k % 2 ^ 32 := by
  have hheld : (u.returned answers).count = u.count := State.tick_count_held h
  rw [hheld, hcount, s.tick_draws, Nat.add_assoc]

/-- What a timed primitive leaves alone, between its issue and its return. -/
theorem OnlyTimedBusAndRes.returned {s u : State}
    (h : OnlyTimedBusAndRes { s.tick with seq := u.seq } u) (hq : s.seq = Sequencer.empty)
    (answers : List Byte) : OnlyTimedBusAndRes s (u.returned answers) := by
  rw [OnlyTimedBusAndRes, State.ext_iff] at h ⊢
  simp_all [State.returned, State.finish]

/-- Settles O23: the timer runs from just before the confirm to the end of the poll. -/
theorem eraseSectorTimedCompletes : Obligations.EraseSectorTimedCompletes := by
  intro s sector pend answers e hi hc hp he
  obtain ⟨u, hf, hok, hbus, hcount, -, -, honly⟩ := Feeds.eraseTimed (s := s.tick)
    (sector := sector) (by simpa using hi.1) (pollStatus_pending_of_forall hp)
    (pollStatus_decided he)
  obtain ⟨hret, hres, hbus⟩ :=
    hf.pollReturns (i := .eraseSectorTimed sector) hi hc rfl honly.host hok hbus
  exact ⟨_, hret, u.returned_chip _, hres, hbus, State.returned_count honly.tloEn hcount _,
    honly.returned hi.2 _⟩

/-- Settles O25: the timer runs from just before the data write to the end of the poll. -/
theorem programByteTimedCompletes : Obligations.ProgramByteTimedCompletes := by
  intro s sector offset value pend answers e hi hc hp he
  obtain ⟨u, hf, hok, hbus, hcount, -, -, honly⟩ := Feeds.programTimed (s := s.tick)
    (sector := sector) (offset := offset) (by simpa using hi.1) (pollStatus_pending_of_forall hp)
    (pollStatus_decided he)
  obtain ⟨hret, hres, hbus⟩ :=
    hf.pollReturns (i := .programByteTimed sector offset value) hi hc rfl honly.host hok hbus
  exact ⟨_, hret, u.returned_chip _, hres, hbus, State.returned_count honly.tloEn hcount _,
    honly.returned hi.2 _⟩

/-! ## Cycles on any chip -/

/-- From every state in `A` the steps `l` lead to one in `B`, send exactly the cycles `tr`, and change
nothing but what cycles and latches touch. -/
def Sends (l : List Micro) (tr : List BusEvent) (A B : State → Prop) : Prop :=
  ∀ s, s.host = [] → A s → ∃ u, RunsThrough l s u ∧ Saw tr s u ∧ B u

/-- The chip answers `answers` next, and the latches are as `P` says. -/
def Answering (answers : List Byte) (P : Sequencer → Prop) (s : State) : Prop :=
  s.chip = .oracle answers ∧ P s.seq

/-- No write of the bus leads out of `A`. -/
def KeptByWrites (A : State → Prop) : Prop := ∀ s off v, A s → A (s.busWrite off v)

theorem Answering.keptByWrites (answers : List Byte) (P : Sequencer → Prop) :
    KeptByWrites (Answering answers P) := fun s off v ⟨hc, hp⟩ =>
  ⟨by rw [s.busWrite_chip, hc]; rfl, by rwa [s.busWrite_seq]⟩

/-- The cycles of a ReadFlashID answered `m` and `d` (R142). -/
def readIdTrace (m d : Byte) : List BusEvent :=
  [.write 0x5555 0xAA, .write 0x2AAA 0x55, .write 0x5555 0x90, .read 0x0000 m, .read 0x0001 d,
    .write 0x5555 0xAA, .write 0x2AAA 0x55, .write 0x5555 0xF0]

namespace Sends

variable {l l' : List Micro} {tr tr' : List BusEvent} {A B C : State → Prop} {i : Instr} {off : U16}

theorem append (h1 : Sends l tr A B) (h2 : Sends l' tr' B C) : Sends (l ++ l') (tr ++ tr') A C := by
  intro s hh ha
  obtain ⟨t, hr, hsaw, hb⟩ := h1 s hh ha
  obtain ⟨u, hr', hsaw', hc⟩ := h2 t (hsaw.host.trans hh) hb
  exact ⟨u, hr.append hr', hsaw.trans hsaw', hc⟩

theorem write {v : Byte} (hi : ∀ t, exec i t = .next (t.busWrite off v)) (hA : KeptByWrites A) :
    Sends [.cycle i] [.write off v] A A := fun s hh ha =>
  ⟨_, .micro hh fun rest => by rw [← State.withTodo_busWrite]; exact hi _, .busWrite s off v,
    hA s off v ha⟩

theorem unlock (hA : KeptByWrites A) :
    Sends unlockSteps [.write 0x5555 0xAA, .write 0x2AAA 0x55] A A :=
  (write (fun _ => rfl) hA).append (write (fun _ => rfl) hA)

/-- A read whose byte goes to a latch. -/
theorem read {b : Byte} {answers : List Byte} {latch : Byte → Sequencer → Sequencer}
    {P Q : Sequencer → Prop}
    (hi : ∀ t, exec i t = .next { t.busRead off with seq := latch (t.busByte off) t.seq })
    (hl : ∀ q todo, latch b { q with todo := todo } = { latch b q with todo := todo })
    (hn : ∀ q, (latch b q).n = q.n) (hq : ∀ q, P q → Q (latch b q)) :
    Sends [.cycle i] [.read off b] (Answering (b :: answers) P) (Answering answers Q) := by
  intro s hh ⟨hc, hp⟩
  have hb : s.busByte off = b := State.busByte_oracle hc off
  refine ⟨{ s.busRead off with seq := latch b s.seq }, .micro hh fun rest => (hi _).trans ?_,
    ?_, by simp [hc], hq _ hp⟩
  · rw [State.withTodo_busByte, State.withTodo_busRead, State.withTodo_seq, hb, hl]
    rfl
  · simpa only [hb] using (Saw.busRead s off).latch (latch b s.seq) (hn _)

theorem switchBank (bank : BitVec 1) (hA : KeptByWrites A) : Sends (switchBankSteps bank)
    [.write 0x5555 0xAA, .write 0x2AAA 0x55, .write 0x5555 0xB0,
      .write 0x0000 (bank.setWidth 8)] A A :=
  (unlock hA).append ((write (fun _ => rfl) hA).append (write (fun _ => rfl) hA))

theorem readId (m d : Byte) (answers : List Byte) : Sends readIdCycles (readIdTrace m d)
    (Answering (m :: d :: answers) AnyLatches)
    (Answering answers fun q => q.idManuf = m ∧ q.idDevice = d) := by
  have hentry : Sends [.cycle .cmdIdEntry] [.write 0x5555 0x90]
      (Answering (m :: d :: answers) AnyLatches) (Answering (m :: d :: answers) AnyLatches) :=
    write (fun _ => rfl) (Answering.keptByWrites _ _)
  have hmanuf : Sends [.cycle .rdId0] [.read 0x0000 m]
      (Answering (m :: d :: answers) AnyLatches)
      (Answering (d :: answers) fun q => q.idManuf = m) :=
    read (latch := fun b q => { q with idManuf := b }) (fun _ => rfl) (fun _ _ => rfl)
      (fun _ => rfl) fun _ _ => rfl
  have hdevice : Sends [.cycle .rdId1] [.read 0x0001 d]
      (Answering (d :: answers) fun q => q.idManuf = m)
      (Answering answers fun q => q.idManuf = m ∧ q.idDevice = d) :=
    read (latch := fun b q => { q with idDevice := b }) (fun _ => rfl) (fun _ _ => rfl)
      (fun _ => rfl) fun _ hq => ⟨hq, rfl⟩
  have hkept := Answering.keptByWrites answers fun q => q.idManuf = m ∧ q.idDevice = d
  exact (((unlock (Answering.keptByWrites _ _)).append (hentry.append (hmanuf.append hdevice))).append
    (unlock hkept)).append (write (fun _ => rfl) hkept)

end Sends

/-! ## SwitchFlashBank (R143) -/

/-- Settles O21: four writes, whatever the chip makes of them. -/
theorem switchFlashBankCompletes : Obligations.SwitchFlashBankCompletes := by
  intro s bank ⟨hhost, hseq⟩
  obtain ⟨u, hr, hsaw, -⟩ :=
    Sends.switchBank (A := fun _ => True) bank (fun _ _ _ => id) s.tick (by simpa using hhost)
      trivial
  have hsaw := hsaw.after
  refine ⟨_, hr.returns (i := .switchFlashBank bank) (kind := .none) (by rw [hseq]; rfl) rfl
    (hsaw.host.trans hhost), ?_, hsaw.onlyBusAndRes hseq _⟩
  rw [State.tick_bus, State.finish_bus, State.withTodo_bus, hsaw.bus, BitVec.ofNat_toNat]

/-! ## ReadFlashID (R142) -/

theorem RunsThrough.latchId {s : State} (hh : s.host = []) :
    RunsThrough [.latchId] s s.runLatchId.tick :=
  .micro hh fun rest => congrArg Host.Outcome.next (s.runLatchId.withTodo_tick rest)

theorem Saw.withFlashId {tr : List BusEvent} {s u : State} (h : Saw tr s u) (id : U16) :
    Saw tr { s with flashId := id } { u with flashId := id } := by
  obtain ⟨hbus, honly, hn⟩ := h
  refine ⟨hbus, ?_, hn⟩
  rw [onlyBus_iff] at honly ⊢
  simp_all

/-- `{d, m}` in numbers. -/
theorem idBytes_toNat (d m : Byte) : (d ++ m).toNat = d.toNat * 256 + m.toNat := by
  rw [BitVec.toNat_append, ← Nat.shiftLeft_add_eq_or_of_lt m.isLt, Nat.shiftLeft_eq]

@[simp] theorem State.finish_flashId (s : State) (kind : RetKind) :
    (s.finish kind).flashId = s.flashId := by
  cases kind <;> rfl

theorem Saw.flashId {tr : List BusEvent} {s u : State} (h : Saw tr s u) : u.flashId = s.flashId := by
  rw [h.only.1]

/-- The steps of ReadFlashID, the latching of FLASHID included. -/
theorem runsThrough_readIdSteps {s : State} {m d : Byte} {answers : List Byte} (hh : s.host = [])
    (hc : s.chip = .oracle (m :: d :: answers)) :
    ∃ u, RunsThrough readIdSteps s u ∧ u.chip = .oracle answers ∧
      Saw (readIdTrace m d) { s with flashId := d ++ m } u := by
  obtain ⟨u, hr, hsaw, hchip, hm, hd⟩ := Sends.readId m d answers s hh ⟨hc, trivial⟩
  have hlatch := RunsThrough.latchId (hsaw.host.trans hh)
  rw [State.runLatchId, hm, hd] at hlatch
  exact ⟨_, hr.append hlatch, by simpa using hchip, (hsaw.withFlashId (d ++ m)).tick⟩

/-- Settles O20: the two answered bytes reach FLASHID by way of the latches. -/
theorem readFlashIDCompletes : Obligations.ReadFlashIDCompletes := by
  intro s m d answers ⟨hhost, hseq⟩ hc
  obtain ⟨u, hr, hchip, hsaw⟩ := runsThrough_readIdSteps (s := s.tick) (by simpa using hhost)
    (by simpa using hc)
  have hsaw : Saw (readIdTrace m d) { s with flashId := d ++ m } u :=
    ((Saw.refl s).tick.withFlashId (d ++ m)).trans hsaw
  have hid : ((u.withTodo []).finish .flashId).tick.flashId = d ++ m := by
    simpa using hsaw.flashId
  refine ⟨_, hr.returns (i := .readFlashID) (by rw [hseq]; rfl) rfl (hsaw.host.trans hhost),
    by simpa using hchip, ?_, hid, ?_, ?_⟩
  · simpa [readIdTrace] using hsaw.bus
  · rw [← idBytes_toNat, ← hid, State.tick_res, State.tick_flashId, State.finish_flashId]
    exact BitVec.toNat_setWidth_of_le (by decide)
  · rw [hid]
    exact hsaw.onlyBusAndRes hseq .flashId

end Sys2Proof.Machine

/-! Conditioning, one clean pass (spec/43_conditioning.md R160 to R162, spec/40_prng.md R111, R113): on
a chip that programs and verifies at once, from issue to return. -/

namespace Sys2Proof.Machine

/-! ## PBUF and the PRNG through cycles and Ticks -/

theorem OnlyBus.pbufRead {s u : State} (h : OnlyBus s u) : u.pbufRead = s.pbufRead := by
  rw [h.1]
  rfl

theorem OnlyBus.fillByte {s u : State} (h : OnlyBus s u) (src : Fill) :
    u.fillByte src = s.fillByte src := by
  cases src with
  | zero => rfl
  | random => exact h.pbufRead

theorem OnlyBusAndRes.prng {s u : State} (h : OnlyBusAndRes s u) :
    u.scr = s.scr ∧ u.gen = s.gen ∧ u.genInit = s.genInit ∧ u.pbuf = s.pbuf := by
  rw [h.1]
  exact ⟨rfl, rfl, rfl, rfl⟩

theorem Still.trans_saw {tr : List BusEvent} {s t u : State} (h1 : Still s t) (h2 : Saw tr t u) :
    Saw tr s u := (Saw.of_onlyBus (l := []) h1.bus h1.only).trans h2

/-! ## From issue to return -/

/-- An operation issued on a chip that answers what its steps need. -/
theorem Feeds.returnsOnChip {s u : State} {i : Instr} {l : List Micro} {kind : RetKind}
    {needed answers : List Byte} (hi : Idle s)
    (he : ∀ t, exec i t = .next (t.load (l ++ [.ret kind]))) (hf : Feeds l needed s.tick u)
    (hu : u.host = []) :
    Returns i (s.withChip (.oracle (needed ++ answers)))
      (((u.withChip (.oracle answers)).withTodo []).finish kind).tick :=
  (hf.ofChip _).returns (s := s.withChip (.oracle (needed ++ answers))) hi rfl (he _) hu

/-- Settles O27: the pass sees 0x00 at every poll and at every byte of its readback. -/
theorem zeroSectorCompletes : Obligations.ZeroSectorCompletes := by
  intro s sector answers hi hc
  obtain ⟨u, hf, hsaw⟩ := Feeds.zero (s := s.tick) (sector := sector) (by simpa using hi.1)
  have hsaw := hsaw.after
  refine ⟨_, hf.returns (i := .zeroSector sector) hi hc rfl (hsaw.host.trans hi.1), by simp, ?_,
    (hsaw.withChip _).onlyBusAndRes hi.2 _⟩
  rw [State.tick_bus, State.finish_bus]
  exact hsaw.bus

/-- Settles O29: the draws leave the seeded generator advanced and PBUF filled, and the pass after
them only drives the bus. -/
theorem randomizeSectorCompletes : Obligations.RandomizeSectorCompletes := by
  intro s sector answers hi
  obtain ⟨g, scr, hseed⟩ := seedsTo_exists s
  obtain ⟨t, u, -, hf, hstill, hread, hsaw⟩ := Feeds.randomize (s := s.tick) (sector := sector)
    (by simpa using hi.1) (hseed.congr (by simp) (by simp) (by simp))
  -- named, so that no unification unfolds the 4096 advances
  generalize hadv : genAdvance^[4096] g = g' at hstill
  have hdrawn := ((Still.tick s).withPrng scr g' true t.pbuf).trans hstill
  have hsaw := hdrawn.trans_saw hsaw
  have hret := hf.returnsOnChip (i := .randomizeSector sector) (answers := answers) hi
    (fun _ => rfl) (hsaw.host.trans hi.1)
  have honly := (hsaw.withChip (.oracle answers)).onlyBusAndRes hi.2 .none
  obtain ⟨hscr, hgen, hinit, hpbuf⟩ := honly.prng
  refine ⟨g, scr, _, hseed.1, hseed.2, hret, ?_, hinit, hgen.trans hadv.symm, hscr,
    fun o ho => ?_, ?_, ?_⟩
  · rw [State.tick_chip, State.finish_chip]
    rfl
  · rw [OnlyBus.pbufRead honly, ← hread o ho, hdrawn.only.pbufRead]
    rfl
  · rw [State.tick_bus, State.finish_bus]
    exact hsaw.bus
  · rw [hscr, hgen, hinit, hpbuf]
    exact honly

end Sys2Proof.Machine

/-! Conditioning, step by step (spec/43_conditioning.md R160 to R162, spec/45_orchestrator.md R184):
what each loop head and each test of a pass leaves pending. -/

namespace Sys2Proof.Machine

theorem sectorInBank_eq_ofNat (sector : Sector) :
    sectorInBank sector = BitVec.ofNat 4 (sector.toNat % 16) :=
  BitVec.eq_of_toNat_eq (by simp [sectorInBank_toNat])

/-- The step of a running operation whose pending step ends in a Tick of its own. -/
theorem step_ticks {s t u : State} {m : Micro} {rest : List Micro} (hh : s.host = [])
    (ht : s.seq.todo = m :: rest) (hm : runMicro m (s.withTodo rest) = .next t.tick)
    (htu : t = u) : step s = .next u.tick := by
  rw [step_running hh ht, hm, htu]

/-- A test that goes on, or puts the steps of another turn in front. -/
theorem State.ite_push (s : State) (c : Prop) [Decidable c] (l : List Micro) :
    (if c then s else s.push l) = s.withTodo ((if c then [] else l) ++ s.seq.todo) := by
  split <;> rfl

theorem State.runFill_of_lt (s : State) (src : Fill) (sector : Sector) {off : Nat}
    (h : off < 4096) : s.runFill src sector off =
      s.push (retrySteps sector (BitVec.ofNat 12 off) (s.fillByte src off) ++
        [.fill src sector (off + 1)]) := if_pos h

theorem State.runFill_of_le (s : State) (src : Fill) (sector : Sector) {off : Nat}
    (h : 4096 ≤ off) :
    s.runFill src sector off = (s.startVerify src).push [.verify src sector 0] :=
  if_neg (Nat.not_lt.mpr h)

theorem State.runVerify_eq (s : State) (src : Fill) (sector : Sector) (off : Nat) :
    s.runVerify src sector off = s.withTodo ((if off < 4096 then
        [.cycle (.rdVerify (sectorInBank sector) (BitVec.ofNat 12 off)), .verifyTest src off,
          .verify src sector (off + 1)]
      else if s.passDone src then [] else [.fill src sector 0]) ++ s.seq.todo) := by
  unfold State.runVerify
  split
  · rfl
  · exact s.ite_push _ _

theorem State.passDone_iff (s : State) (src : Fill) : s.passDone src = true ↔
    (src = .zero ∧ s.seq.clean = true) ∨ (src = .random ∧ s.seq.matched = 4096) := by
  cases src <;> simp [State.passDone]

theorem State.verifyByte_zero (s : State) (off : Nat) : s.verifyByte .zero off =
    { s with seq := { s.seq with clean := if s.seq.last = 0x00 then s.seq.clean else false } } := by
  change (if s.seq.last = 0x00 then s else _) = _
  split <;> rfl

theorem State.verifyByte_random (s : State) (off : Nat) : s.verifyByte .random off =
    { s with seq := { s.seq with
        matched := s.seq.matched + if s.seq.last = s.pbufRead off then 1 else 0 } } := by
  change (if s.seq.last = s.pbufRead off then _ else s) = _
  split <;> rfl

/-- Settles O59: each clause is the equation of one loop head or test, and its Tick. -/
theorem retriesAndRepeatedPasses : Obligations.RetriesAndRepeatedPasses := by
  intro s sector offset value src off rest hh
  rw [← sectorInBank_eq_ofNat]
  refine ⟨fun ht => step_ticks hh ht rfl (State.ite_push _ _ _),
    fun ht => step_ticks hh ht rfl (State.ite_push _ _ _), fun ht => step_ticks hh ht rfl ?_,
    fun ht => step_ticks hh ht rfl ?_, fun ht => step_ticks hh ht rfl ?_⟩
  · by_cases h : off < 4096
    · rw [State.runFill_of_lt _ src sector h, if_pos h]
      cases src <;> rfl
    · rw [State.runFill_of_le _ src sector (Nat.not_lt.mp h), if_neg h]
      cases src <;> rfl
  · simp only [← State.passDone_iff]
    exact State.runVerify_eq _ src sector off
  · cases src with
    | zero => exact State.verifyByte_zero _ off
    | random => exact State.verifyByte_random _ off

end Sys2Proof.Machine

/-! Conditioning on any chip (spec/43_conditioning.md R160, R162, R163): an invariant of the steps of
ZeroSector and RandomizeSector that ties the latches `clean` and `matches` to the newest cycles on
the bus, so that a return tells what was read back last. -/

namespace Sys2Proof.Machine

/-! ## Steps that program -/

theorem exec_cycle_todo {i : Instr} {s t : State} (hi : i.busRow ≠ none) (h : exec i s = .next t) :
    t.seq.todo = s.seq.todo := by
  cases i with
  | unlock1 | unlock2 | cmdIdEntry | cmdIdExit | cmdBank | bankData _ | cmdEraseSetup
  | sectorErase _ | cmdProgram | programData _ _ _ | abort | rdId0 | rdId1 | rdPoll _ _
  | rdVerify _ _ =>
    obtain rfl := Host.Outcome.next.inj h
    simp
  | scramblerNext | generatorNext | setupTimer | startTimer | endTimer | getTimerResult | readFlashID
  | switchFlashBank _ | eraseSector _ | eraseSectorTimed _ | programByte _ _ _
  | programByteTimed _ _ _ | zeroSector _ | randomizeSector _ | saveResults _ _ _ _ | runBattery _
  | runFullTest => exact absurd rfl hi

/-- The steps that fill PBUF, or program a byte with its retries. -/
def Micro.programs : Micro → Bool
  | .cycle i => i.busRow.isSome
  | .poll _ _ _ | .abortOnFailure | .retryProgram _ _ _ | .drawPbuf _ => true
  | .setupTimer | .startTimer | .endTimer | .latchId | .fill _ _ _ | .verify _ _ _
  | .verifyTest _ _ | .eraseGate _ | .sectorLoop _ _ | .sectorBody _ _ | .trial _ _ _
  | .programLoop _ _ _ | .collect | .saveSector _ _ | .batteries _ | .seedRetry | .ret _ => false

/-- What `s` has pending is pending in `t`, behind steps that program. -/
def Programs (s t : State) : Prop :=
  ∃ l : List Micro, l.all Micro.programs = true ∧ t.seq.todo = l ++ s.seq.todo

namespace Programs

variable {s t u : State}

theorem keep (h : t.seq.todo = s.seq.todo) : Programs s t := ⟨[], rfl, h⟩

theorem push {l : List Micro} (hl : l.all Micro.programs = true)
    (h : t.seq.todo = l ++ s.seq.todo) : Programs s t := ⟨l, hl, h⟩

theorem tick (h : Programs s t) : Programs s t.tick := by
  unfold Programs
  rwa [State.tick_seq]

theorem ite {c : Prop} [Decidable c] (h1 : Programs s t) (h2 : Programs s u) :
    Programs s (if c then t else u) := by
  split
  · exact h1
  · exact h2

theorem runPoll {sec : BankSector} {offset : Offset} {expected : Byte}
    (h : runPoll sec offset expected s = .next t) : Programs s t := by
  obtain rfl := Host.Outcome.next.inj h
  unfold State.runPollTest
  split
  · exact keep (by simp)
  · exact keep (by simp)
  · exact push (l := pollSteps sec offset expected) rfl (by simp)

theorem runDrawPbuf (s : State) (off : Nat) : Programs s (s.runDrawPbuf off) :=
  ite (ite (push (l := [.drawPbuf (off + 1)]) rfl (by simp))
    (push (l := [.drawPbuf off]) rfl (by simp))) (keep rfl)

end Programs

theorem runMicro_programs {m : Micro} {s t : State} (hm : m.programs = true)
    (h : runMicro m s = .next t) : Programs s t := by
  cases m with
  | cycle i => exact .keep (exec_cycle_todo (Option.isSome_iff_ne_none.mp hm) h)
  | poll _ _ _ => exact .runPoll h
  | abortOnFailure =>
    exact Host.Outcome.next.inj h ▸ .tick (.ite (.keep rfl) (.push (l := [.cycle .abort]) rfl rfl))
  | retryProgram sector offset value =>
    exact Host.Outcome.next.inj h ▸
      .tick (.ite (.keep rfl) (.push (l := retrySteps sector offset value) rfl rfl))
  | drawPbuf off => exact Host.Outcome.next.inj h ▸ (Programs.runDrawPbuf s off).tick
  | setupTimer | startTimer | endTimer | latchId | fill _ _ _ | verify _ _ _ | verifyTest _ _
  | eraseGate _ | sectorLoop _ _ | sectorBody _ _ | trial _ _ _ | programLoop _ _ _ | collect
  | saveSector _ _ | batteries _ | seedRetry | ret _ => cases hm

/-! ## What the latches tell of a readback -/

theorem State.passDone_iff_cleanTo (s : State) (src : Fill) :
    s.passDone src = true ↔ s.cleanTo src 4096 := by
  cases src <;> simp [State.passDone, State.cleanTo]

/-- A readback clean after one more byte was clean before it, and the byte was as programmed:
`matches` grows by at most one a byte, so it cannot make up for a mismatch. -/
theorem State.cleanTo_verifyByte {s : State} {src : Fill} {off : Nat}
    (h : src = .random → s.seq.matched ≤ off) (hc : (s.verifyByte src off).cleanTo src (off + 1)) :
    s.seq.last = s.fillByte src off ∧ s.cleanTo src off := by
  cases src with
  | zero =>
    rw [State.verifyByte_zero] at hc
    simpa [State.cleanTo, State.fillByte] using hc
  | random =>
    have hle := h rfl
    rw [State.verifyByte_random] at hc
    simp only [State.cleanTo, State.fillByte] at hc ⊢
    split at hc
    · next hlast => exact ⟨hlast, by omega⟩
    · omega

theorem State.fillByte_verifyByte (s : State) (src : Fill) (off : Nat) :
    (s.verifyByte src off).fillByte src = s.fillByte src := by
  cases src with
  | zero => rfl
  | random => rw [State.verifyByte_random]; rfl

/-- The newest cycles of `bus` are the readback of the positions below `off`, each byte as it was
programmed, unless the latches of `s` tell that one was not. -/
structure ReadBack (src : Fill) (sector : Sector) (off : Nat) (bus : List BusEvent) (s : State) :
    Prop where
  matched_le : src = .random → s.seq.matched ≤ off
  bytes : s.cleanTo src off →
    bus.take off = (verifyTrace sector (s.fillByte src) (List.range off)).reverse

namespace ReadBack

variable {s : State} {src : Fill} {sector : Sector} {off : Nat} {bus : List BusEvent}

theorem start (s : State) (src : Fill) (sector : Sector) (bus : List BusEvent) :
    ReadBack src sector 0 bus (s.startVerify src) where
  matched_le h := by subst h; exact le_rfl
  bytes _ := rfl

theorem withTodo (h : ReadBack src sector off bus s) (l : List Micro) :
    ReadBack src sector off bus (s.withTodo l) := ⟨h.matched_le, h.bytes⟩

theorem setLast (h : ReadBack src sector off bus s) (b : Byte) :
    ReadBack src sector off bus (s.setLast b) := ⟨h.matched_le, h.bytes⟩

/-- Cycles and Ticks touch neither the latches nor PBUF. -/
theorem onlyBus {t : State} (h : ReadBack src sector off bus s) (ho : OnlyBus s t) :
    ReadBack src sector off bus t := by
  have hq := ho.seq
  obtain ⟨hm, hb⟩ := h
  refine ⟨fun hs => hq ▸ hm hs, fun hc => ?_⟩
  rw [ho.fillByte]
  exact hb (by cases src <;> simpa [State.cleanTo, hq] using hc)

theorem verifyByte (h : ReadBack src sector off bus s) :
    ReadBack src sector (off + 1) (.read (flashAddr sector off) s.seq.last :: bus)
      (s.verifyByte src off) where
  matched_le hs := by
    have hm := h.matched_le hs
    subst hs
    rw [State.verifyByte_random]
    dsimp only
    split <;> omega
  bytes hc := by
    obtain ⟨hlast, hc⟩ := State.cleanTo_verifyByte h.matched_le hc
    rw [s.fillByte_verifyByte, hlast, List.take_succ_cons, h.bytes hc]
    simp [verifyTrace, List.range_succ]

end ReadBack

/-- The last 4096 cycles are a readback of the whole sector that found every byte as programmed. -/
def Verified (src : Fill) (sector : Sector) (s : State) : Prop :=
  s.bus.take 4096 = (verifyTrace sector (s.fillByte src) (List.range 4096)).reverse

theorem Verified.still {src : Fill} {sector : Sector} {s t : State} (h : Verified src sector s)
    (ht : Still s t) : Verified src sector t := by
  unfold Verified at h ⊢
  rw [ht.bus, h, ht.only.fillByte]

/-! ## Where a conditioning operation stands -/

/-- What ZeroSector or RandomizeSector has pending, and what the newest cycles have read. -/
inductive Conditions (src : Fill) (sector : Sector) (s : State) : Prop
  /-- drawing or programming -/
  | programming {l : List Micro} {off : Nat} (hl : l.all Micro.programs = true)
    (todo : s.seq.todo = l ++ [.fill src sector off, .ret .none])
  /-- at the head of the readback loop -/
  | head {off : Nat} (hoff : off ≤ 4096) (todo : s.seq.todo = [.verify src sector off, .ret .none])
    (read : ReadBack src sector off s.bus s)
  /-- about to read a byte -/
  | reading {off : Nat} (hoff : off < 4096) (todo : s.seq.todo =
      [.cycle (.rdVerify (sectorInBank sector) (BitVec.ofNat 12 off)), .verifyTest src off,
        .verify src sector (off + 1), .ret .none])
    (read : ReadBack src sector off s.bus s)
  /-- about to compare the byte read, whose cycle is the newest -/
  | comparing {off : Nat} {bus : List BusEvent} (hoff : off < 4096)
    (todo : s.seq.todo = [.verifyTest src off, .verify src sector (off + 1), .ret .none])
    (seen : s.bus = .read (flashAddr sector off) s.seq.last :: bus)
    (read : ReadBack src sector off bus s)
  | returning (todo : s.seq.todo = [.ret .none]) (verified : Verified src sector s)
  | returned (todo : s.seq.todo = []) (verified : Verified src sector s)

namespace Conditions

variable {s t : State} {src : Fill} {sector : Sector} {off : Nat}

theorem still (h : Conditions src sector s) (ht : Still s t) : Conditions src sector t := by
  have hq := ht.only.seq
  have hb := ht.bus
  cases h with
  | programming hl todo => exact .programming hl (hq ▸ todo)
  | head hoff todo read => exact .head hoff (hq ▸ todo) (hb ▸ read.onlyBus ht.only)
  | reading hoff todo read => exact .reading hoff (hq ▸ todo) (hb ▸ read.onlyBus ht.only)
  | comparing hoff todo seen read =>
    exact .comparing hoff (hq ▸ todo) (hq ▸ hb ▸ seen) (read.onlyBus ht.only)
  | returning todo verified => exact .returning (hq ▸ todo) (verified.still ht)
  | returned todo verified => exact .returned (hq ▸ todo) (verified.still ht)

theorem of_next (hs : Conditions src sector s)
    (h : Host.Outcome.next (φ := Fault) (ρ := Refusal) s.tick = .next t) : Conditions src sector t :=
  Host.Outcome.next.inj h ▸ hs.still (.tick s)

theorem runFill (ht : s.seq.todo = [.ret .none]) :
    Conditions src sector (s.runFill src sector off) := by
  by_cases h : off < 4096
  · rw [State.runFill_of_lt s src sector h]
    exact .programming (l := retrySteps sector (.ofNat 12 off) (s.fillByte src off))
      (off := off + 1) rfl (by simp [ht])
  · rw [State.runFill_of_le s src sector (Nat.not_lt.mp h)]
    refine .head (Nat.zero_le _) ?_ ((ReadBack.start s src sector _).withTodo _)
    cases src <;> simp [State.startVerify, ht]

theorem runVerify (ht : s.seq.todo = [.ret .none]) (hoff : off ≤ 4096)
    (h : ReadBack src sector off s.bus s) : Conditions src sector (s.runVerify src sector off) := by
  rw [State.runVerify_eq, ht]
  split
  · next hlt => exact .reading hlt rfl (h.withTodo _)
  · next hge =>
    obtain rfl : off = 4096 := by omega
    split
    · next hdone => exact .returning rfl (h.bytes ((s.passDone_iff_cleanTo src).mp hdone))
    · exact .programming (l := []) rfl rfl

theorem rdVerify (hoff : off < 4096)
    (ht : s.seq.todo = [.verifyTest src off, .verify src sector (off + 1), .ret .none])
    (h : ReadBack src sector off s.bus s)
    (hx : exec (.rdVerify (sectorInBank sector) (BitVec.ofNat 12 off)) s = .next t) :
    Conditions src sector t := by
  obtain rfl := Host.Outcome.next.inj hx
  rw [windowAddr_ofNat sector hoff]
  exact .comparing hoff (by simpa using ht) (by simp) ((h.onlyBus (.busRead s _)).setLast _)

theorem verifyByte {bus : List BusEvent} (hoff : off < 4096)
    (ht : s.seq.todo = [.verify src sector (off + 1), .ret .none])
    (seen : s.bus = .read (flashAddr sector off) s.seq.last :: bus)
    (h : ReadBack src sector off bus s) : Conditions src sector (s.verifyByte src off) := by
  have hb : (s.verifyByte src off).bus = s.bus := by rw [(s.verifyByte_seqOnly src off).frame]
  refine .head hoff ?_ (by rw [hb, seen]; exact h.verifyByte)
  cases src with
  | zero => rw [State.verifyByte_zero]; exact ht
  | random => rw [State.verifyByte_random]; exact ht

/-- Every step of the operation keeps to it. -/
theorem runMicro {m : Micro} {rest : List Micro} (h : Conditions src sector s)
    (ht : s.seq.todo = m :: rest) (hx : runMicro m (s.withTodo rest) = .next t) :
    Conditions src sector t := by
  cases h with
  | @programming l off hl todo =>
    cases l with
    | nil =>
      obtain ⟨rfl, rfl⟩ := List.cons.inj (todo.symm.trans ht)
      exact of_next (runFill (s := s.withTodo _) rfl) hx
    | cons m' l =>
      obtain ⟨rfl, rfl⟩ := List.cons.inj (todo.symm.trans ht)
      obtain ⟨hm, hl⟩ := Bool.and_eq_true_iff.mp hl
      obtain ⟨k, hk, htodo⟩ := runMicro_programs hm hx
      exact .programming (l := k ++ l) (off := off) (by simp [hk, hl]) (by simp [htodo])
  | head hoff todo read =>
    obtain ⟨rfl, rfl⟩ := List.cons.inj (todo.symm.trans ht)
    exact of_next (runVerify (s := s.withTodo _) rfl hoff (read.withTodo _)) hx
  | reading hoff todo read =>
    obtain ⟨rfl, rfl⟩ := List.cons.inj (todo.symm.trans ht)
    exact rdVerify (s := s.withTodo _) hoff rfl (read.withTodo _) hx
  | comparing hoff todo seen read =>
    obtain ⟨rfl, rfl⟩ := List.cons.inj (todo.symm.trans ht)
    exact of_next (verifyByte (s := s.withTodo _) hoff rfl seen (read.withTodo _)) hx
  | returning todo verified =>
    obtain ⟨rfl, rfl⟩ := List.cons.inj (todo.symm.trans ht)
    exact of_next (s := (s.withTodo []).finish .none) (.returned rfl verified) hx
  | returned todo verified => simp [todo] at ht

theorem verified (h : Conditions src sector s) (ht : s.seq.todo = []) : Verified src sector s := by
  cases h with
  | programming _ todo | head _ todo | reading _ todo | comparing _ todo | returning todo =>
    simp [todo] at ht
  | returned _ verified => exact verified

end Conditions

/-! ## Runs that return -/

/-- A property that every step keeps holds wherever a run gets. -/
theorem run_keeps {P : State → Prop} (hstep : ∀ s t, P s → step s = .next t → P t) {k : Nat}
    {s u : State} (hs : P s) (h : Host.Core.run core k s = .next u) : P u := by
  induction k generalizing s with
  | zero => exact Host.Outcome.next.inj h ▸ hs
  | succ k ih =>
    rw [core_run_succ] at h
    split at h
    · next t ht => exact ih (hstep s t hs ht) h
    · cases h
    · cases h

/-- With no move of the host due, a step is the engine's. -/
theorem step_silent {s : State} (h : s.host = []) : step s = engineStep s := by
  simp [step, hostStep, h]

theorem Conditions.step {src : Fill} {sector : Sector} {s t : State}
    (h : s.host = [] ∧ Conditions src sector s) (hx : step s = .next t) :
    t.host = [] ∧ Conditions src sector t := by
  obtain ⟨hh, hc⟩ := h
  rw [step_silent hh] at hx
  refine ⟨(congrArg Prod.fst (engineStep_port hx)).trans hh, ?_⟩
  unfold engineStep at hx
  split at hx
  · exact Host.Outcome.next.inj hx ▸ hc
  · next ht => exact hc.runMicro ht hx

/-- A conditioning operation that has returned has verified the sector. -/
theorem verified_of_run {src : Fill} {sector : Sector} {i : Instr} {l : List Micro} {s t u : State}
    {k : Nat} (hl : l.all Micro.programs = true)
    (he : exec i s = .next (s.load (l ++ [.fill src sector 0] ++ [.ret .none]))) (hi : Idle s)
    (ht : exec i s = .next t) (hr : Host.Core.run core k t = .next u) (hu : u.seq.todo = []) :
    Verified src sector u := by
  obtain rfl := Host.Outcome.next.inj (he.symm.trans ht)
  obtain ⟨hh, hq⟩ := hi
  have hstart : Conditions src sector (s.load (l ++ [.fill src sector 0] ++ [.ret .none])) :=
    .programming hl (off := 0) (by simp [hq, Sequencer.empty])
  exact (run_keeps (fun _ _ => Conditions.step) ⟨by simpa using hh, hstart⟩ hr).2.verified hu

/-- Settles O28: the sequencer is empty only after a readback that kept `clean`. -/
theorem zeroSectorReturnsVerified : Obligations.ZeroSectorReturnsVerified := by
  intro s t u sector k hi ht hr hu
  change Verified .zero sector u
  exact verified_of_run (l := []) rfl rfl hi ht hr hu

/-- Settles O30: the sequencer is empty only after a readback that counted 4096 matches. -/
theorem randomizeSectorReturnsVerified : Obligations.RandomizeSectorReturnsVerified := by
  intro s t u sector k hi ht hr hu
  change Verified .random sector u
  exact verified_of_run (l := [.drawPbuf 0]) rfl rfl hi ht hr hu

end Sys2Proof.Machine

/-! STAT (spec/44_statistics.md R170 to R174): what the scan keeps, the digit procedure against the exact
mean, and the record SaveResults writes. -/

namespace Sys2Proof.Machine

/-! ## The scan (R170) -/

theorem isLeast_insert_keep {seen : Set U32} {m : U32} (h : IsLeast seen m) (x : U32) :
    IsLeast (insert x seen) (if x < m then x else m) := by
  obtain ⟨hmem, hle⟩ := h
  split
  · next hx => exact ⟨.inl rfl, Set.forall_mem_insert.mpr
      ⟨BitVec.le_refl x, fun y hy => BitVec.le_trans (BitVec.le_of_lt hx) (hle hy)⟩⟩
  · next hx => exact ⟨.inr hmem, Set.forall_mem_insert.mpr ⟨BitVec.not_lt.mp hx, fun _ hy => hle hy⟩⟩

theorem isGreatest_insert_keep {seen : Set U32} {m : U32} (h : IsGreatest seen m) (x : U32) :
    IsGreatest (insert x seen) (if m < x then x else m) := by
  obtain ⟨hmem, hle⟩ := h
  split
  · next hx => exact ⟨.inl rfl, Set.forall_mem_insert.mpr
      ⟨BitVec.le_refl x, fun y hy => BitVec.le_trans (hle hy) (BitVec.le_of_lt hx)⟩⟩
  · next hx => exact ⟨.inr hmem, Set.forall_mem_insert.mpr ⟨BitVec.not_lt.mp hx, fun _ hy => hle hy⟩⟩

/-- The running extremes are those of the samples seen so far. -/
structure Scan.Spans (a : Scan) (seen : Set U32) : Prop where
  least : IsLeast seen a.min
  greatest : IsGreatest seen a.max

theorem Scan.Spans.foldl {a : Scan} {seen : Set U32} (h : a.Spans seen) (l : List U32) :
    (l.foldl Scan.add a).Spans (seen ∪ {x | x ∈ l}) := by
  induction l generalizing a seen with
  | nil => simpa using h
  | cons x l ih =>
    have hx : (a.add x).Spans (insert x seen) :=
      ⟨isLeast_insert_keep h.least x, isGreatest_insert_keep h.greatest x⟩
    have hset : insert x seen ∪ {y | y ∈ l} = seen ∪ {y | y ∈ x :: l} := by
      ext y
      simp only [Set.mem_union, Set.mem_insert_iff, Set.mem_ofPred_eq, List.mem_cons]
      tauto
    exact hset ▸ ih hx

theorem scanSamples_spans (first : U32) (l : List U32) :
    (scanSamples first (first :: l)).Spans {x | x ∈ first :: l} := by
  have hstart : Scan.Spans { min := first, max := first, sum := 0 } {first} :=
    ⟨⟨rfl, fun _ hy => hy ▸ BitVec.le_refl _⟩, rfl, fun _ hy => hy ▸ BitVec.le_refl _⟩
  have hset : {first} ∪ {x | x ∈ first :: l} = {x | x ∈ first :: l} :=
    Set.union_eq_right.mpr (by simp)
  exact hset ▸ hstart.foldl (first :: l)

theorem foldl_add_sum (a : Scan) (l : List U32) :
    (l.foldl Scan.add a).sum = a.sum + BitVec.ofNat 64 (l.map BitVec.toNat).sum := by
  induction l generalizing a with
  | nil => simp
  | cons x l ih =>
    rw [List.foldl_cons, ih, List.map_cons, List.sum_cons, BitVec.ofNat_add, ← BitVec.add_assoc,
      BitVec.ofNat_toNat]
    rfl

theorem scanSamples_sum (first : U32) (l : List U32) :
    (scanSamples first l).sum = BitVec.ofNat 64 (l.map BitVec.toNat).sum :=
  (foldl_add_sum _ l).trans (BitVec.zero_add _)

/-! ## The record, field by field (R170) -/

theorem summarise_min_isLeast {l : List U32} (h : l ≠ []) (maxPossible : Nat) :
    IsLeast {x | x ∈ l} (summarise l maxPossible).min := by
  cases l with
  | nil => exact absurd rfl h
  | cons x l => exact (scanSamples_spans x l).least

theorem summarise_max_isGreatest {l : List U32} (h : l ≠ []) (maxPossible : Nat) :
    IsGreatest {x | x ∈ l} (summarise l maxPossible).max := by
  cases l with
  | nil => exact absurd rfl h
  | cons x l => exact (scanSamples_spans x l).greatest

theorem summarise_mean (l : List U32) (maxPossible : Nat) :
    (summarise l maxPossible).mean = (roundedMean (BitVec.ofNat 64 (l.map BitVec.toNat).sum)
      (BitVec.ofNat 64 l.length)).setWidth 32 := by
  cases l with
  | nil => rfl
  | cons x l => exact congrArg (fun w => (roundedMean w _).setWidth 32) (scanSamples_sum x (x :: l))

theorem summarise_fail_eq (l : List U32) (maxPossible : Nat) : (summarise l maxPossible).fail =
    BitVec.ofNat 32 maxPossible - BitVec.ofNat 32 l.length := by
  cases l with
  | nil => exact (BitVec.sub_zero _).symm
  | cons x l => rfl

theorem Record.eq_of_fields {r q : Record} (hmin : r.min = q.min) (hmax : r.max = q.max)
    (hmean : r.mean = q.mean) (hfail : r.fail = q.fail) : r = q := by
  cases r
  cases q
  exact Record.mk.injEq .. ▸ ⟨hmin, hmax, hmean, hfail⟩

/-- Settles O33: the least, the greatest, the sum and the number of samples are those of every order. -/
theorem recordIgnoresSampleOrder : Obligations.RecordIgnoresSampleOrder := by
  intro l k maxPossible hlk
  by_cases hk : k = []
  · subst hk
    rw [hlk.eq_nil]
  · have hl : l ≠ [] := fun hl => hk (hl ▸ hlk).nil_eq.symm
    have hset : {x | x ∈ l} = {x | x ∈ k} := Set.ext fun _ => hlk.mem_iff
    obtain ⟨hlmin, hlle⟩ := hset ▸ summarise_min_isLeast hl maxPossible
    obtain ⟨hkmin, hkle⟩ := summarise_min_isLeast hk maxPossible
    obtain ⟨hlmax, hlge⟩ := hset ▸ summarise_max_isGreatest hl maxPossible
    obtain ⟨hkmax, hkge⟩ := summarise_max_isGreatest hk maxPossible
    apply Record.eq_of_fields
    · exact BitVec.le_antisymm (hlle hkmin) (hkle hlmin)
    · exact BitVec.le_antisymm (hkge hlmax) (hlge hkmax)
    · rw [summarise_mean, summarise_mean, (hlk.map _).sum_eq, hlk.length_eq]
    · rw [summarise_fail_eq, summarise_fail_eq, hlk.length_eq]

/-! ## The mean (R171, R172) -/

/-- The digit procedure of R170 in numbers. -/
def digitMean (sum n : Nat) : Nat :=
  let scaled := sum * 10 / n
  if 5 ≤ scaled % 10 then scaled / 10 + 1 else scaled / 10

/-- R171: the procedure's 64 bits do not wrap. -/
theorem roundedMean_toNat {sum n : Nat} (hsum : sum * 10 < 2 ^ 64) (hn : n < 2 ^ 64) :
    (roundedMean (BitVec.ofNat 64 sum) (BitVec.ofNat 64 n)).toNat = digitMean sum n := by
  have hscaled : (BitVec.ofNat 64 sum * 10 / BitVec.ofNat 64 n).toNat = sum * 10 / n := by
    rw [BitVec.toNat_udiv, BitVec.toNat_mul, BitVec.toNat_ofNat, BitVec.toNat_ofNat,
      Nat.mod_eq_of_lt (by omega : sum < 2 ^ 64), Nat.mod_eq_of_lt hn]
    exact congrArg (· / n) (Nat.mod_eq_of_lt hsum)
  have hle : sum * 10 / n ≤ sum * 10 := Nat.div_le_self _ _
  unfold roundedMean digitMean
  generalize BitVec.ofNat 64 sum * 10 / BitVec.ofNat 64 n = w at hscaled ⊢
  rw [← hscaled] at hle ⊢
  have hdigit : (5 : U64) ≤ w % 10 ↔ 5 ≤ w.toNat % 10 := Iff.rfl
  simp only [hdigit]
  split
  · rw [BitVec.toNat_add, BitVec.toNat_udiv]
    exact Nat.mod_eq_of_lt (show w.toNat / 10 + 1 < 2 ^ 64 by omega)
  · rfl

/-- R172: one digit of a floor decides a half. -/
theorem digitMean_eq_roundHalfUp (sum : Nat) {n : Nat} (hn : 0 < n) :
    digitMean sum n = (2 * sum + n) / (2 * n) := by
  have hfifth : sum * 10 / n / 5 = 2 * sum / n := by
    rw [Nat.div_div_eq_div_mul, show sum * 10 = 2 * sum * 5 by omega,
      Nat.mul_div_mul_right _ _ (by omega)]
  have hhalf : (2 * sum + n) / (2 * n) = (2 * sum / n + 1) / 2 := by
    rw [Nat.mul_comm 2 n, ← Nat.div_div_eq_div_mul, Nat.add_div_right _ hn]
  rw [hhalf, ← hfifth]
  simp only [digitMean]
  split <;> omega

/-- R171: a rounded mean stays between bounds that are integers. -/
theorem digitMean_mem_bounds {sum n lo hi : Nat} (hn : 0 < n) (hlo : n * lo ≤ sum)
    (hhi : sum ≤ n * hi) : lo ≤ digitMean sum n ∧ digitMean sum n ≤ hi := by
  rw [digitMean_eq_roundHalfUp sum hn]
  constructor
  · refine (Nat.le_div_iff_mul_le (by omega)).mpr ?_
    linarith
  · refine Nat.le_of_lt_succ ((Nat.div_lt_iff_lt_mul (by omega)).mpr ?_)
    rw [Nat.succ_mul]
    linarith

theorem summarise_sum_between {l : List U32} (h : l ≠ []) (maxPossible : Nat) :
    l.length * (summarise l maxPossible).min.toNat ≤ (l.map BitVec.toNat).sum ∧
    (l.map BitVec.toNat).sum ≤ l.length * (summarise l maxPossible).max.toNat := by
  obtain ⟨-, hmin⟩ := summarise_min_isLeast h maxPossible
  obtain ⟨-, hmax⟩ := summarise_max_isGreatest h maxPossible
  have hlo := (l.map BitVec.toNat).card_nsmul_le_sum _ (List.forall_mem_map.mpr fun x hx => hmin hx)
  have hhi := (l.map BitVec.toNat).sum_le_card_nsmul _ (List.forall_mem_map.mpr fun x hx => hmax hx)
  rw [List.length_map] at hlo hhi
  exact ⟨hlo, hhi⟩

/-- R171: with no more samples than SAMP holds, nothing is lost, neither in the sum's 64 bits nor in the
mean's 32. -/
theorem summarise_mean_toNat {l : List U32} (h : l ≠ []) (hcap : l.length ≤ 40960)
    (maxPossible : Nat) :
    (summarise l maxPossible).mean.toNat = digitMean (l.map BitVec.toNat).sum l.length := by
  obtain ⟨hlo, hhi⟩ := summarise_sum_between h maxPossible
  have hmaxlt := (summarise l maxPossible).max.isLt
  have hsum : (l.map BitVec.toNat).sum ≤ 40960 * 2 ^ 32 :=
    hhi.trans (Nat.mul_le_mul hcap hmaxlt.le)
  obtain ⟨-, hle⟩ := digitMean_mem_bounds (List.length_pos_iff.mpr h) hlo hhi
  rw [summarise_mean, BitVec.toNat_setWidth, roundedMean_toNat (by omega) (by omega),
    Nat.mod_eq_of_lt (by omega)]

/-- Settles O32: the digit procedure rounds half up, and its result lies between the extremes. -/
theorem meanIsRoundedHalfUp : Obligations.MeanIsRoundedHalfUp := by
  intro l maxPossible h hcap
  have hpos := List.length_pos_iff.mpr h
  have hmean := summarise_mean_toNat h hcap maxPossible
  obtain ⟨hlo, hhi⟩ := summarise_sum_between h maxPossible
  obtain ⟨hge, hle⟩ := digitMean_mem_bounds hpos hlo hhi
  exact ⟨hmean.trans (digitMean_eq_roundHalfUp _ hpos), BitVec.le_def.mpr (hmean ▸ hge),
    BitVec.le_def.mpr (hmean ▸ hle)⟩

/-! ## SaveResults -/

theorem execSaveResults_eq {battery : BitVec 3} {b : Battery} {n maxPossible : U16}
    (hb : batteryOf battery = some b) (hn : n.toNat ≤ maxPossible.toNat)
    (hm : maxPossible.toNat ≤ 40960) (sector : Sector) (s : State) :
    execSaveResults battery sector n maxPossible s =
      .next (s.saveResults b sector n.toNat maxPossible.toNat).unspecifyRes.tick := by
  simp only [execSaveResults, hb, if_pos hn, if_pos (show _ ≤ Params.sampleCap from hm)]

theorem resultRead_saveResults (s : State) (b b' : Battery) (sector sector' : Sector)
    (n maxPossible : Nat) :
    (s.saveResults b sector n maxPossible).unspecifyRes.tick.resultRead b' sector' =
      if b = b' ∧ sector = sector' then summarise (s.samples n) maxPossible
      else s.resultRead b' sector' :=
  (State.tick_resultRead _ b' sector').trans (s.resultRead_write b b' sector sector' _)

@[simp] theorem State.length_samples (s : State) (n : Nat) : (s.samples n).length = n := by
  simp [State.samples]

@[simp] theorem State.mem_samples {s : State} {n : Nat} {x : U32} :
    x ∈ s.samples n ↔ ∃ i < n, s.sampRead i = x := by
  simp [State.samples]

/-- R170, field by field, for the samples SAMP[0 .. n - 1]. -/
theorem summarise_samples {s : State} {n maxPossible : Nat} (hpos : 0 < n) (hn : n ≤ maxPossible)
    (hm : maxPossible ≤ 40960) :
    let r := summarise (s.samples n) maxPossible
    (∃ i < n, r.min = s.sampRead i) ∧ (∀ i < n, r.min ≤ s.sampRead i) ∧
    (∃ i < n, r.max = s.sampRead i) ∧ (∀ i < n, s.sampRead i ≤ r.max) ∧
    r.mean.toNat = digitMean ((List.range n).map fun i => (s.sampRead i).toNat).sum n ∧
    r.fail.toNat = maxPossible - n := by
  have hne : s.samples n ≠ [] := List.length_pos_iff.mp ((s.length_samples n).symm ▸ hpos)
  have hcap : (s.samples n).length ≤ 40960 := by rw [s.length_samples]; omega
  have hread : ∀ i < n, s.sampRead i ∈ s.samples n := fun i hi => State.mem_samples.mpr ⟨i, hi, rfl⟩
  obtain ⟨hmin, hle⟩ := summarise_min_isLeast hne maxPossible
  obtain ⟨hmax, hge⟩ := summarise_max_isGreatest hne maxPossible
  obtain ⟨i, hi, hmin⟩ := State.mem_samples.mp hmin
  obtain ⟨j, hj, hmax⟩ := State.mem_samples.mp hmax
  refine ⟨⟨i, hi, hmin.symm⟩, fun i hi => hle (hread i hi), ⟨j, hj, hmax.symm⟩,
    fun i hi => hge (hread i hi), ?_, ?_⟩
  · rw [summarise_mean_toNat hne hcap, s.length_samples, State.samples, List.map_map]
    rfl
  · rw [summarise_fail_eq, s.length_samples, BitVec.toNat_sub]
    simp only [BitVec.toNat_ofNat]
    omega

/-- Settles O31: one record is written, the summary of the first n samples. -/
theorem saveResultsWritesRecord : Obligations.SaveResultsWritesRecord := by
  intro s battery b sector n maxPossible hb hn hm
  have hread := resultRead_saveResults s b (n := n.toNat) (maxPossible := maxPossible.toNat)
    (sector := sector)
  have hrecord := (hread b sector).trans (if_pos ⟨rfl, rfl⟩)
  refine ⟨_, execSaveResults_eq hb hn hm sector s, ?_, fun b' sector' hother => ?_,
    fun hzero => ?_, fun hpos => ?_⟩
  · rw [State.tick_result]
    rfl
  · exact (hread b' sector').trans (if_neg (by tauto))
  · rw [hrecord, hzero]
    rfl
  · rw [hrecord]
    exact summarise_samples hpos hn hm

end Sys2Proof.Machine

/-! ORCH, step by step (spec/45_orchestrator.md R181 to R191): what each loop head of a battery leaves
pending, what collection appends, and which record a sector's results go to. -/

namespace Sys2Proof.Machine

/-! ## Clearing RESULT (R191) -/

theorem storeRead_map {α : Type} (l : List Nat) (f : Nat → α) (a : Nat) :
    storeRead (l.map fun i => (i, f i)) a = if a ∈ l then some (f a) else none := by
  induction l with
  | nil => rfl
  | cons i l ih =>
    rw [List.map_cons, storeRead_cons, ih]
    by_cases h : i = a
    · subst h; simp
    · simp [h, Ne.symm h]

theorem State.resultRead_resultClear (s : State) (b : Battery) (sector : Sector) :
    s.resultClear.resultRead b sector = ⟨0, 0, 0, 0⟩ := by
  have hread : storeRead s.resultClear.result (resultIndex b sector) = some ⟨0, 0, 0, 0⟩ :=
    (storeRead_map _ _ _).trans (if_pos (List.mem_range.mpr (resultIndex_lt b sector)))
  rw [State.resultRead, hread]
  rfl

/-- Settles O37: the records are cleared before the batteries are loaded; the Tick changes none. -/
theorem runFullTestClearsResults : Obligations.RunFullTestClearsResults := by
  intro s
  refine ⟨s.resultClear.load _, rfl, fun b sector => ?_, ?_⟩
  · exact (State.tick_resultRead _ b sector).trans (s.resultRead_resultClear b sector)
  · rw [State.load, State.tick_result]
    rfl

/-! ## The sector loop (R181, R183) -/

theorem bankStart_iff {i : Nat} (hi : i < 32) :
    i % Params.sectorsPerBank = 0 ↔ i = 0 ∨ i = 16 := by
  simp only [Params.sectorsPerBank]
  omega

/-- The bank switch of R183, where the sector loop makes one. -/
theorem switchBankSteps_bankStart {i : Nat} (hi : i = 0 ∨ i = 16) :
    switchBankSteps (BitVec.ofNat 1 (i / Params.sectorsPerBank)) =
      [.cycle .unlock1, .cycle .unlock2, .cycle .cmdBank,
        .cycle (.bankData (if i = 0 then 0 else 1))] := by
  rcases hi with rfl | rfl <;> rfl

theorem State.runSectorLoop_of_lt (s : State) (b : Battery) {i : Nat} (hi : i < 32) :
    s.runSectorLoop b i = s.push ((if i = 0 ∨ i = 16 then
        [.cycle .unlock1, .cycle .unlock2, .cycle .cmdBank,
          .cycle (.bankData (if i = 0 then 0 else 1))] else []) ++
      [.sectorBody b (BitVec.ofNat 5 i), .saveSector b (BitVec.ofNat 5 i),
        .sectorLoop b (i + 1)]) := by
  rw [State.runSectorLoop, if_pos (show i < Params.numSectors from hi)]
  by_cases hbank : i = 0 ∨ i = 16
  · rw [if_pos hbank, if_pos ((bankStart_iff hi).mpr hbank), switchBankSteps_bankStart hbank]
  · rw [if_neg hbank, if_neg fun h => hbank ((bankStart_iff hi).mp h)]

theorem State.runSectorLoop_of_le (s : State) (b : Battery) {i : Nat} (hi : 32 ≤ i) :
    s.runSectorLoop b i = s := if_neg (Nat.not_lt.mpr hi)

/-- Settles O38: of the sectors below 32, the multiples of 16 are 0 and 16. -/
theorem bankSwitchedAtBankStart : Obligations.BankSwitchedAtBankStart := by
  intro s b i rest hh hi ht
  exact ⟨_, step_ticks hh ht rfl (State.runSectorLoop_of_lt _ b hi), rfl⟩

/-! ## Sample collection (R182) -/

theorem State.appendSample_stopped {s : State} (h : s.tmrState = .stopped) :
    s.appendSample = { s with
      samp := storeWrite s.samp s.seq.n s.count, seq := { s.seq with n := s.seq.n + 1 } } := by
  rw [State.appendSample, State.afterTimerResult, State.timerResult, if_pos h, if_pos h]
  rfl

theorem State.runCollect_ok {s : State} (hok : s.seq.ok = true) (hstop : s.tmrState = .stopped)
    (hn : s.seq.n < 40960) :
    s.runCollect = .next (State.tick { s with
      samp := storeWrite s.samp s.seq.n s.count, seq := { s.seq with n := s.seq.n + 1 } }) := by
  rw [State.runCollect, if_pos hok, if_pos (show s.seq.n < Params.sampleCap from hn),
    State.appendSample_stopped hstop]

theorem State.runCollect_failed {s : State} (hok : s.seq.ok = false) :
    s.runCollect = .next s.tick := if_neg (ne_true_of_eq_false hok)

theorem State.tick_sampRead (s : State) (j : Nat) : s.tick.sampRead j = s.sampRead j := by
  simp [State.sampRead]

theorem State.sampRead_sampWrite (s : State) (i j : Nat) (v : U32) :
    (s.sampWrite i v).sampRead j = if i = j then v else s.sampRead j := by
  change (storeRead (storeWrite s.samp i v) j).getD _ = _
  rw [storeRead_write]
  split <;> rfl

/-- Settles O39: a success writes one element of SAMP, a failure none. -/
theorem sampleCollected : Obligations.SampleCollected := by
  intro s rest hh ht
  refine ⟨fun hok hstop hn => ?_, fun hok => ?_⟩
  · have hread (j : Nat) := s.sampRead_sampWrite s.seq.n j s.count
    refine ⟨_, (step_running hh ht).trans (State.runCollect_ok hok hstop hn), ?_, ?_,
      fun j hj => ?_, ?_⟩
    · exact State.tick_seq _
    · exact (State.tick_sampRead _ _).trans ((hread _).trans (if_pos rfl))
    · exact (State.tick_sampRead _ j).trans ((hread j).trans (if_neg hj.symm))
    · rw [State.tick_seq, State.tick_samp]
      rfl
  · exact (step_running hh ht).trans (State.runCollect_failed hok)

/-! ## Sector bodies and trials (R182, R184 to R190) -/

theorem State.runTrial_eq (s : State) (b : Battery) (sector : Sector) (t : Nat) :
    s.runTrial b sector t = s.withTodo ((if t < 10 then
      trialSteps b sector ++ [.trial b sector (t + 1)] else []) ++ s.seq.todo) := by
  have htrials : b.trials = 10 := by cases b <;> rfl
  rw [State.runTrial, htrials]
  split <;> rfl

theorem State.runProgramLoop_eq (s : State) (b : Battery) (sector : Sector) (off : Nat) :
    s.runProgramLoop b sector off = s.withTodo ((if off < 4096 then
      programTimedSteps sector (BitVec.ofNat 12 off) (s.targetByte b off) ++
        [.collect, .programLoop b sector (off + 1)] else []) ++ s.seq.todo) := by
  change (if off < 4096 then _ else _) = _
  split <;> rfl

/-- The byte each program battery writes (R188 to R190). -/
theorem State.targetByte_of_mem {s : State} {b : Battery} {off : Nat} {v : Byte}
    (h : (b, v) ∈ [(Battery.programFF, (0xFF : Byte)), (.program00, 0x00),
      (.programRandom, s.pbufRead off)]) : s.targetByte b off = v := by
  simp only [List.mem_cons, Prod.mk.injEq, List.not_mem_nil, or_false] at h
  rcases h with ⟨rfl, rfl⟩ | ⟨rfl, rfl⟩ | ⟨rfl, rfl⟩ <;> rfl

/-- Settles O58: each clause is the equation of one loop head, and its Tick. -/
theorem sectorBodySteps : Obligations.SectorBodySteps := by
  intro s b sector t off rest hh
  rw [← sectorInBank_eq_ofNat]
  refine ⟨fun ht => step_ticks hh ht rfl ?_,
    fun ht => step_ticks hh ht rfl ((State.runTrial_eq _ b sector t).trans ?_),
    fun ht v hv => step_ticks hh ht rfl ((State.runProgramLoop_eq _ b sector off).trans ?_)⟩
  · cases b <;> rfl
  · cases b <;> rfl
  · have htarget : (s.withTodo rest).targetByte b off = v := State.targetByte_of_mem hv
    rw [htarget]
    rfl

/-! ## Saving and the battery loop (R181, R191) -/

theorem maxPossible_table : ∀ p ∈ [(Battery.eraseAfterFF, 10), (.eraseAfter00, 10),
    (.eraseAfterRandom, 10), (.programFF, 40960), (.program00, 40960), (.programRandom, 40960)],
    p.1.maxPossible = p.2 := by decide

/-- Settles O60: saving writes the one record, the loop heads only what is pending. -/
theorem sectorsSavedAndBatteriesInOrder : Obligations.SectorsSavedAndBatteriesInOrder := by
  intro s b sector i rest left hh
  refine ⟨fun ht => ?_, fun ht hi => step_ticks hh ht rfl (State.runSectorLoop_of_le _ b hi),
    fun ht => step_ticks hh ht rfl rfl, fun ht => step_ticks hh ht rfl rfl⟩
  have hread (b' : Battery) (sector' : Sector) :
      ((s.withTodo rest).runSaveSector b sector).tick.resultRead b' sector' =
        if b = b' ∧ sector = sector' then
          summarise ((List.range s.seq.n).map s.sampRead) b.maxPossible
        else s.resultRead b' sector' :=
    (State.tick_resultRead _ b' sector').trans (State.resultRead_write _ b b' sector sector' _)
  refine ⟨_, step_ticks hh ht rfl rfl, ?_, fun maxPossible hmax => ?_, fun b' sector' hother => ?_⟩
  · rw [State.tick_result]
    rfl
  · rw [hread, if_pos ⟨rfl, rfl⟩, maxPossible_table _ hmax]
  · exact (hread b' sector').trans (if_neg (by tauto))

end Sys2Proof.Machine

/-! Batteries and the full test from issue to return (spec/45_orchestrator.md R181, R191). -/

namespace Sys2Proof.Machine

/-! ## What a battery leaves alone -/

/-- The state in which an operation without a result returns, its steps having led to `u`, the chip
answering `answers` from then on. -/
def State.returnedNone (u : State) (answers : List Byte) : State :=
  (((u.withChip (.oracle answers)).withTodo []).finish .none).tick

namespace State

variable (u : State) (answers : List Byte)

@[simp] theorem returnedNone_chip : (u.returnedNone answers).chip = .oracle answers := by
  simp [returnedNone]

@[simp] theorem returnedNone_bus : (u.returnedNone answers).bus = u.bus := by simp [returnedNone]

@[simp] theorem returnedNone_scr : (u.returnedNone answers).scr = u.scr := by
  simp [returnedNone, finish]

@[simp] theorem returnedNone_gen : (u.returnedNone answers).gen = u.gen := by
  simp [returnedNone, finish]

@[simp] theorem returnedNone_genInit : (u.returnedNone answers).genInit = u.genInit := by
  simp [returnedNone, finish]

@[simp] theorem returnedNone_pbuf : (u.returnedNone answers).pbuf = u.pbuf := by
  simp [returnedNone, finish]

@[simp] theorem returnedNone_resultRead (b : Battery) (sector : Sector) :
    (u.returnedNone answers).resultRead b sector = u.resultRead b sector :=
  tick_resultRead _ b sector

end State

/-- What steps that worked on the records `r` leave alone, from the issue to the return. -/
theorem Worked.onlyBattery {random : Bool} {tr : List BusEvent} {k : Nat} {s u : State}
    {r : List (Nat × Record)} (h : Worked random tr k { s with result := r } { u with result := r })
    (hset : u.settled) (hq : s.seq = Sequencer.empty) (answers : List Byte) :
    OnlyBattery s (u.returnedNone answers) := by
  obtain ⟨hlo, hhi, hcascade, hstate, hime⟩ := hset
  obtain ⟨hid, -, hopsel, harg0, harg1, harg2, -, hhost, hepoch, -⟩ := h
  rw [OnlyBattery, State.ext_iff]
  simp_all [State.returnedNone, State.finish]

/-- Work that begins with the Tick of the issue, whatever the records are. -/
theorem Worked.afterIssue {random : Bool} {tr : List BusEvent} {k : Nat} {s u : State}
    {r : List (Nat × Record)}
    (h : Worked random tr k { s.tick with result := r } { u with result := r }) :
    Worked random tr k { s with result := r } { u with result := r } := by
  rw [← State.tick_withResult] at h
  exact h.after

/-! ## RunBattery (R181) -/

theorem execRunBattery_eq {battery : BitVec 3} {b : Battery} (hb : batteryOf battery = some b)
    (s : State) :
    exec (.runBattery battery) s = .next (s.load (batterySteps b ++ [.ret .none])) := by
  change execRunBattery battery s = _
  rw [execRunBattery, hb]

theorem Battery.maxPossible_pos (b : Battery) : 0 < b.maxPossible := by cases b <;> decide

theorem Battery.random_eq_false {b : Battery} (h3 : b ≠ .eraseAfterRandom)
    (h6 : b ≠ .programRandom) : b.random = false := by
  cases b with
  | eraseAfterRandom => exact absurd rfl h3
  | programRandom => exact absurd rfl h6
  | eraseAfterFF | eraseAfter00 | programFF | program00 => rfl

/-- Settles O35: every command of the battery succeeds at its first poll. -/
theorem runBatteryCompletes : Obligations.RunBatteryCompletes := by
  intro s battery b hi hb
  obtain ⟨g, scr, hseed⟩ := seedsTo_exists s.tick
  obtain ⟨needed, u, hf, hdone⟩ := Feeds.battery (s := s.tick) (b := b) (f := streamByte g)
    (State.tick_idle hi.1) hseed fun _ _ => rfl
  have hworked := (hdone.worked []).afterIssue
  refine ⟨needed, fun answers => ⟨u.returnedNone answers,
    hf.returnsOnChip hi (execRunBattery_eq hb) (hworked.host.trans hi.1),
    u.returnedNone_chip answers, fun sector => ?_, fun b' sector hb' => ?_, fun h3 h6 => ?_,
    hworked.onlyBattery hdone.settled hi.2 answers⟩⟩
  · rw [u.returnedNone_resultRead]
    exact (hdone.done sector (Nat.zero_le _)).fail b.maxPossible_pos
  · rw [u.returnedNone_resultRead, hdone.others b' sector hb', State.tick_resultRead]
  · simpa using hworked.prng (Battery.random_eq_false h3 h6)

/-! ## RunFullTest (R191) -/

theorem batteriesDraws_all : batteriesDraws allBatteries = 2621440 := rfl

theorem mem_allBatteries (b : Battery) : b ∈ allBatteries := by cases b <;> decide

theorem maxPossible_eraseBatteries :
    ∀ b ∈ [Battery.eraseAfterFF, .eraseAfter00, .eraseAfterRandom], b.maxPossible = 10 := by decide

theorem maxPossible_programBatteries :
    ∀ b ∈ [Battery.programFF, .program00, .programRandom], b.maxPossible = 40960 := by decide

/-- Settles O36: the batteries run in order from cleared records, every command succeeding at its
first poll. -/
theorem runFullTestCompletes : Obligations.RunFullTestCompletes := by
  intro s hi
  obtain ⟨g, scr, hseed⟩ := seedsTo_exists s
  obtain ⟨needed, u, hf, hall, hset, hmeasured, -⟩ := Feeds.batteries (s := s.resultClear.tick)
    (l := allBatteries) (f := streamByte g) (by decide) (State.tick_idle hi.1)
    (.inl (List.cons_ne_nil _ _)) (hseed.congr (by simp) (by simp) (by simp)) fun _ => rfl
  have hworked : Worked true (fullTestCycles (streamByte g)) 2621440 { s with result := [] }
      { u with result := [] } :=
    (hall []).afterIssue.cast (batteriesCycles_all _) batteriesDraws_all
  have hinit : u.genInit = true := hworked.drawn (.inr (by decide))
  have hstream := hworked.stream g scr (hseed.congr rfl rfl rfl)
  -- named, so that no unification unfolds the advances
  generalize hadv : genAdvance^[2621440] g = g' at hstream
  obtain ⟨hgen, hscr⟩ := hstream.1 hinit
  have hrecord (b : Battery) (sector : Sector) := hmeasured b (mem_allBatteries b) sector
  refine ⟨needed, g, scr, hseed, fun answers => ⟨u.returnedNone answers,
    (hf.ofChip _).returns (s := s.resultClear.withChip (.oracle (needed ++ answers))) hi rfl rfl
      (hworked.host.trans hi.1),
    u.returnedNone_chip answers, ?_, ?_, ?_, ?_, fun sector b hb => ?_, fun sector b hb => ?_,
    fun b sector => ?_, hworked.onlyBattery hset hi.2 answers⟩⟩
  · rw [u.returnedNone_bus]
    exact hworked.bus
  · rw [u.returnedNone_genInit, hinit]
  · exact (u.returnedNone_gen answers).trans (hgen.symm.trans hadv.symm)
  · exact (u.returnedNone_scr answers).trans hscr.symm
  · rw [u.returnedNone_resultRead, ← maxPossible_eraseBatteries b hb]
    exact hrecord b sector
  · rw [u.returnedNone_resultRead, ← maxPossible_programBatteries b hb]
    exact hrecord b sector
  · rw [u.returnedNone_resultRead]
    exact (hrecord b sector).fail b.maxPossible_pos

end Sys2Proof.Machine

/-! Exceptions (spec/60_exceptions.md R200, R203): no step of the invariant faults, and a chip that
answers neither condition of a poll keeps its operation running. -/

namespace Sys2Proof.Machine

/-! ## No step faults (R200) -/

/-- An instruction is refused when ill-formed and else has a next state. -/
theorem exec_ne_fault (i : Instr) (s : State) (f : Fault) : exec i s ≠ .fault f := by
  obtain ⟨hrefused, hnext⟩ := illFormedOperationsAreRefused
  cases hwf : i.wf with
  | false =>
    obtain ⟨o, ho⟩ := hrefused s i hwf
    simp [ho]
  | true =>
    obtain ⟨t, ht⟩ := hnext s i hwf
    simp [ht]

/-- With room for one more sample collection does not fault (R182). -/
theorem State.runCollect_ne_fault {s : State} (h : s.seq.n < Params.sampleCap) (f : Fault) :
    s.runCollect ≠ .fault f := by
  rw [State.runCollect, if_pos h]
  split <;> exact nofun

/-- Sample collection is the one step that can fault, and its room is in `samplesFit`. -/
theorem runMicro_ne_fault {m : Micro} {s : State}
    (hs : samplesFit s.seq.n (m :: s.seq.todo) = true) (f : Fault) : runMicro m s ≠ .fault f := by
  cases m with
  | collect =>
    simp only [samplesFit, Bool.and_eq_true, decide_eq_true_eq] at hs
    exact State.runCollect_ne_fault hs.1 f
  | cycle i => exact exec_ne_fault i s f
  | setupTimer | startTimer | endTimer | poll _ _ _ | abortOnFailure | latchId | retryProgram _ _ _
  | fill _ _ _ | verify _ _ _ | verifyTest _ _ | drawPbuf _ | eraseGate _ | sectorLoop _ _
  | sectorBody _ _ | trial _ _ _ | programLoop _ _ _ | saveSector _ _ | batteries _ | seedRetry
  | ret _ => exact nofun

theorem engineStep_ne_fault {s : State} (hs : s.Inv) (f : Fault) : engineStep s ≠ .fault f := by
  unfold engineStep
  split
  · exact nofun
  · next m rest htodo =>
    obtain ⟨-, -, hfits⟩ := s.inv_iff.mp hs
    rw [State.Fits, htodo] at hfits
    exact runMicro_ne_fault (s := s.withTodo rest) hfits f

theorem acceptRequest_ne_fault (r : Request) (s : State) (f : Fault) :
    acceptRequest r s ≠ .fault f := by
  unfold acceptRequest
  split
  · exact nofun
  · exact exec_ne_fault _ _ f

theorem acceptPlatform_ne_fault (w : PlatformWrite) (s : State) (f : Fault) :
    acceptPlatform w s ≠ .fault f := by
  unfold acceptPlatform
  split <;> exact nofun

/-- Settles O43, by what the host lets the step be. -/
theorem stepNeverFaults : Obligations.StepNeverFaults := by
  intro s f hs
  have hhost (rest : List HostMove) : State.Inv { s with host := rest } := hs
  unfold step hostStep
  split
  · exact engineStep_ne_fault hs f
  · exact nofun
  · exact engineStep_ne_fault (hhost _) f
  · split
    · exact engineStep_ne_fault hs f
    · exact acceptRequest_ne_fault _ _ f
  · split
    · exact engineStep_ne_fault hs f
    · exact acceptPlatform_ne_fault _ _ f

/-! ## Steps on the way to a poll (R141) -/

/-- A step that can stand before the poll of an erase or a program: a write cycle, or a call that
sets up or starts the timer. -/
def Micro.beforePoll : Micro → Bool
  | .setupTimer | .startTimer => true
  | .cycle i => i.busRow.map BusRow.direction = some .write
  | .endTimer | .poll _ _ _ | .abortOnFailure | .latchId | .retryProgram _ _ _ | .fill _ _ _
  | .verify _ _ _ | .verifyTest _ _ | .drawPbuf _ | .eraseGate _ | .sectorLoop _ _
  | .sectorBody _ _ | .trial _ _ _ | .programLoop _ _ _ | .collect | .saveSector _ _
  | .batteries _ | .seedRetry | .ret _ => false

/-- The pending steps lead to a poll of `expected`. -/
inductive LeadsToPoll (expected : Byte) : List Micro → Prop where
  | poll (sec : BankSector) (offset : Offset) (rest : List Micro) :
    LeadsToPoll expected (.poll sec offset expected :: rest)
  | before {m : Micro} {rest : List Micro} (hm : m.beforePoll = true)
    (h : LeadsToPoll expected rest) : LeadsToPoll expected (m :: rest)

namespace LeadsToPoll

variable {expected : Byte} {l k : List Micro}

theorem ne_nil (h : LeadsToPoll expected l) : l ≠ [] := by cases h <;> exact List.cons_ne_nil _ _

theorem append_right (h : LeadsToPoll expected l) (k : List Micro) :
    LeadsToPoll expected (l ++ k) := by
  induction h with
  | poll sec offset rest => exact .poll sec offset _
  | before hm _ ih => exact .before hm ih

theorem append_left (hk : k.all Micro.beforePoll = true) (h : LeadsToPoll expected l) :
    LeadsToPoll expected (k ++ l) := by
  induction k with
  | nil => exact h
  | cons m k ih =>
    rw [List.all_cons, Bool.and_eq_true] at hk
    exact .before hk.1 (ih hk.2)

end LeadsToPoll

theorem exec_write {i : Instr} (hi : i.busRow.map BusRow.direction = some .write) (s : State) :
    ∃ off v, exec i s = .next (s.busWrite off v) := by
  cases i with
  | unlock1 | unlock2 | cmdIdEntry | cmdIdExit | cmdBank | bankData _ | cmdEraseSetup
  | sectorErase _ | cmdProgram | programData _ _ _ | abort => exact ⟨_, _, rfl⟩
  | rdId0 | rdId1 | rdPoll _ _ | rdVerify _ _ | scramblerNext | generatorNext | setupTimer
  | startTimer | endTimer | getTimerResult | readFlashID | switchFlashBank _ | eraseSector _
  | eraseSectorTimed _ | programByte _ _ _ | programByteTimed _ _ _ | zeroSector _
  | randomizeSector _ | saveResults _ _ _ _ | runBattery _ | runFullTest => cases hi

/-- What the step `m`, up to the poll or a turn of it, leaves alone: the host, RES, and an IME that is
0; SetupTimer makes it 0. -/
structure Waits (m : Micro) (s t : State) : Prop where
  host : t.host = s.host
  res : t.res = s.res
  ime : s.ime = false ∨ m = .setupTimer → t.ime = false

/-- A step before the poll reads no answer. -/
theorem runMicro_beforePoll {m : Micro} {s : State} {pend : List Byte} (hm : m.beforePoll = true)
    (hc : s.chip = .oracle pend) :
    ∃ t, runMicro m s = .next t ∧ Waits m s t ∧ t.chip = .oracle pend ∧
      t.seq.todo = s.seq.todo := by
  cases m with
  | setupTimer => exact ⟨_, rfl, by constructor <;> simp, by simpa using hc, by simp⟩
  | startTimer => exact ⟨_, rfl, by constructor <;> simp, by simpa using hc, by simp⟩
  | cycle i =>
    obtain ⟨off, v, hexec⟩ := exec_write (of_decide_eq_true hm) s
    exact ⟨_, hexec, by constructor <;> simp, by simp [hc], by simp⟩
  | endTimer | poll _ _ _ | abortOnFailure | latchId | retryProgram _ _ _ | fill _ _ _
  | verify _ _ _ | verifyTest _ _ | drawPbuf _ | eraseGate _ | sectorLoop _ _ | sectorBody _ _
  | trial _ _ _ | programLoop _ _ _ | collect | saveSector _ _ | batteries _ | seedRetry | ret _ =>
    cases hm

/-- A turn of the poll that meets neither condition is due again. -/
theorem runPoll_pending {sec : BankSector} {offset : Offset} {expected b : Byte} {s : State}
    {pend : List Byte} (hb : pollStatus expected b = .pending)
    (hc : s.chip = .oracle (b :: pend)) :
    ∃ t, runPoll sec offset expected s = .next t ∧ Waits (.poll sec offset expected) s t ∧
      t.chip = .oracle pend ∧ t.seq.todo = .poll sec offset expected :: s.seq.todo := by
  have hpoll := runPoll_oracle s sec offset expected b pend s.seq.todo
  rw [hb, ← hc] at hpoll
  refine ⟨_, hpoll, ?_, rfl, rfl⟩
  constructor <;> simp [State.saw]

/-! ## A poll without an answer (R203) -/

/-- A poll of `expected` is to come, and at least the next `n` bytes read meet neither of its
conditions. -/
structure AwaitsPoll (expected : Byte) (n : Nat) (s : State) : Prop where
  host : s.host = []
  todo : LeadsToPoll expected s.seq.todo
  chip : ∃ pend, s.chip = .oracle pend ∧ n ≤ pend.length ∧
    ∀ b ∈ pend, pollStatus expected b = .pending

namespace AwaitsPoll

variable {expected : Byte} {n : Nat} {s : State}

theorem busy (h : AwaitsPoll expected n s) : s.busy = true := by
  simpa [State.busy] using h.todo.ne_nil

/-- The step due, and what it leaves: it reads at most one of the bytes. -/
theorem step_due (h : AwaitsPoll expected (n + 1) s) :
    ∃ m rest t, s.seq.todo = m :: rest ∧ runMicro m (s.withTodo rest) = .next t ∧
      Waits m s t ∧ AwaitsPoll expected n t := by
  obtain ⟨hhost, htodo, pend, hchip, hlen, hpend⟩ := h
  generalize hl : s.seq.todo = l at htodo
  cases htodo with
  | poll sec offset rest =>
    cases pend with
    | nil => cases hlen
    | cons b pend =>
      obtain ⟨t, ht, hw, htchip, httodo⟩ := runPoll_pending (sec := sec) (offset := offset)
        (s := s.withTodo rest) (hpend b List.mem_cons_self) hchip
      exact ⟨_, rest, t, rfl, ht, ⟨hw.host, hw.res, hw.ime⟩, hw.host.trans hhost,
        httodo ▸ .poll sec offset _, pend, htchip, Nat.le_of_succ_le_succ hlen,
        fun c hc => hpend c (List.mem_cons_of_mem b hc)⟩
  | @before m rest hm hrest =>
    obtain ⟨t, ht, hw, htchip, httodo⟩ := runMicro_beforePoll (s := s.withTodo rest) hm hchip
    exact ⟨m, rest, t, rfl, ht, ⟨hw.host, hw.res, hw.ime⟩, hw.host.trans hhost, httodo ▸ hrest,
      pend, htchip, Nat.le_of_succ_le hlen, hpend⟩

/-- However many steps are run, the operation still runs. -/
theorem run (h : AwaitsPoll expected n s) :
    ∃ u, Host.Core.run core n s = .next u ∧ u.busy = true ∧ u.res = s.res ∧
      (s.ime = false ∨ 0 < n ∧ s.seq.todo.head? = some .setupTimer → u.ime = false) := by
  induction n generalizing s with
  | zero => exact ⟨s, rfl, h.busy, rfl, by simp⟩
  | succ n ih =>
    obtain ⟨m, rest, t, htodo, hm, hw, ht⟩ := h.step_due
    obtain ⟨u, hu, hbusy, hres, hime⟩ := ih ht
    refine ⟨u, ?_, hbusy, hres.trans hw.res, fun hs => hime (.inl (hw.ime ?_))⟩
    · rw [core_run_succ, step_running h.host htodo, hm]
      exact hu
    · simpa [htodo] using hs

/-- An operation issued with no other running, whose steps lead to a poll. -/
theorem load {l : List Micro} {pend : List Byte} (hi : Idle s) (hl : LeadsToPoll expected l)
    (hc : s.chip = .oracle pend) (hn : n ≤ pend.length)
    (hp : ∀ b ∈ pend, pollStatus expected b = .pending) : AwaitsPoll expected n (s.load l) where
  host := by simpa using hi.1
  todo := by simpa using hl.append_right s.seq.todo
  chip := ⟨pend, by simpa using hc, hn, hp⟩

end AwaitsPoll

/-! ## The four operations that poll (R144 to R147) -/

theorem leadsToPoll_eraseSteps (sector : Sector) : LeadsToPoll 0xFF (eraseSteps sector) :=
  .append_left (k := unlockSteps ++ [.cycle .cmdEraseSetup] ++ unlockSteps ++
    [.cycle (.sectorErase (sectorInBank sector))]) rfl (.poll _ 0 [.abortOnFailure])

theorem leadsToPoll_eraseTimedSteps (sector : Sector) :
    LeadsToPoll 0xFF (eraseTimedSteps sector) :=
  .append_left (k := [.setupTimer] ++ unlockSteps ++ [.cycle .cmdEraseSetup] ++ unlockSteps ++
    [.startTimer, .cycle (.sectorErase (sectorInBank sector))]) rfl
    (.poll _ 0 [.endTimer, .abortOnFailure])

theorem leadsToPoll_programSteps (sector : Sector) (offset : Offset) (value : Byte) :
    LeadsToPoll value (programSteps sector offset value) :=
  .append_left (k := unlockSteps ++
    [.cycle .cmdProgram, .cycle (.programData (sectorInBank sector) offset value)]) rfl
    (.poll _ offset [.abortOnFailure])

theorem leadsToPoll_programTimedSteps (sector : Sector) (offset : Offset) (value : Byte) :
    LeadsToPoll value (programTimedSteps sector offset value) :=
  .append_left (k := [.setupTimer] ++ unlockSteps ++
    [.cycle .cmdProgram, .startTimer, .cycle (.programData (sectorInBank sector) offset value)]) rfl
    (.poll _ offset [.endTimer, .abortOnFailure])

/-- Each of the four loads steps that lead to its poll; a timed one begins with SetupTimer. -/
theorem exec_loads_poll {sector : Sector} {offset : Offset} {value expected : Byte} {i : Instr}
    (hi : (i = .eraseSector sector ∨ i = .eraseSectorTimed sector) ∧ expected = 0xFF ∨
      (i = .programByte sector offset value ∨ i = .programByteTimed sector offset value) ∧
        expected = value) :
    ∃ l, (∀ s, exec i s = .next (s.load l)) ∧ LeadsToPoll expected l ∧
      (i = .eraseSectorTimed sector ∨ i = .programByteTimed sector offset value →
        l.head? = some .setupTimer) := by
  obtain ⟨rfl | rfl, rfl⟩ | ⟨rfl | rfl, rfl⟩ := hi
  · exact ⟨_, fun _ => rfl, (leadsToPoll_eraseSteps sector).append_right _, nofun⟩
  · exact ⟨_, fun _ => rfl, (leadsToPoll_eraseTimedSteps sector).append_right _, fun _ => rfl⟩
  · exact ⟨_, fun _ => rfl, (leadsToPoll_programSteps sector offset _).append_right _, nofun⟩
  · exact ⟨_, fun _ => rfl, (leadsToPoll_programTimedSteps sector offset _).append_right _,
      fun _ => rfl⟩

/-- Settles O26: the steps lead to a poll, and each turn of it that meets neither condition is due
again. -/
theorem pollHangsWhilePending : Obligations.PollHangsWhilePending := by
  intro s sector offset value pend k i expected hidle hi hc hp hk
  obtain ⟨l, hexec, hl, htimed⟩ := exec_loads_poll hi
  obtain ⟨u, hu, hbusy, hres, hime⟩ :=
    (AwaitsPoll.load hidle hl hc hk (pollStatus_pending_of_forall hp)).run
  refine ⟨s.load l, u, hexec s, hu, hbusy, hres.trans (by simp), fun hi hpos =>
    hime (.inr ⟨hpos, ?_⟩)⟩
  simp [List.head?_append, htimed hi]

end Sys2Proof.Machine

/-! External reset and the host's view (spec/70_reset_and_hazards.md R222, R231): a reset move acts at
once whatever is running, and RESULT and FLASHID are read only while nothing is. -/

namespace Sys2Proof.Machine

/-! ## The reset move (R222) -/

/-- A step takes the host's reset at once, an operation running or not. -/
theorem step_reset {s : State} {rest : List HostMove} (hhost : s.host = .reset :: rest) :
    step s = .next (State.externalReset { s with host := rest }) := by
  simp [step, hostStep, hhost]

/-- Settles O46: the step is the external reset, whose fields are known. -/
theorem externalResetEffect : Obligations.ExternalResetEffect := by
  intro s rest hhost
  refine ⟨_, step_reset hhost, ?_⟩
  simp

/-! ## The host's view (R41, R231) -/

theorem State.busy_iff (s : State) : s.busy = true ↔ s.seq.todo ≠ [] := by
  simp [State.busy]

theorem State.hostResult_of_busy {s : State} (h : s.busy = true) (b : Battery) (sector : Sector) :
    s.hostResult b sector = none := if_pos h

theorem State.hostResult_of_not_busy {s : State} (h : ¬ s.busy = true) (b : Battery)
    (sector : Sector) : s.hostResult b sector = some (s.resultRead b sector) := if_neg h

theorem State.hostFlashId_of_busy {s : State} (h : s.busy = true) : s.hostFlashId = none := if_pos h

theorem State.hostFlashId_of_not_busy {s : State} (h : ¬ s.busy = true) :
    s.hostFlashId = some s.flashId := if_neg h

/-- Settles O50: an operation runs exactly while a step is pending, and the two views depend on
that alone. -/
theorem hostReadsOnlyBetweenOperations : Obligations.HostReadsOnlyBetweenOperations := by
  intro s b sector
  constructor
  · intro hnil
    have hidle : ¬ s.busy = true := fun hbusy => s.busy_iff.mp hbusy hnil
    exact ⟨State.hostResult_of_not_busy hidle b sector, State.hostFlashId_of_not_busy hidle⟩
  · intro hpending
    have hbusy : s.busy = true := s.busy_iff.mpr hpending
    exact ⟨State.hostResult_of_busy hbusy b sector, State.hostFlashId_of_busy hbusy⟩

end Sys2Proof.Machine
